-- ==== Sys2Proof/Word.lean ====
section
/-! DEFINITION. The fixed widths of the block's values (00_scope.md R9): bytes, nibbles and the 7-bit bus
address. Bit 0 is the least significant bit (R10). -/

namespace Sys2Proof

/-- An 8-bit unsigned value (R9). -/
abbrev Byte := BitVec 8

/-- A 4-bit value: one half of a byte as the controller's data lines D7..D4 carry it (R72). -/
abbrev Nibble := BitVec 4

/-- The 7-bit I2C address of the expander (R9, R24). -/
abbrev BusAddr := BitVec 7

end Sys2Proof
end

