-- ==== Sys2Proof/Config.lean ====
section
/-! DEFINITION. What an instantiation of the model fixes (the parameters of 00_scope.md R7 and R8), the
values the environment draws (R16, R211), and the free values: opaque constants without a body, for what the
spec leaves at "any value". No statement can rest on the value of a free constant. -/

namespace Sys2Proof

/-- A bus pin selection: an opaque host value that the sequencer only forwards (R27, D20). The token tells
two selections apart and means nothing else (DESIGN CHOICE, log entry 11). -/
structure PinSel where
  token : Nat
  deriving DecidableEq, Repr, Inhabited

/-- The named parameters of R7. The four `exp…` bytes say which expander output drives which line (D3). -/
structure Params where
  expRs : Byte
  expRw : Byte
  expEn : Byte
  expBl : Byte
  blDefault : Bool
  propagateBusErr : Bool
  pinsDefault : PinSel
  deriving DecidableEq, Repr

/-- R7: a control-line parameter is one of the four low bits of the expander byte. -/
def Params.legalLine (b : Byte) : Bool :=
  b == 0x01 || b == 0x02 || b == 0x04 || b == 0x08

/-- R8: four legal lines, pairwise distinct, together covering bits 3:0 of the expander byte. -/
def Params.wf (p : Params) : Bool :=
  Params.legalLine p.expRs && Params.legalLine p.expRw && Params.legalLine p.expEn
    && Params.legalLine p.expBl
    && p.expRs != p.expRw && p.expRs != p.expEn && p.expRs != p.expBl
    && p.expRw != p.expEn && p.expRw != p.expBl && p.expEn != p.expBl
    && (p.expRs ||| p.expRw ||| p.expEn ||| p.expBl) == 0x0F

/-- The result of one transport transaction, a draw (R13, R16). The sequencer sees only whether it failed;
whether the byte of a failed one arrived is the environment's (R211). -/
inductive XferResult where
  | ok
  | fail (reached : Bool)
  deriving DecidableEq, Repr, Inhabited

/-- The two memories of the controller that its address counter can point into (R51, R52, R247). -/
inductive Space where
  | ddram
  | cgram
  deriving DecidableEq, Repr, Inhabited

/-- The HD44780 controller's registers, as far as R37 and R77 to R84 name them. They are external state: the
sequencer never reads them. -/
structure LcdRegs where
  /-- The interface width: true while it is 8 bits (DL = 1), false while it is 4 bits (R83, R149). -/
  wide : Bool
  /-- In 4-bit width: the high nibble already latched, with its RS line; none while the controller awaits a
  high nibble (R37, R243). -/
  high : Option (Bool × Nibble)
  /-- N of the function set (R83). -/
  twoLine : Bool
  /-- F of the function set (R83). -/
  tall : Bool
  /-- D of display control (R80). -/
  display : Bool
  /-- C of display control (R80). -/
  cursor : Bool
  /-- B of display control (R80). -/
  blink : Bool
  /-- ID of the entry mode (R79). -/
  increment : Bool
  /-- S of the entry mode (R79). -/
  autoShift : Bool
  /-- Which memory the address counter points into (R247). -/
  space : Space
  /-- The address counter (R51, R52). -/
  addr : BitVec 7
  deriving DecidableEq, Repr, Inhabited

/-- The host's default pin selection, an opaque value (R7, D20). -/
opaque Config.pinsDefault : PinSel

/-- The result of transaction `n` where the host's script does not give one (R16, U8, U9). -/
opaque Config.freeResult : Nat → XferResult

/-- The controller's registers after transaction `n` did something to it that the spec gives no effect
(U3, U4, U5). -/
opaque Config.freeLcd : Nat → LcdRegs

/-- The low four data lines, which are not wired (R72), as an 8-bit-wide controller reads them at
transaction `n`. -/
opaque Config.freeLowLines : Nat → Nibble

/-- The RS line a controller goes by at transaction `n` when the two nibbles of a pair disagree. -/
opaque Config.freeRs : Nat → Bool

/-- The bus address the expander answers to: one 7-bit address (R219); which one, the spec does not say (DESIGN CHOICE, log
entry 14). -/
opaque Config.expanderAddr : BusAddr

/-- The expander's output before the first transaction (R36, U20, D29). -/
opaque Config.outAtPowerOn : Byte

/-- The controller's registers at power-on (R37, U4). -/
opaque Config.lcdAtPowerOn : LcdRegs

/-- The parameter defaults of R7 (the line positions are general knowledge, G1). -/
def Params.default : Params :=
  { expRs := 0x01, expRw := 0x02, expEn := 0x04, expBl := 0x08
    blDefault := true, propagateBusErr := false, pinsDefault := Config.pinsDefault }

end Sys2Proof
end

