-- ==== Sys2Proof/Syntax.lean ====
section
/-! DEFINITION. The instructions: one constructor for every row of spec/opcode_table.json (30_encoding.md
R70, R72, R76 to R85), the eight HD44780 instruction bytes on their own (the controller decodes those too),
and the terms the host writes on the request port before the transcriber has checked them (R70, R71). -/

namespace Sys2Proof

/-- Which flag of the display-control byte a `DCTL` changes (R181). -/
inductive DctlField where
  | D
  | C
  | B
  deriving DecidableEq, Repr

/-- The HD44780 instruction bytes, by leading one (R76 to R84). Flag and field names are the table's. -/
inductive HdInstr where
  | clear
  | home (x : Bool)
  | entryMode (i s : Bool)
  | dispCtl (d c b : Bool)
  | shift (s r : Bool) (x : BitVec 2)
  | funcSet (l n f : Bool) (x : BitVec 2)
  | setCgram (a : BitVec 6)
  | setDdram (a : BitVec 7)
  deriving DecidableEq, Repr

/-- One constructor per row of spec/opcode_table.json. The first eighteen are the requests of R70; the `hd…`
rows and `xferByte` are the bytes the sequencer carries (R72, R76 to R85). -/
inductive Instr where
  | cfgAddr (a : BusAddr)
  | cfgGeom (cols rows : Byte)
  | cfgFont (f : Bool)
  | cfgPins (p : PinSel)
  | cfgBl (b : Bool)
  | beginInit
  | expw (b : Byte)
  | pulse (b : Byte)
  | w4 (n : Byte)
  | send (v m : Byte)
  | cmd (v : Byte)
  | putc (v : Byte)
  | clear
  | home
  | setCursor (col row : Byte)
  | createChar (loc : Byte) (g : List Byte)
  | setBl (on : Bool)
  | dctl (field : DctlField) (val : Bool)
  | hdClear
  | hdHome (x : Bool)
  | hdEntryMode (i s : Bool)
  | hdDispCtl (d c b : Bool)
  | hdShift (s r : Bool) (x : BitVec 2)
  | hdFuncSet (l n f : Bool) (x : BitVec 2)
  | hdFuncSetNibble8
  | hdFuncSetNibble4
  | hdSetCgram (a : BitVec 6)
  | hdSetDdram (a : BitVec 7)
  | hdData (d : Byte)
  | xferByte (d : Nibble) (l e w s : Bool)
  deriving DecidableEq, Repr

/-- The table row of an HD44780 instruction byte. -/
def HdInstr.toInstr : HdInstr → Instr
  | .clear => .hdClear
  | .home x => .hdHome x
  | .entryMode i s => .hdEntryMode i s
  | .dispCtl d c b => .hdDispCtl d c b
  | .shift s r x => .hdShift s r x
  | .funcSet l n f x => .hdFuncSet l n f x
  | .setCgram a => .hdSetCgram a
  | .setDdram a => .hdSetDdram a

/-- The mnemonics of the request grammar (R70). -/
inductive ReqName where
  | cfgAddr | cfgGeom | cfgFont | cfgPins | cfgBl | beginInit
  | expw | pulse | w4 | send | cmd | putc
  | clear | home | setCursor | createChar | setBl | dctl
  deriving DecidableEq, Repr

/-- One operand as the host writes it (R88): a number, a bracketed list of numbers, or a field letter. A
number is not yet bounded: the transcriber checks its width (R71). -/
inductive Arg where
  | num (n : Nat)
  | list (l : List Nat)
  | field (f : DctlField)
  deriving DecidableEq, Repr

/-- What the host writes on the request port. Requests have no binary form (R70, D1); the carried bytes of
the table's other rows do, and stand here as their bits. -/
inductive Term where
  /-- A request: mnemonic and operands (R70). -/
  | request (m : ReqName) (args : List Arg)
  /-- An HD44780 instruction byte (RS = 0), the bits numbered as the opcode table numbers them (R76). -/
  | word (nbits w : Nat)
  /-- One instruction nibble alone (R87). -/
  | nibble (n : Nibble)
  /-- A data byte (RS = 1, R85). -/
  | data (d : Byte)
  /-- An expander byte (R72). -/
  | bus (b : Byte)
  deriving DecidableEq, Repr

/-- Why the transcriber refuses a term (R71), each by a name of its own. -/
inductive Reject where
  /-- An operand of request `m` does not fit its width: "cannot be written as a term" (R71). -/
  | operandWidth (m : ReqName) (value : Nat)
  /-- Request `m` has the wrong number or kinds of operands (R70). -/
  | operandShape (m : ReqName)
  /-- No row of the opcode table has `nbits` bits. -/
  | noRowOfWidth (nbits : Nat)
  /-- The bits `w` are no instruction byte: no leading one, or more than a byte (R76). -/
  | noInstructionByte (w : Nat)
  /-- The nibble is neither of the two single nibbles of R83 and R87. -/
  | noSingleNibble (n : Nibble)
  deriving DecidableEq, Repr

end Sys2Proof
end

