-- ==== Sys2Proof/WellFormed.lean ====
section
/-! DEFINITION. Which instructions are terms of the grammar. The operand widths are in the types
(00_scope.md R9); the one check left is that a glyph is exactly eight bytes (44_command_surface.md R177,
D12). Every other operand value is a term: what the spec masks, clamps or faults is a meaning's business
(30_encoding.md R90). -/

namespace Sys2Proof

/-- The glyph of `CREATECHAR` has exactly eight rows (R70, R177). -/
def Instr.wf : Instr → Bool
  | .createChar _ g => g.length == 8
  | _ => true

end Sys2Proof
end

