-- ==== Sys2Proof/Decode.lean ====
section
/-! DEFINITION. From what the host writes to an instruction, and back. Requests have no binary form, so their
decoder is the identity on terms but for the width checks of the transcriber (30_encoding.md R70, R71, D1);
HD44780 instruction bytes are decoded by their leading one (R76); the expander byte by the parameters of R7
(R72). Then the assembly text of R88 with the pseudo-operations of R89. -/

namespace Sys2Proof

/-! ## Bytes from fields -/

/-- The byte `m` where the flag is set, else 0. -/
def flagBit (b : Bool) (m : Byte) : Byte := if b then m else 0

/-- Is some bit of the mask `m` set in `b`? For a one-bit mask: is that bit set. -/
def hasBit (b m : Byte) : Bool := (b &&& m) != 0

/-- The instruction byte of R77 to R84, from the formula each rule gives (DEDUCED, log entry 12). -/
def HdInstr.byte : HdInstr → Byte
  | .clear => 0x01
  | .home x => 0x02 ||| flagBit x 0x01
  | .entryMode i s => 0x04 ||| flagBit i 0x02 ||| flagBit s 0x01
  | .dispCtl d c b => 0x08 ||| flagBit d 0x04 ||| flagBit c 0x02 ||| flagBit b 0x01
  | .shift s r x => 0x10 ||| flagBit s 0x08 ||| flagBit r 0x04 ||| x.setWidth 8
  | .funcSet l n f x => 0x20 ||| flagBit l 0x10 ||| flagBit n 0x08 ||| flagBit f 0x04 ||| x.setWidth 8
  | .setCgram a => 0x40 ||| a.setWidth 8
  | .setDdram a => 0x80 ||| a.setWidth 8

/-- R76: the position of the leading one selects the instruction, the bits below it are its fields. The byte
0x00 has no leading one and is no instruction. -/
def HdInstr.decode (b : Byte) : Option HdInstr :=
  if b.getLsbD 7 then some (.setDdram (b.setWidth 7))
  else if b.getLsbD 6 then some (.setCgram (b.setWidth 6))
  else if b.getLsbD 5 then
    some (.funcSet (b.getLsbD 4) (b.getLsbD 3) (b.getLsbD 2) (b.setWidth 2))
  else if b.getLsbD 4 then some (.shift (b.getLsbD 3) (b.getLsbD 2) (b.setWidth 2))
  else if b.getLsbD 3 then some (.dispCtl (b.getLsbD 2) (b.getLsbD 1) (b.getLsbD 0))
  else if b.getLsbD 2 then some (.entryMode (b.getLsbD 1) (b.getLsbD 0))
  else if b.getLsbD 1 then some (.home (b.getLsbD 0))
  else if b.getLsbD 0 then some .clear
  else none

/-- The nibble bytes of the two single-nibble instructions: 0x30 and 0x20 (R83, R149). -/
def wideNibbleByte : Byte := 0x30

/-- See `wideNibbleByte`. -/
def narrowNibbleByte : Byte := 0x20

/-- The expander byte with data nibble `d` and lines backlight, Enable, read/write and register select, at
the positions the parameters give them (R72, R7). -/
def busByte (p : Params) (d : Nibble) (l e w s : Bool) : Byte :=
  (d.setWidth 8 <<< 4) ||| flagBit l p.expBl ||| flagBit e p.expEn ||| flagBit w p.expRw
    ||| flagBit s p.expRs

/-! ## The transcriber -/

/-- A number that must fit `w` bits (R9); refused by name where it does not (R71). -/
def operand (m : ReqName) (w n : Nat) : Except Reject (BitVec w) :=
  if n < 2 ^ w then .ok (BitVec.ofNat w n) else .error (.operandWidth m n)

/-- A number that must be 0 or 1. -/
def bitOperand (m : ReqName) (n : Nat) : Except Reject Bool :=
  if n = 0 then .ok false else if n = 1 then .ok true else .error (.operandWidth m n)

/-- A list of numbers, each of which must fit a byte. -/
def byteOperands (m : ReqName) : List Nat → Except Reject (List Byte)
  | [] => .ok []
  | n :: ns =>
    match operand m 8 n with
    | .error e => .error e
    | .ok b =>
      match byteOperands m ns with
      | .error e => .error e
      | .ok bs => .ok (b :: bs)

/-- One byte operand, then `k`. -/
def withByte (m : ReqName) (n : Nat) (k : Byte → Instr) : Except Reject Instr :=
  match operand m 8 n with
  | .error e => .error e
  | .ok b => .ok (k b)

/-- Two byte operands, then `k`; the first that does not fit is named. -/
def withBytes (m : ReqName) (n₁ n₂ : Nat) (k : Byte → Byte → Instr) : Except Reject Instr :=
  match operand m 8 n₁ with
  | .error e => .error e
  | .ok a => withByte m n₂ (k a)

/-- One 1-bit operand, then `k`. -/
def withBit (m : ReqName) (n : Nat) (k : Bool → Instr) : Except Reject Instr :=
  match bitOperand m n with
  | .error e => .error e
  | .ok b => .ok (k b)

/-- The request grammar of R70, mnemonic by mnemonic. -/
def decodeRequest (m : ReqName) (args : List Arg) : Except Reject Instr :=
  match m, args with
  | .cfgAddr, [.num a] =>
    match operand .cfgAddr 7 a with
    | .error e => .error e
    | .ok a => .ok (.cfgAddr a)
  | .cfgGeom, [.num c, .num r] => withBytes .cfgGeom c r .cfgGeom
  | .cfgFont, [.num f] => withBit .cfgFont f .cfgFont
  | .cfgPins, [.num p] => .ok (.cfgPins ⟨p⟩)
  | .cfgBl, [.num b] => withBit .cfgBl b .cfgBl
  | .beginInit, [] => .ok .beginInit
  | .expw, [.num b] => withByte .expw b .expw
  | .pulse, [.num b] => withByte .pulse b .pulse
  | .w4, [.num n] => withByte .w4 n .w4
  | .send, [.num v, .num k] => withBytes .send v k .send
  | .cmd, [.num v] => withByte .cmd v .cmd
  | .putc, [.num v] => withByte .putc v .putc
  | .clear, [] => .ok .clear
  | .home, [] => .ok .home
  | .setCursor, [.num c, .num r] => withBytes .setCursor c r .setCursor
  | .createChar, [.num l, .list g] =>
    match operand .createChar 8 l with
    | .error e => .error e
    | .ok loc =>
      match byteOperands .createChar g with
      | .error e => .error e
      | .ok bs => .ok (.createChar loc bs)
  | .setBl, [.num b] => withBit .setBl b .setBl
  | .dctl, [.field f, .num v] => withBit .dctl v (.dctl f)
  | m, _ => .error (.operandShape m)

/-- The instruction a term stands for, or the name of why it stands for none. Total on every term. -/
def decode (p : Params) : Term → Except Reject Instr
  | .request m args => decodeRequest m args
  | .word nbits w =>
    if nbits = 8 then
      if w < 256 then
        match HdInstr.decode (BitVec.ofNat 8 w) with
        | some h => .ok h.toInstr
        | none => .error (.noInstructionByte w)
      else .error (.noInstructionByte w)
    else .error (.noRowOfWidth nbits)
  | .nibble n =>
    if n = 0x3 then .ok .hdFuncSetNibble8
    else if n = 0x2 then .ok .hdFuncSetNibble4
    else .error (.noSingleNibble n)
  | .data d => .ok (.hdData d)
  | .bus b =>
    .ok (.xferByte ((b >>> 4).setWidth 4) (hasBit b p.expBl) (hasBit b p.expEn) (hasBit b p.expRw)
      (hasBit b p.expRs))

/-- The instruction bits of a table row, bit 0 the least significant bit of its first byte. Only the eight
HD44780 instruction bytes have bits in the table (8 of them); a request has none (D1; DESIGN CHOICE, log
entry 13). -/
def decodeTableWord (nbits w : Nat) : Option Instr :=
  match decode Params.default (.word nbits w) with
  | .ok i => some i
  | .error _ => none

/-! ## The encoder -/

/-- A Boolean operand as the host writes it. -/
def bitNat (b : Bool) : Nat := if b then 1 else 0

/-- The term of an instruction byte. -/
def HdInstr.term (h : HdInstr) : Term := .word 8 h.byte.toNat

/-- The term that stands for an instruction (R70, R72, R76 to R85). -/
def encode (p : Params) : Instr → Term
  | .cfgAddr a => .request .cfgAddr [.num a.toNat]
  | .cfgGeom c r => .request .cfgGeom [.num c.toNat, .num r.toNat]
  | .cfgFont f => .request .cfgFont [.num (bitNat f)]
  | .cfgPins s => .request .cfgPins [.num s.token]
  | .cfgBl b => .request .cfgBl [.num (bitNat b)]
  | .beginInit => .request .beginInit []
  | .expw b => .request .expw [.num b.toNat]
  | .pulse b => .request .pulse [.num b.toNat]
  | .w4 n => .request .w4 [.num n.toNat]
  | .send v m => .request .send [.num v.toNat, .num m.toNat]
  | .cmd v => .request .cmd [.num v.toNat]
  | .putc v => .request .putc [.num v.toNat]
  | .clear => .request .clear []
  | .home => .request .home []
  | .setCursor c r => .request .setCursor [.num c.toNat, .num r.toNat]
  | .createChar l g => .request .createChar [.num l.toNat, .list (g.map BitVec.toNat)]
  | .setBl b => .request .setBl [.num (bitNat b)]
  | .dctl f v => .request .dctl [.field f, .num (bitNat v)]
  | .hdClear => HdInstr.term .clear
  | .hdHome x => HdInstr.term (.home x)
  | .hdEntryMode i s => HdInstr.term (.entryMode i s)
  | .hdDispCtl d c b => HdInstr.term (.dispCtl d c b)
  | .hdShift s r x => HdInstr.term (.shift s r x)
  | .hdFuncSet l n f x => HdInstr.term (.funcSet l n f x)
  | .hdFuncSetNibble8 => .nibble 0x3
  | .hdFuncSetNibble4 => .nibble 0x2
  | .hdSetCgram a => HdInstr.term (.setCgram a)
  | .hdSetDdram a => HdInstr.term (.setDdram a)
  | .hdData d => .data d
  | .xferByte d l e w s => .bus (busByte p d l e w s)

/-! ## Assembly text (R88) and pseudo-operations (R89) -/

/-- A lexical token of a line. -/
inductive Token where
  | word (cs : List Char)
  | text (cs : List Char)
  | comma
  | lbrack
  | rbrack
  deriving DecidableEq, Repr

/-- Why a line of text is no request, each by a name of its own. -/
inductive AsmError where
  | unclosedText
  | unknownMnemonic (cs : List Char)
  | badNumber (cs : List Char)
  | badOperands
  | wideCharacter (c : Char)
  deriving DecidableEq, Repr

/-- Close the word being read, if there is one. Words are collected backwards. -/
def Token.flush (acc : List Char) (ts : List Token) : List Token :=
  if acc.isEmpty then ts else .word acc.reverse :: ts

/-- Split a line into tokens; `acc` is the word being read, `inText` whether a quote is open. A semicolon
outside a text starts a comment (DEDUCED, log entry 11). -/
def lexLine : List Char → Bool → List Char → Except AsmError (List Token)
  | [], inText, acc => if inText then .error .unclosedText else .ok (Token.flush acc [])
  | c :: cs, true, acc =>
    if c = '"' then
      match lexLine cs false [] with
      | .error e => .error e
      | .ok ts => .ok (.text acc.reverse :: ts)
    else lexLine cs true (c :: acc)
  | c :: cs, false, acc =>
    if c = ';' then .ok (Token.flush acc [])
    else
      let one (quote : Bool) (mk : List Token → List Token) : Except AsmError (List Token) :=
        match lexLine cs quote [] with
        | .error e => .error e
        | .ok ts => .ok (Token.flush acc (mk ts))
      if c = '"' then one true id
      else if c = ',' then one false (.comma :: ·)
      else if c = '[' then one false (.lbrack :: ·)
      else if c = ']' then one false (.rbrack :: ·)
      else if c = ' ' ∨ c = '\t' ∨ c = '\r' then one false id
      else lexLine cs false (c :: acc)

/-- The value of a digit in a base of 2, 10 or 16. -/
def digitValue (base : Nat) (c : Char) : Option Nat :=
  let v :=
    if '0'.toNat ≤ c.toNat ∧ c.toNat ≤ '9'.toNat then c.toNat - '0'.toNat
    else if 'A'.toNat ≤ c.toNat ∧ c.toNat ≤ 'F'.toNat then c.toNat - 'A'.toNat + 10
    else if 'a'.toNat ≤ c.toNat ∧ c.toNat ≤ 'f'.toNat then c.toNat - 'a'.toNat + 10
    else base
  if v < base then some v else none

/-- Read digits, the most significant first, onto what has been read so far. -/
def readDigits (base : Nat) : Nat → List Char → Option Nat
  | acc, [] => some acc
  | acc, c :: cs =>
    match digitValue base c with
    | some d => readDigits base (acc * base + d) cs
    | none => none

/-- A number of R10: `0x` hexadecimal, `0b` binary, else decimal; at least one digit. -/
def readNumber : List Char → Option Nat
  | '0' :: 'x' :: c :: cs => readDigits 16 0 (c :: cs)
  | '0' :: 'b' :: c :: cs => readDigits 2 0 (c :: cs)
  | c :: cs => readDigits 10 0 (c :: cs)
  | [] => none

/-- A word in operand place: a field letter of `DCTL`, or a number. -/
def readArg (cs : List Char) : Except AsmError Arg :=
  if cs = ['D'] then .ok (.field .D)
  else if cs = ['C'] then .ok (.field .C)
  else if cs = ['B'] then .ok (.field .B)
  else
    match readNumber cs with
    | some n => .ok (.num n)
    | none => .error (.badNumber cs)

/-- What the operand reader expects next. -/
inductive ArgState where
  /-- An operand, or the end of a line that has none yet. -/
  | start
  /-- An operand, after a comma. -/
  | operand
  /-- A comma or the end. -/
  | after
  /-- A number of the bracketed list, or its end while it is empty. -/
  | listStart (l : List Nat)
  /-- A comma or the closing bracket of the list. -/
  | listAfter (l : List Nat)
  deriving DecidableEq, Repr

/-- Operands separated by commas, a glyph in brackets (R88). `acc` holds those read, last first. -/
def readArgs : List Token → ArgState → List Arg → Except AsmError (List Arg)
  | [], .start, acc => .ok acc.reverse
  | [], .after, acc => .ok acc.reverse
  | .word cs :: ts, .start, acc =>
    match readArg cs with
    | .error e => .error e
    | .ok a => readArgs ts .after (a :: acc)
  | .word cs :: ts, .operand, acc =>
    match readArg cs with
    | .error e => .error e
    | .ok a => readArgs ts .after (a :: acc)
  | .lbrack :: ts, .start, acc => readArgs ts (.listStart []) acc
  | .lbrack :: ts, .operand, acc => readArgs ts (.listStart []) acc
  | .comma :: ts, .after, acc => readArgs ts .operand acc
  | .word cs :: ts, .listStart l, acc =>
    match readNumber cs with
    | some n => readArgs ts (.listAfter (n :: l)) acc
    | none => .error (.badNumber cs)
  | .comma :: .word cs :: ts, .listAfter l, acc =>
    match readNumber cs with
    | some n => readArgs ts (.listAfter (n :: l)) acc
    | none => .error (.badNumber cs)
  | .rbrack :: ts, .listStart l, acc => readArgs ts .after (.list l.reverse :: acc)
  | .rbrack :: ts, .listAfter l, acc => readArgs ts .after (.list l.reverse :: acc)
  | _, _, _ => .error .badOperands

/-- The mnemonics as R70 spells them. -/
def reqNames : List (List Char × ReqName) :=
  [(['C', 'F', 'G', '.', 'A', 'D', 'D', 'R'], .cfgAddr), (['C', 'F', 'G', '.', 'G', 'E', 'O', 'M'], .cfgGeom),
   (['C', 'F', 'G', '.', 'F', 'O', 'N', 'T'], .cfgFont), (['C', 'F', 'G', '.', 'P', 'I', 'N', 'S'], .cfgPins),
   (['C', 'F', 'G', '.', 'B', 'L'], .cfgBl), (['B', 'E', 'G', 'I', 'N'], .beginInit),
   (['E', 'X', 'P', 'W'], .expw), (['P', 'U', 'L', 'S', 'E'], .pulse), (['W', '4'], .w4)]
  ++
  [(['S', 'E', 'N', 'D'], .send), (['C', 'M', 'D'], .cmd), (['P', 'U', 'T', 'C'], .putc),
   (['C', 'L', 'E', 'A', 'R'], .clear), (['H', 'O', 'M', 'E'], .home),
   (['S', 'E', 'T', 'C', 'U', 'R', 'S', 'O', 'R'], .setCursor),
   (['C', 'R', 'E', 'A', 'T', 'E', 'C', 'H', 'A', 'R'], .createChar), (['S', 'E', 'T', 'B', 'L'], .setBl),
   (['D', 'C', 'T', 'L'], .dctl)]

/-- Look a mnemonic up. -/
def findReqName (cs : List Char) : List (List Char × ReqName) → Option ReqName
  | [] => none
  | (k, m) :: rest => if k = cs then some m else findReqName cs rest

/-- R89: a string is one `PUTC` per byte, the first byte first; the empty string expands to nothing. -/
def expandPuts : List Char → Except AsmError (List Term)
  | [] => .ok []
  | c :: cs =>
    if c.toNat < 256 then
      match expandPuts cs with
      | .error e => .error e
      | .ok ts => .ok (.request .putc [.num c.toNat] :: ts)
    else .error (.wideCharacter c)

/-- The requests one line of text stands for: none for a blank or comment line, several for `PUTS` (R88,
R89). -/
def assembleLine (line : List Char) : Except AsmError (List Term) :=
  match lexLine line false [] with
  | .error e => .error e
  | .ok [] => .ok []
  | .ok (.word ['P', 'U', 'T', 'S'] :: [.text s]) => expandPuts s
  | .ok (.word m :: ts) =>
    match (if m = ['D', 'A', 'T', 'A'] then some ReqName.putc else findReqName m reqNames) with
    | none => .error (.unknownMnemonic m)
    | some r =>
      match readArgs ts .start [] with
      | .error e => .error e
      | .ok args => .ok [.request r args]
  | .ok _ => .error .badOperands

/-- The requests of a program, line by line. -/
def assemble : List (List Char) → Except AsmError (List Term)
  | [] => .ok []
  | line :: lines =>
    match assembleLine line with
    | .error e => .error e
    | .ok ts =>
      match assemble lines with
      | .error e => .error e
      | .ok us => .ok (ts ++ us)

end Sys2Proof
end

