-- ==== Sys2Proof/Machine/Flags.lean ====
section
/-! DEFINITION. The block has no condition flags (10_state.md R35). Its flag bytes are the cached
controller-mode bytes of R30 to R32: how `BEGIN` and `DCTL` compute them, and the commands that carry them
(30_encoding.md R79, R80, R83). -/

namespace Sys2Proof.Machine

/-- The function-set flags of `BEGIN` step 2 (R145): N for more than one row; F for the tall font, but only
with exactly one row. -/
def fnFlags (rows : Byte) (charSize : Bool) : Byte :=
  (if 1 < rows then 0x08 else 0x00) ||| (if charSize ∧ rows = 1 then 0x04 else 0x00)

/-- The display-control flags `BEGIN` step 9 writes: display on, cursor off, blink off (R150). -/
def dispCtlInit : Byte := 0x04

/-- The entry-mode flags `BEGIN` step 11 writes: left to right, no auto-shift (R151). -/
def dispModeInit : Byte := 0x02

/-- The bit of `DISPCTL` that a field names (R181). -/
def dctlMask : DctlField → Byte
  | .D => 0x04
  | .C => 0x02
  | .B => 0x01

/-- `DISPCTL` after `DCTL field, val` (R181): only the named bit changes. -/
def dctlApply (ctl : Byte) (f : DctlField) (val : Bool) : Byte :=
  if val then ctl ||| dctlMask f else ctl &&& ~~~(dctlMask f)

/-- The function-set command (R83, R86). -/
def fnCommand (fn : Byte) : Byte := 0x20 ||| fn

/-- The display-control command (R80, R86). -/
def ctlCommand (ctl : Byte) : Byte := 0x08 ||| ctl

/-- The entry-mode-set command (R79, R86). -/
def modeCommand (m : Byte) : Byte := 0x04 ||| m

end Sys2Proof.Machine
end

