-- ==== Sys2Proof/Machine/Operands.lean ====
section
/-! DEFINITION. Every composite value the sequencer builds (30_encoding.md R86), each with the formula of the
rule that defines it. -/

namespace Sys2Proof.Machine

/-- `BLV` (R29): the backlight line's byte where the backlight is on, else 0. -/
def backlightByte (p : Params) (bl : Bool) : Byte := if bl then p.expBl else 0x00

/-- The nibble byte of the high nibble of `v`, tagged with mode byte `m` (R122). -/
def highNibbleByte (v m : Byte) : Byte := (v &&& 0xF0) ||| m

/-- The nibble byte of the low nibble of `v`, moved to bits 7:4, tagged with mode byte `m` (R122). -/
def lowNibbleByte (v m : Byte) : Byte := ((v <<< 4) &&& 0xF0) ||| m

/-- The row base table (R53); there is no entry above row 3. -/
def rowBase (r : Byte) : Option Nat :=
  if r = 0 then some 0x00
  else if r = 1 then some 0x40
  else if r = 2 then some 0x14
  else if r = 3 then some 0x54
  else none

/-- The row clamp of `SETCURSOR` (R172, C1): a row at or above `ROWS` becomes `ROWS - 1`. -/
def effectiveRow (rows row : Byte) : Byte := if rows ≤ row then rows - 1 else row

/-- The set-DDRAM-address command (R174, D11): the sum on naturals, reduced modulo 128. -/
def ddramCommand (base : Nat) (col : Byte) : Byte := 0x80 ||| BitVec.ofNat 8 ((base + col.toNat) % 128)

/-- The set-CGRAM-address command (R176): the slot is the low three bits of the location. -/
def cgramCommand (loc : Byte) : Byte := 0x40 ||| ((loc &&& 0x07) <<< 3)

end Sys2Proof.Machine
end

