-- ==== Sys2Proof/Machine/State.lean ====
section
/-! DEFINITION. The state of the sequencer (10_state.md), the events of its trace (00_scope.md R13, R15), the
external receivers its output acts on (10_state.md section 6), the host's moves, and why a step can stop. -/

namespace Sys2Proof.Machine

/-- The lifecycle register (R22). -/
inductive Mode where
  | config
  | ready
  | faulted
  deriving DecidableEq, Repr

/-- The fault codes of R200. -/
inductive FaultCode where
  | notReady
  | cfgLocked
  | cfgMissing
  | cfgInvalid
  | badMode
  | rowUnsupported
  | busFail
  deriving DecidableEq, Repr

/-- The code's number in the table of R200. -/
def FaultCode.number : FaultCode → Nat
  | .notReady => 1
  | .cfgLocked => 2
  | .cfgMissing => 3
  | .cfgInvalid => 4
  | .badMode => 5
  | .rowUnsupported => 6
  | .busFail => 7

/-- The events of the trace (R13, R15): one transport open, one transport write of one byte, one minimum
delay in microseconds. -/
inductive Event where
  | openBus (a : BusAddr) (p : PinSel)
  | xfer (a : BusAddr) (b : Byte)
  | wait (us : Nat)
  deriving DecidableEq, Repr

/-- What the host may do at the request port (R6, R230, R232, R244): issue a request, and, if it will, assert
reset once the operation has emitted `resetAfter` events; assert reset between operations; or wait between
operations, for at least `us` microseconds. -/
inductive HostMove where
  | request (t : Term) (resetAfter : Option Nat)
  | reset
  | pause (us : Nat)
  deriving DecidableEq, Repr

/-- Does the controller take the nibbles of the operations in their pairs (R243)? -/
inductive Pairing where
  /-- It does. -/
  | whole
  /-- It does not, until the next complete `BEGIN`. -/
  | broken
  /-- A `BEGIN` is under way, and every byte of it so far has reached the expander. -/
  | reviving
  deriving DecidableEq, Repr

/-- The external receivers: the expander's output latch (R36) and the HD44780 controller behind it (R37). The
sequencer never reads this. A memory lists the addresses whose content the model knows, strictly rising; of
an address that is not listed it knows no content (U4, U5). -/
structure Panel where
  /-- The one bus address the expander answers to (R36, R219); nothing writes it (DESIGN CHOICE, log entry 14). -/
  busAddr : BusAddr
  /-- The expander's output latch `OUT` (R36). -/
  out : Byte
  /-- Microseconds of delay since Enable last rose or fell at the expander: while Enable is high, how long it
  has been high, over however many writes (R58, R113, R121). -/
  held : Nat
  /-- The controller's registers (R37). -/
  lcd : LcdRegs
  /-- Display data RAM (R51). -/
  ddram : List Host.Cell
  /-- Character generator RAM (R52, R54). -/
  cgram : List Host.Cell
  /-- Microseconds of delay the controller still needs before it is sure to take a strobe (R241, R244). -/
  busy : Nat
  /-- Whether the nibble pairing is whole or broken (R243). -/
  pairing : Pairing
  deriving DecidableEq, Repr

/-- The state of the sequencer, of the receivers behind it and of the host's side of the request port. -/
structure State where
  /-- The parameters this machine is instantiated with (R7); no operation writes them (DESIGN CHOICE, log
  entry 2). -/
  params : Params
  /-- `MODE` (R22). -/
  mode : Mode
  /-- `FAULT` (R23). -/
  fault : Option FaultCode
  /-- `ADDR` (R24). -/
  addr : BusAddr
  /-- `ADDR_SET` (R24). -/
  addrSet : Bool
  /-- `COLS` (R25). -/
  cols : Byte
  /-- `ROWS` (R25). -/
  rows : Byte
  /-- `GEOM_SET` (R25). -/
  geomSet : Bool
  /-- `CHARSIZE` (R26): false is 5x8, true is 5x10. -/
  charSize : Bool
  /-- `PINS` (R27). -/
  pins : PinSel
  /-- `PINS_SET` (R27). -/
  pinsSet : Bool
  /-- `BL` (R28). -/
  bl : Bool
  /-- `DISPFN` (R30). -/
  dispFn : Byte
  /-- `DISPCTL` (R31). -/
  dispCtl : Byte
  /-- `DISPMODE` (R32). -/
  dispMode : Byte
  /-- The trace, the first event first (R15). -/
  trace : List Event
  /-- The host's moves that are still to come (DESIGN CHOICE, log entries 4 and 8). -/
  port : List HostMove
  /-- How many more events the host lets the current operation emit before its reset stops it; none where it
  lets the operation finish (R232; DESIGN CHOICE, log entries 4 and 9). -/
  resetIn : Option Nat
  /-- The transaction results the host has already decided, the first transaction's first (R16; DESIGN
  CHOICE, log entry 4). -/
  busScript : List XferResult
  /-- How many transactions there have been since power-on: the index of the next draw (DESIGN CHOICE, log
  entry 4). -/
  sent : Nat
  /-- The external receivers (R36, R37). -/
  panel : Panel
  deriving DecidableEq, Repr

/-- The receivers at power-on: unknown (R36, R37, U4, U20), so free values, with no memory content known, and
with the power-up settle of R148 step 3 still owed; no `BEGIN` has made the pairing whole (DESIGN CHOICE, log
entry 3). -/
def Panel.powerOn : Panel :=
  { busAddr := Config.expanderAddr, out := Config.outAtPowerOn, held := 0, lcd := Config.lcdAtPowerOn
    ddram := [], cgram := [], busy := 50000, pairing := .broken }

/-- The machine with parameters `p` at power-on: every register at its value of R38. A register that R38 says
"holds no value" is 0 here (DESIGN CHOICE, log entry 1); its `…Set` bit, or the mode, keeps it from being read (R33). -/
def State.powerOn (p : Params) : State :=
  { params := p, mode := .config, fault := none
    addr := 0, addrSet := false, cols := 0, rows := 0, geomSet := false, charSize := false
    pins := ⟨0⟩, pinsSet := false, bl := p.blDefault
    dispFn := 0, dispCtl := 0, dispMode := 0
    trace := [], port := [], resetIn := none, busScript := [], sent := 0, panel := Panel.powerOn }

/-- The machine right after power-on with the default parameters of R7 (R38, R230). -/
def State.reset : State := State.powerOn Params.default

/-- Why the machine stops. -/
inductive Fault where
  /-- Raised by every instruction in mode `FAULTED`: no request is accepted, the run is over (R206); the code
  is the one `FAULT` holds (DEDUCED, log entry 7). Safe: the spec gives the machine no further behaviour. -/
  | halted (code : Option FaultCode)
  deriving DecidableEq, Repr

/-- Why the model gives a request no meaning. -/
inductive Refusal where
  /-- An instruction that has no meaning yet, by its mnemonic: only exec's own arms say this. Safe. -/
  | notModelled (mnemonic : String)
  /-- Raised by every instruction where the parameters break R8: "a model instantiated with values breaking
  this constraint is refused". Safe. -/
  | badParameters
  /-- Raised by the step where the transcriber refuses the term at the request port (R71). Safe: such a term
  cannot be written. -/
  | transcriber (why : Reject)
  /-- Raised by the step where the request is not well-formed: a glyph that is not eight bytes (R177). Safe:
  no such term exists. -/
  | illFormed
  deriving DecidableEq, Repr

end Sys2Proof.Machine
end

