-- ==== Sys2Proof/Machine/Panel.lean ====
section
/-! DEFINITION. The external receivers (10_state.md R36, R37): what a transport write does to the expander's
latch, when the controller latches a nibble (41_enable_pulse.md R111), how it pairs nibbles, what breaks and what
repairs the pairing (R57, R243), how it reads an instruction byte (R76) and where data bytes go (R52, R54, R247). None of
this is read by the sequencer. Where the spec does not say what a receiver does, its registers become free values
and what is in its memories is no longer known. What it reads from the general knowledge the spec quotes is DEDUCED,
and where it goes beyond that PRESUMED (log entry 5). -/

namespace Sys2Proof.Machine

/-! ## The controller's memories -/

/-- The content of an address, where it is known. -/
def Memory.read : List Host.Cell → Nat → Option Byte
  | [], _ => none
  | (k, v) :: rest, a => if k = a then some v else Memory.read rest a

/-- Write a byte, keeping the addresses strictly rising. -/
def Memory.write : List Host.Cell → Nat → Byte → List Host.Cell
  | [], a, b => [(a, b)]
  | (k, v) :: rest, a, b =>
    if a < k then (a, b) :: (k, v) :: rest
    else if a = k then (a, b) :: rest
    else (k, v) :: Memory.write rest a b

/-- The canonical form: the addresses rise strictly from `low` on and stay below `size`. -/
def Memory.wfFrom (size : Nat) : Nat → List Host.Cell → Bool
  | _, [] => true
  | low, (k, _) :: rest => decide (low ≤ k) && decide (k < size) && Memory.wfFrom size (k + 1) rest

/-- The canonical form of a memory of `size` addresses. -/
def Memory.wf (size : Nat) (m : List Host.Cell) : Bool := Memory.wfFrom size 0 m

/-! ## Sizes and times -/

/-- DDRAM has a 7-bit address, CGRAM a 6-bit one (R51, R52). -/
def Space.size : Space → Nat
  | .ddram => 128
  | .cgram => 64

/-- After a strobe the controller needs more than 37 us (R110, R241): 38 whole ones, DEDUCED (log entry 5). -/
def settleUs : Nat := 38

/-- After clear-display or return-home the controller needs 2 ms before the next command (R244). From where that
is counted the spec does not say outright. DESIGN CHOICE (log entry 5): from the end of the 50 us that every
strobe of the engine is followed by (R110), so that `CLEAR`'s own wait of 2000, or 2000 of the host's after a
`CMD 0x01`, is just enough; to the next falling Enable, so that the wait inside the next pulse counts. -/
def longUs : Nat := 2050

/-- A DDRAM address where the controller is known to keep a byte: two rows of 40 in two-line mode, one of 80
in one-line mode. PRESUMED (log entry 5): the spec leaves what lies outside to the hardware (R174, R249). -/
def ddramHolds (twoLine : Bool) (a : Nat) : Bool :=
  if twoLine then decide (a < 0x28) || (decide (0x40 ≤ a) && decide (a < 0x68)) else decide (a < 0x50)

/-- Is `a` an address of the space where a byte is known to be kept? -/
def Panel.holds (pan : Panel) (a : Nat) : Bool :=
  match pan.lcd.space with
  | .ddram => ddramHolds pan.lcd.twoLine a
  | .cgram => decide (a < 64)

/-! ## What the controller does -/

/-- Nothing more is known of the controller (U5): its registers are free, its memories unknown, it may be in the
middle of its longest instruction, and only a `BEGIN`, be it the one under way, makes the pairing whole again
(R243). -/
def Panel.garble (k : Nat) (pan : Panel) : Panel :=
  { pan with
    lcd := Config.freeLcd k, ddram := [], cgram := [], busy := longUs
    pairing := if pan.pairing = .reviving then .reviving else .broken }

/-- As `garble`, but a whole transfer has been taken, so the nibble framing is as it was (R243). -/
def Panel.scramble (k : Nat) (pan : Panel) : Panel :=
  { pan with
    lcd := { Config.freeLcd k with wide := pan.lcd.wide, high := pan.lcd.high }
    ddram := [], cgram := [], busy := longUs }

/-- The address counter at a value the spec does not state. -/
def Panel.freeAddr (k : Nat) (pan : Panel) : Panel :=
  { pan with lcd := { pan.lcd with addr := (Config.freeLcd k).addr } }

/-- The address counter after a data write: the next address (R52, R32), where that is an address a byte is
kept at and the entry mode is increment; otherwise the spec states no value. -/
def Panel.advance (k : Nat) (pan : Panel) : Panel :=
  if pan.lcd.increment && pan.holds (pan.lcd.addr.toNat + 1) then
    { pan with lcd := { pan.lcd with addr := pan.lcd.addr + 1 } }
  else pan.freeAddr k

/-- A data byte (R85): kept at the address counter, in the memory it points into (R52, R247). Outside the
addresses that hold a byte the spec does not say where it goes, so that memory is no longer known. -/
def Panel.dataWrite (k : Nat) (d : Byte) (pan : Panel) : Panel :=
  let a := pan.lcd.addr.toNat
  match pan.lcd.space with
  | .ddram =>
    if pan.holds a then Panel.advance k { pan with ddram := Memory.write pan.ddram a d }
    else Panel.freeAddr k { pan with ddram := [] }
  | .cgram =>
    if pan.holds a then Panel.advance k { pan with cgram := Memory.write pan.cgram a d }
    else Panel.freeAddr k { pan with cgram := [] }

/-- An instruction byte (R77 to R84). Clear and home leave the counter in DDRAM (R247) at an address the spec
does not state and take 2 ms (R244, `longUs`); what clear leaves in DDRAM, and in the entry mode where that was not
increment already, it does not state either. The shift has no stated effect on the counter (R84). Free values, DESIGN CHOICE
(log entry 5). A function set changes DL, N and F (R83); what a change of N or F does to the contents of DDRAM
and to the address counter the spec does not say: both stay as they are, DESIGN CHOICE (log entry 5). -/
def Panel.obey (k : Nat) (i : HdInstr) (pan : Panel) : Panel :=
  match i with
  | .clear =>
    { pan with
      lcd := { pan.lcd with
        space := .ddram, addr := (Config.freeLcd k).addr
        increment := pan.lcd.increment || (Config.freeLcd k).increment }
      ddram := [], busy := longUs }
  | .home _ =>
    { pan with
      lcd := { pan.lcd with space := .ddram, addr := (Config.freeLcd k).addr }
      busy := longUs }
  | .entryMode i s => { pan with lcd := { pan.lcd with increment := i, autoShift := s } }
  | .dispCtl d c b => { pan with lcd := { pan.lcd with display := d, cursor := c, blink := b } }
  | .shift _ _ _ =>
    { pan with
      lcd := { pan.lcd with space := (Config.freeLcd k).space, addr := (Config.freeLcd k).addr } }
  | .funcSet l n f _ => { pan with lcd := { pan.lcd with wide := l, twoLine := n, tall := f } }
  | .setCgram a => { pan with lcd := { pan.lcd with space := .cgram, addr := a.setWidth 7 } }
  | .setDdram a => { pan with lcd := { pan.lcd with space := .ddram, addr := a } }

/-- A whole byte has arrived: data where RS is 1, an instruction where it is 0 (R72). The controller is then
ready for the next transfer's first nibble. The byte 0x00 is no instruction (R76): no effect is stated. -/
def Panel.execute (k : Nat) (rs : Bool) (b : Byte) (pan : Panel) : Panel :=
  let pan := { pan with lcd := { pan.lcd with high := none }, busy := settleUs }
  if rs then pan.dataWrite k b
  else
    match HdInstr.decode b with
    | some i => pan.obey k i
    | none => pan.scramble k

/-- A byte from its two nibbles. -/
def joinNibbles (h l : Nibble) : Byte := (h.setWidth 8 <<< 4) ||| l.setWidth 8

/-- One latched nibble (R111): in 8-bit width it is a whole byte whose low lines are not wired; in 4-bit width
nibbles come in pairs, high then low (R243). Two nibbles of a pair with different RS are outside the spec:
which of the two counts is a free value (DESIGN CHOICE, log entry 5). A nibble that comes alone is a high one
(R121). While the pairing is broken no strobe completes a pair: what the controller makes of a second nibble the
spec does not say, only that a complete `BEGIN` is the one repair (R243), so nothing is known of it from there on.
DESIGN CHOICE (log entry 5). -/
def Panel.strobe (k : Nat) (rs : Bool) (n : Nibble) (pan : Panel) : Panel :=
  if pan.lcd.wide then pan.execute k rs (joinNibbles n (Config.freeLowLines k))
  else
    match pan.lcd.high with
    | none => { pan with lcd := { pan.lcd with high := some (rs, n) }, busy := settleUs }
    | some (rs₀, h) =>
      if pan.pairing = .broken then pan.garble k
      else pan.execute k (if rs₀ = rs then rs else Config.freeRs k) (joinNibbles h n)

/-- Is a falling Enable, from the latch's byte to `b`, one the spec says latches a nibble? The controller is
done with what came before (R242), Enable has been high for at least 1 us since it rose, over however many writes
(R58, R110, R121), the other lines keep still while Enable falls (R111: "only EN changes"), and R/W is low (R73).
DEDUCED (log entry 5). The data, the register-select and the R/W line count as they stand when Enable falls; that
they may have been otherwise while it was high, R/W high for a part of the pulse too, is DESIGN CHOICE (log
entry 5). -/
def Panel.strobeClean (p : Params) (b : Byte) (pan : Panel) : Bool :=
  pan.busy == 0 && decide (1 ≤ pan.held)
    && ((pan.out ^^^ b) &&& ~~~(p.expEn ||| p.expBl)) == 0
    && !hasBit pan.out p.expRw

/-- The expander takes a byte on all eight outputs at once (R36, R59); the controller latches on the falling
Enable (R111, G6). The width of a pulse counts from where Enable rose; a write that leaves it as it was does not
start it anew (R58; DESIGN CHOICE, log entry 5). -/
def Panel.latch (p : Params) (k : Nat) (b : Byte) (pan : Panel) : Panel :=
  let fell := hasBit pan.out p.expEn && !hasBit b p.expEn
  let after :=
    if fell then
      if pan.strobeClean p b then pan.strobe k (hasBit pan.out p.expRs) ((pan.out >>> 4).setWidth 4)
      else pan.garble k
    else pan
  { after with out := b, held := if hasBit pan.out p.expEn = hasBit b p.expEn then pan.held else 0 }

/-- A byte of the sequencer's has not reached the expander: the receivers are as they were, but a `BEGIN` under way
no longer repairs the pairing (R243, R248; DESIGN CHOICE, log entry 5). -/
def Panel.missed (pan : Panel) : Panel :=
  { pan with pairing := if pan.pairing = .reviving then .broken else pan.pairing }

/-- One transport transaction to bus address `a` with result `r`: at the expander's own address the byte arrives,
or it is lost (R36, R211); a transaction to another address is none of the expander's, which presents what it
did "until the next transaction to that address" (R36; DESIGN CHOICE, log entry 14). -/
def Panel.receive (p : Params) (r : XferResult) (k : Nat) (a : BusAddr) (b : Byte) (pan : Panel) : Panel :=
  if a = pan.busAddr then
    match r with
    | .ok => pan.latch p k b
    | .fail true => pan.latch p k b
    | .fail false => pan.missed
  else pan.missed

/-- At least `t` microseconds pass (R240); the minimum is what is counted (DESIGN CHOICE, log entry 10). -/
def Panel.elapse (t : Nat) (pan : Panel) : Panel :=
  { pan with held := pan.held + t, busy := pan.busy - t }

/-! ## The pairing of nibbles (R243) -/

/-- `BEGIN` starts on the controller, whatever state that is in: its fixed sequence is "the documented recovery path
from any undefined power-on state" (R243), so its own strobes are taken as they come. -/
def Panel.revive (pan : Panel) : Panel := { pan with pairing := .reviving }

/-- `BEGIN` is complete, and the pairing whole if every one of its bytes has reached the expander (R243, R248). -/
def Panel.repair (pan : Panel) : Panel :=
  { pan with pairing := if pan.pairing = .reviving then .whole else pan.pairing }

/-- Between two operations: does the controller await the high nibble of a whole pair, in 4-bit width, with no strobe
begun? -/
def Panel.awaitsPair (p : Params) (pan : Panel) : Bool :=
  !pan.lcd.wide && pan.lcd.high.isNone && !hasBit pan.out p.expEn

/-- What an operation leaves when it ends or stops (R243): the pairing is broken where the controller does not await
the high nibble of a pair, be it that a test-access `W4`, `PULSE` or `EXPW` came between or that a reset or a lost
byte parted a pair; and a `BEGIN` that is not complete repairs nothing. Whole again it is only by `Panel.repair`. That
it is looked at between operations, and that also a controller in 8-bit width counts as broken, is DESIGN CHOICE
(log entry 5). -/
def Panel.rest (p : Params) (pan : Panel) : Panel :=
  { pan with pairing := if pan.pairing = .whole ∧ pan.awaitsPair p = true then .whole else .broken }

end Sys2Proof.Machine
end

