-- ==== Sys2Proof/Machine/Ops.lean ====
section
/-! DEFINITION. The operations every instruction is made of: raising a fault (60_exceptions.md R201), reset
(70_reset_and_hazards.md R230 to R233), the primitives Open, Xfer and Wait (00_scope.md R13), an operation's
fixed list of actions walked from first to last (10_state.md R21), the event lists of the engine's layers
(R100, R110, R120, R122, R126, R128), and the admission of a request by mode (30_encoding.md R71, R202). -/

namespace Sys2Proof.Machine

/-! ## Faults and reset -/

/-- R201: `FAULT <- code; MODE <- FAULTED`. Everything written before stays. -/
def State.raise (c : FaultCode) (s : State) : State := { s with fault := some c, mode := .faulted }

/-- The sequencer's reset input (R230): every register to its value of R38. A fault is never cleared (R206),
the trace stays (R231), the receivers are not reset (R233), and the host's side is the host's (DEDUCED, log
entry 7). -/
def State.hardReset (s : State) : State :=
  let z := State.powerOn s.params
  { z with
    mode := if s.mode = .faulted then .faulted else z.mode
    fault := if s.mode = .faulted then s.fault else z.fault
    trace := s.trace, port := s.port, busScript := s.busScript, sent := s.sent, panel := s.panel }

/-! ## An operation under way -/

/-- An operation goes on, or has stopped: at a fault (R201) or at a reset (R232). -/
inductive Flow where
  | go (s : State)
  | halt (s : State)
  deriving DecidableEq, Repr

/-- The state an operation has reached. -/
def Flow.state : Flow → State
  | .go s => s
  | .halt s => s

/-- Append an event to the trace (R13), one fewer before the host's reset. -/
def State.push (e : Event) (s : State) : State :=
  { s with trace := s.trace ++ [e], resetIn := s.resetIn.map (· - 1) }

/-- The operation's next event, then `k`; or the reset that comes before it (R232). -/
def emit (e : Event) (s : State) (k : State → Flow) : Flow :=
  if s.resetIn = some 0 then .halt s.hardReset else k (s.push e)

/-- The draw of transaction `n` (R16): the host's script, beyond it a free value (DESIGN CHOICE, log entry 4). -/
def State.drawAt (s : State) (n : Nat) : XferResult :=
  match s.busScript[n]? with
  | some r => r
  | none => Config.freeResult n

/-- Did the transaction fail, as the sequencer sees it? -/
def drawFailed : XferResult → Bool
  | .ok => false
  | .fail _ => true

/-- The receivers and the draw counter after a transaction of byte `b` with the result now drawn. -/
def State.transact (b : Byte) (s : State) : State :=
  { s with sent := s.sent + 1, panel := s.panel.receive s.params (s.drawAt s.sent) s.sent s.addr b }

/-- `Xfer(ADDR, b)` (R13): one event, one transaction; with `PROPAGATE_BUS_ERR` a failed one raises
`BUS_FAIL` after its event (R210). Where the host's reset is due at that very boundary, the fault is raised first and
the reset then keeps it (R206, R232; DESIGN CHOICE, log entry 9). -/
def xfer (b : Byte) (s : State) : Flow :=
  emit (.xfer s.addr b) s fun s =>
    if s.params.propagateBusErr && drawFailed (s.drawAt s.sent) then .halt ((s.transact b).raise .busFail)
    else .go (s.transact b)

/-- `BLV` (R29). -/
def State.blv (s : State) : Byte := backlightByte s.params s.bl

/-- `ExpWrite(b)` (R100): the only place the backlight bit is merged (R101). -/
def expWrite (b : Byte) (s : State) : Flow := xfer (b ||| s.blv) s

/-- `Wait(t)` (R13, R240). A reset that follows this event may end the wait early (R232), so then no delay is
credited to the receivers (DESIGN CHOICE, log entry 9). -/
def wait (t : Nat) (s : State) : Flow :=
  emit (.wait t) s fun s =>
    .go { s with panel := if s.resetIn = some 0 then s.panel else s.panel.elapse t }

/-- `Open(ADDR, p)` with the configured pins, or the default ones (R13, R147). -/
def openTransport (s : State) : Flow :=
  emit (.openBus s.addr (if s.pinsSet then s.pins else s.params.pinsDefault)) s .go

/-! ## Actions -/

/-- One step of an operation's fixed list (R21): an event, or a register write at its place in the list
(D33); or that `BEGIN` begins and ends to recover the controller's nibble pairing (R243), which is the controller's
affair and no register of the sequencer. -/
inductive Act where
  | openBus
  | write (b : Byte)
  | wait (t : Nat)
  | setFn (v : Byte)
  | setCtl (v : Byte)
  | setMode (v : Byte)
  | setBl (b : Bool)
  | revive
  | repair
  | ready
  deriving DecidableEq, Repr

/-- Perform one action. -/
def act (a : Act) (s : State) : Flow :=
  match a with
  | .openBus => openTransport s
  | .write b => expWrite b s
  | .wait t => wait t s
  | .setFn v => .go { s with dispFn := v }
  | .setCtl v => .go { s with dispCtl := v }
  | .setMode v => .go { s with dispMode := v }
  | .setBl b => .go { s with bl := b }
  | .revive => .go { s with panel := s.panel.revive }
  | .repair => .go { s with panel := s.panel.repair }
  | .ready => .go { s with mode := .ready }

/-- Walk the list from first to last (R21), to the end or to where the operation stops. -/
def runActs : List Act → State → Flow
  | [], s => .go s
  | a :: as, s =>
    match act a s with
    | .go t => runActs as t
    | .halt t => .halt t

/-- The receivers as an operation leaves them (R243). -/
def State.rest (s : State) : State := { s with panel := s.panel.rest s.params }

/-- The same where an operation has ended or stopped. -/
def Flow.rest : Flow → Flow
  | .go s => .go s.rest
  | .halt s => .halt s.rest

/-- An operation that is a list of actions. -/
def runOp (as : List Act) (s : State) : Flow := (runActs as s).rest

/-! ## The engine's layers as lists of actions -/

/-- `Pulse(b)` (R110). -/
def pulseActs (p : Params) (b : Byte) : List Act :=
  [.write (b ||| p.expEn), .wait 1, .write (b &&& ~~~p.expEn), .wait 50]

/-- `Write4(n)` (R120): present, then strobe. -/
def write4Acts (p : Params) (n : Byte) : List Act := .write n :: pulseActs p n

/-- `Send(v, m)` (R122): high nibble first. -/
def sendActs (p : Params) (v m : Byte) : List Act :=
  write4Acts p (highNibbleByte v m) ++ write4Acts p (lowNibbleByte v m)

/-- `Cmd(v)` (R126). -/
def cmdActs (p : Params) (v : Byte) : List Act := sendActs p v 0

/-- `Data(v)` (R128). -/
def dataActs (p : Params) (v : Byte) : List Act := sendActs p v p.expRs

/-- A command the controller needs 2 ms for, and the wait (R170, R171). -/
def longCmdActs (p : Params) (v : Byte) : List Act := cmdActs p v ++ [.wait 2000]

/-- `CREATECHAR`'s list (R177): the set-CGRAM-address command, then the rows as data. -/
def glyphActs (p : Params) (loc : Byte) (g : List Byte) : List Act :=
  cmdActs p (cgramCommand loc) ++ g.flatMap (dataActs p)

/-- `SetCursor(col, row)` (R172 to R175): a row without a base faults before any event. -/
def setCursor (col row : Byte) (s : State) : Flow :=
  match rowBase (effectiveRow s.rows row) with
  | none => .halt (s.raise .rowUnsupported)
  | some base => runOp (cmdActs s.params (ddramCommand base col)) s

/-! ## Admission and the end of an operation -/

/-- The end of an operation, or the point where it stopped: a reset that was due by now strikes (R232), and
one that was not is no longer this operation's (DESIGN CHOICE, log entry 9). A fault raised at the boundary the
reset is due at comes first, so that the reset keeps it: the spec does not say which of the two comes first
(DESIGN CHOICE, log entry 9). -/
def State.endOperation (s : State) : State :=
  if s.resetIn = some 0 then s.hardReset else { s with resetIn := none }

/-- The state an operation ends in, as the step's answer. -/
def Flow.finish (f : Flow) : Host.Outcome State Fault Refusal := .next f.state.endOperation

/-- What is the same for every request: parameters that break R8 are refused, and in mode `FAULTED` no request
is accepted (R206). -/
def accept (s : State) (op : State → Flow) : Host.Outcome State Fault Refusal :=
  if s.params.wf then
    match s.mode with
    | .faulted => .fault (.halted s.fault)
    | _ => (op s).finish
  else .refused .badParameters

/-- A READY-only request (R203): `NOT_READY` before any effect in mode `CONFIG`. -/
def inReady (s : State) (op : State → Flow) : Host.Outcome State Fault Refusal :=
  accept s fun s => if s.mode = .ready then op s else .halt (s.raise .notReady)

/-- A configuration setter (R204): `CFG_LOCKED` before any effect in mode `READY`. -/
def inConfig (s : State) (op : State → Flow) : Host.Outcome State Fault Refusal :=
  accept s fun s => if s.mode = .config then op s else .halt (s.raise .cfgLocked)

/-- A READY-only request that is a fixed list of actions. -/
def actsInReady (s : State) (as : List Act) : Host.Outcome State Fault Refusal := inReady s (runOp as)

end Sys2Proof.Machine
end

