-- ==== Sys2Proof/Machine/Carried.lean ====
section
/-! DEFINITION. The opcode table's HD44780 bytes and its expander byte, as the sequencer carries them: an
instruction byte as a command, RS = 0, in two nibbles (30_encoding.md R76, 42_nibble_engine.md R126); the two
single nibbles as one nibble transaction (R83, R87); a data byte with RS = 1 (R85); the expander byte in one
transport transaction, through the byte writer as every byte (R72, R100). They are admitted as the request
that carries them is (DESIGN CHOICE, log entry 6). -/

namespace Sys2Proof.Machine

/-- Clear display (R77), carried as `CMD 0x01`: no 2 ms wait (R126, R244). -/
def execHdClear (s : State) : Host.Outcome State Fault Refusal :=
  actsInReady s (cmdActs s.params (HdInstr.byte .clear))

/-- Return home (R78); the don't-care bit is sent as given. -/
def execHdHome (x : Bool) (s : State) : Host.Outcome State Fault Refusal :=
  actsInReady s (cmdActs s.params (HdInstr.byte (.home x)))

/-- Entry mode set (R79). -/
def execHdEntryMode (i sh : Bool) (s : State) : Host.Outcome State Fault Refusal :=
  actsInReady s (cmdActs s.params (HdInstr.byte (.entryMode i sh)))

/-- Display on/off control (R80). -/
def execHdDispCtl (d c b : Bool) (s : State) : Host.Outcome State Fault Refusal :=
  actsInReady s (cmdActs s.params (HdInstr.byte (.dispCtl d c b)))

/-- Cursor or display shift (R84): only a test-access command can carry it (R91). -/
def execHdShift (sc rl : Bool) (x : BitVec 2) (s : State) : Host.Outcome State Fault Refusal :=
  actsInReady s (cmdActs s.params (HdInstr.byte (.shift sc rl x)))

/-- Function set as a full command (R83). -/
def execHdFuncSet (l n f : Bool) (x : BitVec 2) (s : State) : Host.Outcome State Fault Refusal :=
  actsInReady s (cmdActs s.params (HdInstr.byte (.funcSet l n f x)))

/-- The 8-bit-mode nibble alone (R83, R149). -/
def execHdFuncSetNibble8 (s : State) : Host.Outcome State Fault Refusal :=
  actsInReady s (write4Acts s.params wideNibbleByte)

/-- The 4-bit-mode nibble alone (R83, R149). -/
def execHdFuncSetNibble4 (s : State) : Host.Outcome State Fault Refusal :=
  actsInReady s (write4Acts s.params narrowNibbleByte)

/-- Set CGRAM address (R81). -/
def execHdSetCgram (a : BitVec 6) (s : State) : Host.Outcome State Fault Refusal :=
  actsInReady s (cmdActs s.params (HdInstr.byte (.setCgram a)))

/-- Set DDRAM address (R82). -/
def execHdSetDdram (a : BitVec 7) (s : State) : Host.Outcome State Fault Refusal :=
  actsInReady s (cmdActs s.params (HdInstr.byte (.setDdram a)))

/-- Data write (R85). -/
def execHdData (d : Byte) (s : State) : Host.Outcome State Fault Refusal :=
  actsInReady s (dataActs s.params d)

/-- The expander byte of one transaction (R72). -/
def execXferByte (d : Nibble) (l e w r : Bool) (s : State) : Host.Outcome State Fault Refusal :=
  actsInReady s [.write (busByte s.params d l e w r)]

end Sys2Proof.Machine
end

