-- ==== Sys2Proof/Machine/Engine.lean ====
section
/-! DEFINITION. The engine's layers as requests (40_expander_writer.md, 41_enable_pulse.md,
42_nibble_engine.md): each admitted in mode `READY` only. -/

namespace Sys2Proof.Machine

/-- `EXPW b` (R100): no bit of `b` is checked or masked (R102). -/
def execExpw (b : Byte) (s : State) : Host.Outcome State Fault Refusal := actsInReady s [.write b]

/-- `PULSE b` (R110). -/
def execPulse (b : Byte) (s : State) : Host.Outcome State Fault Refusal := actsInReady s (pulseActs s.params b)

/-- `W4 n` (R120): nothing is masked (R121). -/
def execW4 (n : Byte) (s : State) : Host.Outcome State Fault Refusal := actsInReady s (write4Acts s.params n)

/-- `SEND v, m` (R122): a mode byte that is neither 0 nor `EXP_RS` is `BAD_MODE` before any event (R208). -/
def execSend (v m : Byte) (s : State) : Host.Outcome State Fault Refusal :=
  inReady s fun s =>
    if m = 0 ∨ m = s.params.expRs then runOp (sendActs s.params v m) s else .halt (s.raise .badMode)

/-- `CMD v` (R126): no delay beyond the nibbles' own. -/
def execCmd (v : Byte) (s : State) : Host.Outcome State Fault Refusal := actsInReady s (cmdActs s.params v)

/-- `PUTC v` (R128). -/
def execPutc (v : Byte) (s : State) : Host.Outcome State Fault Refusal := actsInReady s (dataActs s.params v)

end Sys2Proof.Machine
end

