-- ==== Sys2Proof/Machine/Init.lean ====
section
/-! DEFINITION. The initialization state machine (43_init_fsm.md R145 to R156): the twelve steps of `BEGIN`
as its fixed list of actions, step by step. -/

namespace Sys2Proof.Machine

/-- Step 1 (R147): open the transport. -/
def beginOpen : List Act := [.openBus]

/-- Steps 2 to 5 (R148): compute the function-set flags, settle, first bus contact, settle more. With the first
bus contact the recovery of the controller begins (R243). -/
def beginSettle (s : State) : List Act :=
  [.setFn (fnFlags s.rows s.charSize), .wait 50000, .revive, .write s.blv, .wait 1000000]

/-- Steps 6 and 7 (R149): three 8-bit-mode nibbles, then the 4-bit-mode nibble. -/
def beginForce (p : Params) : List Act :=
  write4Acts p wideNibbleByte ++ [.wait 4500] ++ write4Acts p wideNibbleByte ++ [.wait 4500]
    ++ write4Acts p wideNibbleByte ++ [.wait 150] ++ write4Acts p narrowNibbleByte

/-- Steps 8 and 9 (R150): function set, display control. -/
def beginFunction (s : State) : List Act :=
  cmdActs s.params (fnCommand (fnFlags s.rows s.charSize))
    ++ .setCtl dispCtlInit :: cmdActs s.params (ctlCommand dispCtlInit)

/-- Steps 10 to 12 (R151): clear, entry mode, cursor to column 0 of row 0, by set-cursor and not by
return-home. -/
def beginFinish (p : Params) : List Act :=
  longCmdActs p (HdInstr.byte .clear)
    ++ .setMode dispModeInit :: cmdActs p (modeCommand dispModeInit)
    ++ cmdActs p (ddramCommand 0x00 0)

/-- The whole list (R153): the twelve steps, with which the recovery is complete (R243), then `MODE <- READY`
(R152). -/
def beginActs (s : State) : List Act :=
  beginOpen ++ beginSettle s ++ beginForce s.params ++ beginFunction s ++ beginFinish s.params
    ++ [.repair, .ready]

/-- `BEGIN` (R146, R153): admitted in `CONFIG` and in `READY` (R155); without an address or a geometry it is
`CFG_MISSING` before any event (R205). -/
def execBegin (s : State) : Host.Outcome State Fault Refusal :=
  accept s fun s =>
    if s.addrSet && s.geomSet then runOp (beginActs s) s else .halt (s.raise .cfgMissing)

end Sys2Proof.Machine
end

