-- ==== Sys2Proof/Machine/Setters.lean ====
section
/-! DEFINITION. The configuration setters (43_init_fsm.md R140 to R144): admitted in mode `CONFIG` only, no
event, no bus, only the registers named. -/

namespace Sys2Proof.Machine

/-- `CFG.ADDR a` (R140). -/
def execCfgAddr (a : BusAddr) (s : State) : Host.Outcome State Fault Refusal :=
  inConfig s fun s => .go { s with addr := a, addrSet := true }

/-- `CFG.GEOM cols, rows` (R141): no rows is `CFG_INVALID` and writes nothing (R207). -/
def execCfgGeom (cols rows : Byte) (s : State) : Host.Outcome State Fault Refusal :=
  inConfig s fun s =>
    if rows = 0 then .halt (s.raise .cfgInvalid)
    else .go { s with cols := cols, rows := rows, geomSet := true }

/-- `CFG.FONT f` (R142). -/
def execCfgFont (f : Bool) (s : State) : Host.Outcome State Fault Refusal :=
  inConfig s fun s => .go { s with charSize := f }

/-- `CFG.PINS p` (R143). -/
def execCfgPins (p : PinSel) (s : State) : Host.Outcome State Fault Refusal :=
  inConfig s fun s => .go { s with pins := p, pinsSet := true }

/-- `CFG.BL b` (R144): the new value first shows on the bus at `BEGIN` step 4. -/
def execCfgBl (b : Bool) (s : State) : Host.Outcome State Fault Refusal :=
  inConfig s fun s => .go { s with bl := b }

end Sys2Proof.Machine
end

