-- ==== Sys2Proof/Machine/Surface.lean ====
section
/-! DEFINITION. The command surface (44_command_surface.md R170 to R181): each request admitted in mode
`READY` only. -/

namespace Sys2Proof.Machine

/-- `CLEAR` (R170). -/
def execClear (s : State) : Host.Outcome State Fault Refusal :=
  actsInReady s (longCmdActs s.params (HdInstr.byte .clear))

/-- `HOME` (R171). -/
def execHome (s : State) : Host.Outcome State Fault Refusal :=
  actsInReady s (longCmdActs s.params (HdInstr.byte (.home false)))

/-- `SETCURSOR col, row` (R172 to R175). -/
def execSetCursor (col row : Byte) (s : State) : Host.Outcome State Fault Refusal :=
  inReady s (setCursor col row)

/-- `CREATECHAR loc, g` (R176, R177). -/
def execCreateChar (loc : Byte) (g : List Byte) (s : State) : Host.Outcome State Fault Refusal :=
  actsInReady s (glyphActs s.params loc g)

/-- `SETBL on` (R178): the sticky bit first, then one write that carries it. -/
def execSetBl (on : Bool) (s : State) : Host.Outcome State Fault Refusal :=
  actsInReady s [.setBl on, .write 0x00]

/-- `DCTL field, val` (R181): the whole cached byte is re-issued. -/
def execDctl (field : DctlField) (val : Bool) (s : State) : Host.Outcome State Fault Refusal :=
  let ctl := dctlApply s.dispCtl field val
  actsInReady s (.setCtl ctl :: cmdActs s.params (ctlCommand ctl))

end Sys2Proof.Machine
end

