-- ==== Sys2Proof/Machine/Dispatch.lean ====
section
/-! DEFINITION. One arm per instruction: a direct call of its meaning. -/

namespace Sys2Proof.Machine

def exec (i : Instr) (s : State) : Host.Outcome State Fault Refusal :=
  match i with
  | .cfgAddr a => Sys2Proof.Machine.execCfgAddr a s
  | .cfgGeom cols rows => Sys2Proof.Machine.execCfgGeom cols rows s
  | .cfgFont f => Sys2Proof.Machine.execCfgFont f s
  | .cfgPins p => Sys2Proof.Machine.execCfgPins p s
  | .cfgBl b => Sys2Proof.Machine.execCfgBl b s
  | .beginInit => Sys2Proof.Machine.execBegin s
  | .expw b => Sys2Proof.Machine.execExpw b s
  | .pulse b => Sys2Proof.Machine.execPulse b s
  | .w4 n => Sys2Proof.Machine.execW4 n s
  | .send v m => Sys2Proof.Machine.execSend v m s
  | .cmd v => Sys2Proof.Machine.execCmd v s
  | .putc v => Sys2Proof.Machine.execPutc v s
  | .clear => Sys2Proof.Machine.execClear s
  | .home => Sys2Proof.Machine.execHome s
  | .setCursor col row => Sys2Proof.Machine.execSetCursor col row s
  | .createChar loc g => Sys2Proof.Machine.execCreateChar loc g s
  | .setBl on => Sys2Proof.Machine.execSetBl on s
  | .dctl field val => Sys2Proof.Machine.execDctl field val s
  | .hdClear => Sys2Proof.Machine.execHdClear s
  | .hdHome x => Sys2Proof.Machine.execHdHome x s
  | .hdEntryMode ids sh => Sys2Proof.Machine.execHdEntryMode ids sh s
  | .hdDispCtl d c b => Sys2Proof.Machine.execHdDispCtl d c b s
  | .hdShift sc rl x => Sys2Proof.Machine.execHdShift sc rl x s
  | .hdFuncSet l n f x => Sys2Proof.Machine.execHdFuncSet l n f x s
  | .hdFuncSetNibble8 => Sys2Proof.Machine.execHdFuncSetNibble8 s
  | .hdFuncSetNibble4 => Sys2Proof.Machine.execHdFuncSetNibble4 s
  | .hdSetCgram a => Sys2Proof.Machine.execHdSetCgram a s
  | .hdSetDdram a => Sys2Proof.Machine.execHdSetDdram a s
  | .hdData d => Sys2Proof.Machine.execHdData d s
  | .xferByte d l e w r => Sys2Proof.Machine.execXferByte d l e w r s

end Sys2Proof.Machine
end

