-- ==== Sys2Proof/Machine/Port.lean ====
section
/-! DEFINITION. The request port: the host's moves that have not been made yet (00_scope.md R6,
70_reset_and_hazards.md R230, R232, R244). -/

namespace Sys2Proof.Machine

/-- The host's next move and the moves after it. -/
def State.nextMove (s : State) : Option (HostMove × List HostMove) :=
  match s.port with
  | [] => none
  | m :: ms => some (m, ms)

/-- The state in which the operation of the request just taken from the port starts: the moves after it, and
when the host's reset will stop it. -/
def State.taken (s : State) (ms : List HostMove) (resetAfter : Option Nat) : State :=
  { s with port := ms, resetIn := resetAfter }

/-- The host has waited `us` microseconds between two operations (R244): no event, and of the receivers only the
delay they were owed is less. -/
def State.paused (s : State) (ms : List HostMove) (us : Nat) : State :=
  { s with port := ms, panel := s.panel.elapse us }

/-- A program of R88's text becomes requests on the port, after those already there. The program is loaded
from outside the machine; the host lets every operation of it finish (DESIGN CHOICE, log entry 8). -/
def State.load (lines : List (List Char)) (s : State) : Except AsmError State :=
  match assemble lines with
  | .error e => .error e
  | .ok ts => .ok { s with port := s.port ++ ts.map fun t => .request t none }

/-- Put the instruction with bits `w` at the head of the port, so that it is the next request. -/
def State.placeWord (s : State) (nbits w : Nat) : State :=
  { s with port := .request (.word nbits w) none :: s.port }

end Sys2Proof.Machine
end

