-- ==== Sys2Proof/Machine/Step.lean ====
section
/-! DEFINITION. One step: the host's next move at the request port. The sequencer fetches no instruction from
a memory (20_memory.md R63); it takes a request, runs it to completion (00_scope.md R6) and is ready for the
next. -/

namespace Sys2Proof.Machine

/-- The next move: none, and the request port stays idle (R230); a reset between operations (R230); a pause
of the host's (R244); or a request, which the transcriber turns into an instruction or refuses by name (R71). -/
def step (s : State) : Host.Outcome State Fault Refusal :=
  match s.nextMove with
  | none => .next s
  | some (.reset, ms) => .next (State.hardReset { s with port := ms })
  | some (.pause us, ms) => .next (s.paused ms us)
  | some (.request t cut, ms) =>
    match decode s.params t with
    | .error e => .refused (.transcriber e)
    | .ok i => if i.wf then exec i (s.taken ms cut) else .refused .illFormed

/-- `s` with the instruction that has bits `w` as its next request. -/
def State.withFetchWord (s : State) (nbits w : Nat) : State := s.placeWord nbits w

end Sys2Proof.Machine
end

