-- ==== Sys2Proof/Safety.lean ====
section
/-! DEFINITION. The terms in which claims are stated: what a list of events holds, the events a nibble and a
byte transaction consist of (30_encoding.md R75, 42_nibble_engine.md R122), the state that differs from another
only by events emitted, when nothing outside the sequencer cuts an operation short, and the invariant of the
machine. -/

namespace Sys2Proof.Machine

/-! ## Lists of events -/

/-- The bytes of the transport writes, in order. -/
def xferBytes : List Event → List Byte
  | [] => []
  | .xfer _ b :: es => b :: xferBytes es
  | .openBus _ _ :: es => xferBytes es
  | .wait _ :: es => xferBytes es

/-- The minimum delays, in order. -/
def waitTimes : List Event → List Nat
  | [] => []
  | .wait t :: es => t :: waitTimes es
  | .openBus _ _ :: es => waitTimes es
  | .xfer _ _ :: es => waitTimes es

/-- The addresses of the opens and writes, in order. -/
def busAddrs : List Event → List BusAddr
  | [] => []
  | .openBus a _ :: es => a :: busAddrs es
  | .xfer a _ :: es => a :: busAddrs es
  | .wait _ :: es => busAddrs es

/-- The events up to and with transport write number `k`, counted from 0 (all of them, where there are not so
many). -/
def throughXfer : Nat → List Event → List Event
  | _, [] => []
  | 0, .xfer a b :: _ => [.xfer a b]
  | k + 1, .xfer a b :: es => .xfer a b :: throughXfer k es
  | k, e :: es => e :: throughXfer k es

/-- One nibble transaction on nibble byte `n` with backlight byte `bl` (R75 and the waits of R110). -/
def nibbleEvents (a : BusAddr) (p : Params) (bl n : Byte) : List Event :=
  [.xfer a (n ||| bl), .xfer a (n ||| p.expEn ||| bl), .wait 1,
   .xfer a ((n &&& ~~~p.expEn) ||| bl), .wait 50]

/-- One byte transaction: the nibble transactions of the high, then of the low nibble of `v`, each tagged with
`m` (R122). -/
def byteEvents (a : BusAddr) (p : Params) (bl v m : Byte) : List Event :=
  nibbleEvents a p bl ((v &&& 0xF0) ||| m) ++ nibbleEvents a p bl (((v <<< 4) &&& 0xF0) ||| m)

/-- The byte OR'd into every expander byte (R29): `EXP_BL` while `BL` is 1, else 0. -/
def State.backlight (s : State) : Byte := if s.bl then s.params.expBl else 0x00

/-- The nibble transaction of `n` as `s` sends it. -/
def State.nibbleEvents (s : State) (n : Byte) : List Event :=
  Sys2Proof.Machine.nibbleEvents s.addr s.params s.backlight n

/-- The byte transaction of `v` as `s` sends it with mode byte `m`. -/
def State.byteEvents (s : State) (v m : Byte) : List Event :=
  Sys2Proof.Machine.byteEvents s.addr s.params s.backlight v m

/-- The event list of `BEGIN` (R153), steps 1 to 12. -/
def State.beginEvents (s : State) : List Event :=
  let fn : Byte := if s.rows = 1 then (if s.charSize then 0x04 else 0x00) else 0x08
  [.openBus s.addr (if s.pinsSet then s.pins else s.params.pinsDefault),
   .wait 50000, .xfer s.addr s.backlight, .wait 1000000]
  ++ s.nibbleEvents 0x30 ++ [.wait 4500] ++ s.nibbleEvents 0x30 ++ [.wait 4500]
  ++ s.nibbleEvents 0x30 ++ [.wait 150] ++ s.nibbleEvents 0x20
  ++ s.byteEvents (0x20 ||| fn) 0 ++ s.byteEvents 0x0C 0
  ++ s.byteEvents 0x01 0 ++ [.wait 2000] ++ s.byteEvents 0x06 0 ++ s.byteEvents 0x80 0

/-! ## States after events -/

/-- What the receivers make of a list of events, the transactions numbered from `k` with the results `draw`
gives them. -/
def Panel.sees (p : Params) (draw : Nat → XferResult) : Nat → List Event → Panel → Panel
  | _, [], pan => pan
  | k, .openBus _ _ :: es, pan => Panel.sees p draw k es pan
  | k, .wait t :: es, pan => Panel.sees p draw k es (pan.elapse t)
  | k, .xfer a b :: es, pan => Panel.sees p draw (k + 1) es (pan.receive p (draw k) k a b)

/-- `s` after it has emitted `es` and nothing else has happened: every register is as before. -/
def State.emitted (s : State) (es : List Event) : State :=
  { s with
    trace := s.trace ++ es
    sent := s.sent + (xferBytes es).length
    panel := Panel.sees s.params s.drawAt s.sent es s.panel }

/-- `s` after a fault `c` that was raised before any event (R201, R215): nothing but `FAULT` and `MODE`
changed. -/
def State.faultedBy (s : State) (c : FaultCode) : State := { s with fault := some c, mode := .faulted }

/-- `s` with the registers that instruction `i` has written by its transport write number `k`, counted from 0: `BL`
before `SETBL`'s only write (R178), `DISPCTL` before `DCTL`'s first (R181), and of `BEGIN` (R153) `DISPFN` before its
first, `DISPCTL` before its twentieth and `DISPMODE` before its thirty-second (D33). -/
def State.writtenBefore (i : Instr) (k : Nat) (s : State) : State :=
  match i with
  | .setBl on => { s with bl := on }
  | .dctl f v => { s with dispCtl := dctlApply s.dispCtl f v }
  | .beginInit =>
    { s with
      dispFn := fnFlags s.rows s.charSize
      dispCtl := if 19 ≤ k then 0x04 else s.dispCtl
      dispMode := if 31 ≤ k then 0x02 else s.dispMode }
  | _ => s

/-- `s` after an operation that has emitted `es` and then raised `BUS_FAIL` (R201, R210); `pan` is what the
receivers have become. -/
def State.busFailed (s : State) (es : List Event) (pan : Panel) : State :=
  { s with
    trace := s.trace ++ es, sent := s.sent + (xferBytes es).length, panel := pan
    fault := some .busFail, mode := .faulted }

/-- `s` after an operation that has emitted `es` and was then reset (R230 to R233); a fault `f` raised before the
reset stays (R206). `pan` is what the receivers have become. -/
def State.resetAfter (s : State) (es : List Event) (f : Option FaultCode) (pan : Panel) : State :=
  { State.powerOn s.params with
    mode := if f = none then .config else .faulted, fault := f
    trace := s.trace ++ es, port := s.port, busScript := s.busScript
    sent := s.sent + (xferBytes es).length, panel := pan }

/-! ## Hypotheses on the host and the bus -/

/-- The operation is let finish: no reset is due in it (R232), and of its next `n` transactions none stops it
(R210). -/
def State.Undisturbed (s : State) (n : Nat) : Prop :=
  s.resetIn = none ∧
    (s.params.propagateBusErr = true → ∀ k, k < n → drawFailed (s.drawAt (s.sent + k)) = false)

/-- Of the operation's transactions number `k`, counted from 0, is the first that fails, and a failure counts
(R210); no reset is due. -/
def State.FailsAt (s : State) (k : Nat) : Prop :=
  s.resetIn = none ∧ s.params.propagateBusErr = true ∧
    (∀ j, j < k → drawFailed (s.drawAt (s.sent + j)) = false) ∧ drawFailed (s.drawAt (s.sent + k)) = true

/-- The same machine without `PROPAGATE_BUS_ERR`: no failed transaction stops an operation. -/
def State.tolerant (s : State) : State := { s with params := { s.params with propagateBusErr := false } }

/-- The parameters are legal (R8) and the mode is `READY` (R22). -/
def State.Ready (s : State) : Prop := s.params.wf = true ∧ s.mode = .ready

/-- The parameters are legal (R8) and the mode is `CONFIG` (R22). -/
def State.InConfig (s : State) : Prop := s.params.wf = true ∧ s.mode = .config

/-- `BEGIN` may run: legal parameters, mode `CONFIG` or `READY`, address and geometry set (R146), and the
geometry has a row (R25). -/
def State.MayBegin (s : State) : Prop :=
  s.params.wf = true ∧ s.mode ≠ .faulted ∧ s.addrSet = true ∧ s.geomSet = true ∧ s.rows ≠ 0

/-- The bytes of the next `n` transactions reach the expander: `ADDR` is its address (R36), and none of them is
lost (R211). -/
def State.Arrives (s : State) (n : Nat) : Prop :=
  s.addr = s.panel.busAddr ∧ ∀ k, k < n → s.drawAt (s.sent + k) ≠ .fail false

/-- The receivers are between two operations, as a completed `BEGIN` leaves them (R243): the controller is in
4-bit width, awaits a high nibble, owes no delay, Enable is low, and the pairing is whole. -/
def State.Linked (s : State) : Prop :=
  s.panel.lcd.wide = false ∧ s.panel.lcd.high = none ∧ s.panel.busy = 0 ∧
    hasBit s.panel.out s.params.expEn = false ∧ s.panel.pairing = .whole

/-! ## Kinds of instruction -/

/-- The configuration setters (R70, mode column CONFIG). -/
def isSetter : Instr → Bool
  | .cfgAddr _ => true
  | .cfgGeom _ _ => true
  | .cfgFont _ => true
  | .cfgPins _ => true
  | .cfgBl _ => true
  | _ => false

/-- The twelve READY-only requests (R203). -/
def isReadyRequest : Instr → Bool
  | .expw _ => true
  | .pulse _ => true
  | .w4 _ => true
  | .send _ _ => true
  | .cmd _ => true
  | .putc _ => true
  | .clear => true
  | .home => true
  | .setCursor _ _ => true
  | .createChar _ _ => true
  | .setBl _ => true
  | .dctl _ _ => true
  | _ => false

/-- The rows of the opcode table that are bytes the sequencer carries (log entry 6). -/
def isCarried : Instr → Bool
  | .hdClear => true
  | .hdHome _ => true
  | .hdEntryMode _ _ => true
  | .hdDispCtl _ _ _ => true
  | .hdShift _ _ _ => true
  | .hdFuncSet _ _ _ _ => true
  | .hdFuncSetNibble8 => true
  | .hdFuncSetNibble4 => true
  | .hdSetCgram _ => true
  | .hdSetDdram _ => true
  | .hdData _ => true
  | .xferByte _ _ _ _ _ => true
  | _ => false

/-- Test access that can put the line with mask `m` on the bus on its own account: `EXPW`, `PULSE` and `W4`
with that line in their argument (R73, R101), and the expander byte's own row. -/
def drivesLine (p : Params) (m : Byte) : Instr → Bool
  | .expw b => hasBit b m
  | .pulse b => hasBit b m
  | .w4 n => hasBit n m
  | .xferByte d l e w r => hasBit (busByte p d l e w r) m
  | _ => false

/-! ## Outcomes and views -/

/-- Apply `f` to the next state, where there is one. -/
def mapNext (f : State → State) (o : Host.Outcome State Fault Refusal) : Host.Outcome State Fault Refusal :=
  match o with
  | .next s => .next (f s)
  | .fault e => .fault e
  | .refused r => .refused r

/-- Forget the receivers. -/
def State.withoutPanel (s : State) : State := { s with panel := Panel.powerOn }

/-- Forget the receivers and the results the host has decided. -/
def State.withoutBus (s : State) : State := { s with panel := Panel.powerOn, busScript := [] }

/-- Forget `COLS`. -/
def State.withoutCols (s : State) : State := { s with cols := 0 }

/-- Forget what R33 says holds no value: a configuration register that has not been set, and the cached mode
bytes outside mode `READY`. -/
def State.withoutUnset (s : State) : State :=
  { s with
    addr := if s.addrSet then s.addr else 0
    cols := if s.geomSet then s.cols else 0
    rows := if s.geomSet then s.rows else 0
    pins := if s.pinsSet then s.pins else ⟨0⟩
    dispFn := if s.mode = .ready then s.dispFn else 0
    dispCtl := if s.mode = .ready then s.dispCtl else 0
    dispMode := if s.mode = .ready then s.dispMode else 0 }

/-! ## The invariant -/

/-- What holds of the machine in every state that a run from power-on with legal parameters reaches. -/
structure Inv (s : State) : Prop where
  /-- The parameters are legal (R8). -/
  params : s.params.wf = true
  /-- `MODE` is `FAULTED` exactly while `FAULT` holds a code (R22, R23). -/
  faulted : s.mode = .faulted ↔ s.fault ≠ none
  /-- A geometry that is set has a row (R25). -/
  geometry : s.geomSet = true → s.rows ≠ 0
  /-- `READY` needs an address and a geometry (R146). -/
  configured : s.mode = .ready → s.addrSet = true ∧ s.geomSet = true
  /-- Bits 7:4 and 1:0 of `DISPFN` are 0 (R30). -/
  fnBits : s.dispFn &&& 0xF3 = 0
  /-- Bits 7:3 of `DISPCTL` are 0 (R31). -/
  ctlBits : s.dispCtl &&& 0xF8 = 0
  /-- Bits 7:2 of `DISPMODE` are 0 (R32). -/
  modeBits : s.dispMode &&& 0xFC = 0
  /-- In `READY` the cached bytes are those `BEGIN` computed from the locked configuration (R39, R145,
  R151). -/
  cached : s.mode = .ready → s.dispFn = fnFlags s.rows s.charSize ∧ s.dispMode = 0x02
  /-- DDRAM is in canonical form. -/
  ddram : Memory.wf 128 s.panel.ddram = true
  /-- CGRAM is in canonical form. -/
  cgram : Memory.wf 64 s.panel.cgram = true
  /-- The controller never owes more than the power-up settle (R148). -/
  busy : s.panel.busy ≤ 50000
  /-- The receivers are as an operation leaves them: no `BEGIN` is under way, and where the pairing is whole the
  controller awaits the high nibble of a pair, in 4-bit width, Enable low (R243). -/
  rested : s.panel.rest s.params = s.panel

end Sys2Proof.Machine
end

