-- ==== Sys2Proof/Certificates/Slice0/Obligations.lean ====
section
/-! DEFINITION. The statements for the provers, from the numbered rules of spec/. `Undisturbed n` says that the
host lets the operation finish and that no transaction of it stops it; `s.emitted es` is `s` with the events
`es` appended and every register as before; `s.rest` is `s` with the receivers as an operation leaves them: the
nibble pairing (R243, log entry 5) may then be broken, nothing else changes. -/

open Sys2Proof Sys2Proof.Machine

/-! ## Encoding, the request port, the step -/

/-- R70 to R72 and R76 to R85: the decoder reads back every instruction the encoder writes, whichever legal
line assignment the parameters give, every operand at every value. -/
def Obligations.DecodeInvertsEncode : Prop :=
  ∀ (p : Params) (i : Instr), p.wf = true → decode p (encode p i) = .ok i

/-- R76 to R84: the leading one of an instruction byte selects the instruction, the bits below it are its
fields; the byte without a leading one is none; and the byte of what was decoded is the byte. -/
def Obligations.InstructionBytesByLeadingOne : Prop :=
  ∀ b : Byte,
    (HdInstr.decode b = none ↔ b = 0) ∧
    (∀ h, HdInstr.decode b = some h → h.byte = b) ∧
    (0x80 ≤ b → HdInstr.decode b = some (.setDdram (b.setWidth 7))) ∧
    (0x40 ≤ b ∧ b < 0x80 → HdInstr.decode b = some (.setCgram (b.setWidth 6))) ∧
    (0x20 ≤ b ∧ b < 0x40 → ∃ l n f x, HdInstr.decode b = some (.funcSet l n f x)) ∧
    (0x10 ≤ b ∧ b < 0x20 → ∃ s r x, HdInstr.decode b = some (.shift s r x)) ∧
    (0x08 ≤ b ∧ b < 0x10 → ∃ d c f, HdInstr.decode b = some (.dispCtl d c f)) ∧
    (0x04 ≤ b ∧ b < 0x08 → ∃ i s, HdInstr.decode b = some (.entryMode i s)) ∧
    (0x02 ≤ b ∧ b < 0x04 → ∃ x, HdInstr.decode b = some (.home x)) ∧
    (b = 0x01 → HdInstr.decode b = some .clear)

/-- R71: an operand outside its width is refused by name, the value in the name; every operand of every request.
Of several operands outside their widths the first is the one named: the model's choice, log entry 13. -/
def Obligations.TranscriberRefusesByName : Prop :=
  ∀ p : Params,
    (∀ a, 128 ≤ a → decode p (.request .cfgAddr [.num a]) = .error (.operandWidth .cfgAddr a)) ∧
    (∀ n, 2 ≤ n → ∀ r ∈ [ReqName.cfgFont, .cfgBl, .setBl],
      decode p (.request r [.num n]) = .error (.operandWidth r n)) ∧
    (∀ n f, 2 ≤ n → decode p (.request .dctl [.field f, .num n]) = .error (.operandWidth .dctl n)) ∧
    (∀ n, 256 ≤ n → ∀ r ∈ [ReqName.expw, .pulse, .w4, .cmd, .putc],
      decode p (.request r [.num n]) = .error (.operandWidth r n)) ∧
    (∀ a b, 256 ≤ a → ∀ r ∈ [ReqName.cfgGeom, .send, .setCursor],
      decode p (.request r [.num a, .num b]) = .error (.operandWidth r a)) ∧
    (∀ a b, a < 256 → 256 ≤ b → ∀ r ∈ [ReqName.cfgGeom, .send, .setCursor],
      decode p (.request r [.num a, .num b]) = .error (.operandWidth r b)) ∧
    (∀ l g, 256 ≤ l →
      decode p (.request .createChar [.num l, .list g]) = .error (.operandWidth .createChar l)) ∧
    (∀ l n before rest, l < 256 → (∀ m ∈ before, m < 256) → 256 ≤ n →
      decode p (.request .createChar [.num l, .list (before ++ n :: rest)])
        = .error (.operandWidth .createChar n))

/-- Instruction words written out bit by bit from R77 to R83, and requests from the examples of R88. -/
def Obligations.WrittenWordsDecode : Prop :=
  decodeTableWord 8 0b00000001 = some .hdClear ∧
  decodeTableWord 8 0b00000110 = some (.hdEntryMode true false) ∧
  decodeTableWord 8 0b00001100 = some (.hdDispCtl true false false) ∧
  decodeTableWord 8 0b00101000 = some (.hdFuncSet false true false 0) ∧
  decodeTableWord 8 0b01001000 = some (.hdSetCgram 8) ∧
  decodeTableWord 8 0b11000011 = some (.hdSetDdram 0x43) ∧
  decode Params.default (.request .cfgAddr [.num 0x27]) = .ok (.cfgAddr 0x27) ∧
  decode Params.default (.request .send [.num 0x41, .num 0x01]) = .ok (.send 0x41 0x01) ∧
  decode Params.default (.request .dctl [.field .C, .num 1]) = .ok (.dctl .C true)

/-- R6, R70, R71: where the term at the head of the port decodes to a well-formed instruction, the step is
that instruction's `exec` in the state with the move taken; what the step adds is the host's side only: the
moves left, and when the host's reset is due in this operation. -/
def Obligations.StepRunsTheRequestedInstruction : Prop :=
  ∀ (s : State) (t : Term) (cut : Option Nat) (ms : List HostMove) (i : Instr),
    s.port = .request t cut :: ms → decode s.params t = .ok i → i.wf = true →
    step s = exec i { s with port := ms, resetIn := cut }

/-- R71, R230, R244: the other steps. An empty port is idle; a pause of the host's emits nothing and changes no
register, only the delay the receivers are owed; a term the transcriber refuses, or a glyph that is not eight
bytes, is refused by name. -/
def Obligations.StepWithoutAnInstruction : Prop :=
  ∀ s : State,
    (s.port = [] → step s = .next s) ∧
    (∀ us ms, s.port = .pause us :: ms → step s = .next { s with port := ms, panel := s.panel.elapse us }) ∧
    (∀ t cut ms e, s.port = .request t cut :: ms → decode s.params t = .error e →
      step s = .refused (.transcriber e)) ∧
    (∀ t cut ms i, s.port = .request t cut :: ms → decode s.params t = .ok i → i.wf = false →
      step s = .refused .illFormed)

/-! ## Parameters, modes and faults -/

/-- R8: the parameters are legal exactly where each line is one of the four low bits, no two share one, and
together they cover bits 3:0; with any others the model is refused. -/
def Obligations.IllegalParametersRefused : Prop :=
  (∀ p : Params, p.wf = true ↔
    (∀ l ∈ [p.expRs, p.expRw, p.expEn, p.expBl], l = 0x01 ∨ l = 0x02 ∨ l = 0x04 ∨ l = 0x08) ∧
    [p.expRs, p.expRw, p.expEn, p.expBl].Nodup ∧
    p.expRs ||| p.expRw ||| p.expEn ||| p.expBl = 0x0F) ∧
  ∀ (i : Instr) (s : State), s.params.wf = false → exec i s = .refused .badParameters

/-- R203: each of the twelve READY-only requests, in mode `CONFIG`, raises `NOT_READY` and does nothing
else. -/
def Obligations.NotReadyBeforeBegin : Prop :=
  ∀ (i : Instr) (s : State), isReadyRequest i = true → s.InConfig → s.resetIn = none →
    exec i s = .next (s.faultedBy .notReady)

/-- R204: each configuration setter, in mode `READY`, raises `CFG_LOCKED` and does nothing else. -/
def Obligations.SettersLockedWhenReady : Prop :=
  ∀ (i : Instr) (s : State), isSetter i = true → s.Ready → s.resetIn = none →
    exec i s = .next (s.faultedBy .cfgLocked)

/-- The model's choice of log entry 6: the carried bytes of the opcode table need mode `READY`, as the
requests that carry them do. -/
def Obligations.CarriedBytesNeedReady : Prop :=
  ∀ (i : Instr) (s : State), isCarried i = true → s.InConfig → s.resetIn = none →
    exec i s = .next (s.faultedBy .notReady)

/-- R206: in mode `FAULTED` no request is accepted, and no step of any kind clears `FAULT` or leaves the
mode. -/
def Obligations.FaultedModeIsTerminal : Prop :=
  ∀ s : State, s.mode = .faulted →
    (∀ i, s.params.wf = true → exec i s = .fault (.halted s.fault)) ∧
    (∀ t, step s = .next t → t.mode = .faulted ∧ t.fault = s.fault)

/-- R201, R215: a fault other than `BUS_FAIL` changes `MODE` and `FAULT` and nothing else; `BUS_FAIL` leaves the
trace ending with the transport write whose draw failed, the first that did, and the registers as the operation
had written them by then. -/
def Obligations.FaultsArePrecise : Prop :=
  ∀ (i : Instr) (s t : State) (c : FaultCode),
    s.resetIn = none → s.fault = none → exec i s = .next t → t.fault = some c →
    (c ≠ .busFail → t = s.faultedBy c) ∧
    (c = .busFail → ∃ (es : List Event) (b : Byte) (pan : Panel),
      t = (s.writtenBefore i (xferBytes es).length).busFailed (es ++ [.xfer s.addr b]) pan ∧
      s.FailsAt (xferBytes es).length)

/-- R210: with `PROPAGATE_BUS_ERR` a transport write whose drawn result is fail raises `BUS_FAIL` with its
event in the trace; without it no result has an effect on the sequencer and `BUS_FAIL` is never raised. -/
def Obligations.BusFailAfterItsEvent : Prop :=
  (∀ (b : Byte) (s : State), s.resetIn = none → s.params.propagateBusErr = true →
    drawFailed (s.drawAt s.sent) = true →
    ∃ t pan, xfer b s = .halt t ∧
      t = { s with
        trace := s.trace ++ [.xfer s.addr b], sent := s.sent + 1, panel := pan
        fault := some .busFail, mode := .faulted }) ∧
  (∀ (b : Byte) (s : State), s.resetIn = none → s.params.propagateBusErr = false →
    xfer b s = .go (s.emitted [.xfer s.addr b])) ∧
  (∀ (i : Instr) (s t : State), s.params.propagateBusErr = false → s.fault ≠ some .busFail →
    exec i s = .next t → t.fault ≠ some .busFail)

/-- R178, R181, R201, R210, R215: where the first transport write to fail is number `k` of an operation, the
operation stops there: of the events it emits without `PROPAGATE_BUS_ERR` those up to and with that write are in the
trace, and the register writes it made before stay, the later ones do not happen. The first clause is about every
instruction; the others write it out for a byte transaction, for `SETBL`, `DCTL` and `BEGIN`. -/
def Obligations.BusFailStopsAnOperation : Prop :=
  (∀ (i : Instr) (k : Nat) (s t : State) (es : List Event), s.FailsAt k →
    exec i s.tolerant = .next t → t.trace = s.trace ++ es → k < (xferBytes es).length →
    ∃ pan, exec i s = .next ((s.writtenBefore i k).busFailed (throughXfer k es) pan)) ∧
  (∀ (v m : Byte) (k : Nat) (s : State), s.Ready → s.FailsAt k → m = 0 ∨ m = s.params.expRs → k < 6 →
    ∃ pan, exec (.send v m) s = .next
      { s with
        trace := s.trace ++ throughXfer k (s.byteEvents v m)
        sent := s.sent + k + 1, panel := pan, fault := some .busFail, mode := .faulted }) ∧
  (∀ (on : Bool) (s : State), s.Ready → s.FailsAt 0 →
    ∃ pan, exec (.setBl on) s = .next
      { s with
        trace := s.trace ++ [.xfer s.addr (if on then s.params.expBl else 0x00)]
        sent := s.sent + 1, panel := pan, bl := on, fault := some .busFail, mode := .faulted }) ∧
  (∀ (f : DctlField) (val : Bool) (k : Nat) (s : State), s.Ready → s.FailsAt k → k < 6 →
    ∃ pan, exec (.dctl f val) s = .next
      { s with
        trace := s.trace ++ throughXfer k (s.byteEvents (0x08 ||| dctlApply s.dispCtl f val) 0)
        sent := s.sent + k + 1, panel := pan, dispCtl := dctlApply s.dispCtl f val
        fault := some .busFail, mode := .faulted }) ∧
  ∀ (k : Nat) (s : State), s.MayBegin → s.FailsAt k → k < 43 →
    ∃ pan, exec .beginInit s = .next
      { s with
        trace := s.trace ++ throughXfer k s.beginEvents, sent := s.sent + k + 1, panel := pan
        dispFn := if s.rows = 1 then (if s.charSize then 0x04 else 0x00) else 0x08
        dispCtl := if 19 ≤ k then 0x04 else s.dispCtl
        dispMode := if 31 ≤ k then 0x02 else s.dispMode
        fault := some .busFail, mode := .faulted }

/-- R16: without `PROPAGATE_BUS_ERR` the results the host draws change nothing of the sequencer's state or
trace (the receivers, which are not the sequencer's, set aside). -/
def Obligations.DrawsInvisibleWithoutPropagation : Prop :=
  ∀ (i : Instr) (s : State) (script : List XferResult), s.params.propagateBusErr = false →
    mapNext State.withoutBus (exec i { s with busScript := script })
      = mapNext State.withoutBus (exec i s)

/-! ## Configuration and BEGIN -/

/-- R140: `CFG.ADDR a` writes `ADDR` and `ADDR_SET` and nothing else, for every 7-bit value and however often
it is issued. -/
def Obligations.CfgAddrWritesAddress : Prop :=
  ∀ (a : BusAddr) (s : State), s.InConfig → s.resetIn = none →
    exec (.cfgAddr a) s = .next { s with addr := a, addrSet := true }

/-- R141, R207: `CFG.GEOM` writes `COLS`, `ROWS` and `GEOM_SET`, whatever the columns and however many the
rows; no rows is `CFG_INVALID` and writes nothing. -/
def Obligations.CfgGeomWritesOrFaults : Prop :=
  ∀ (c r : Byte) (s : State), s.InConfig → s.resetIn = none →
    exec (.cfgGeom c r) s =
      if r = 0 then .next (s.faultedBy .cfgInvalid)
      else .next { s with cols := c, rows := r, geomSet := true }

/-- R142, R143, R144: the other setters write their register, emit nothing and change nothing else. -/
def Obligations.CfgFontPinsBacklightWrite : Prop :=
  ∀ (f b : Bool) (p : PinSel) (s : State), s.InConfig → s.resetIn = none →
    exec (.cfgFont f) s = .next { s with charSize := f } ∧
    exec (.cfgPins p) s = .next { s with pins := p, pinsSet := true } ∧
    exec (.cfgBl b) s = .next { s with bl := b }

/-- R205: `BEGIN` without an address or without a geometry raises `CFG_MISSING` before any event, in `CONFIG`
and in `READY`; with both it does not, whatever `PINS`, `CHARSIZE` and `BL` are. -/
def Obligations.BeginNeedsAddressAndGeometry : Prop :=
  ∀ s : State, s.params.wf = true → s.mode ≠ .faulted → s.resetIn = none →
    (s.addrSet = false ∨ s.geomSet = false → exec .beginInit s = .next (s.faultedBy .cfgMissing)) ∧
    (∀ t, s.addrSet = true → s.geomSet = true → s.fault = none → exec .beginInit s = .next t →
      t.fault ≠ some .cfgMissing)

/-- R146 to R153 and R155: `BEGIN`, first or repeated, emits the events of its twelve steps in their order,
leaves the cached bytes as steps 2, 9 and 11 compute them, and ends in `READY`; nothing else changes. Of the
receivers' nibble pairing it is the one operation that can make it whole (R243; how, is log entry 5). -/
def Obligations.BeginRunsTheTwelveSteps : Prop :=
  ∀ s : State, s.MayBegin → s.Undisturbed 43 →
    let t := State.emitted { s with panel := s.panel.revive } s.beginEvents
    exec .beginInit s = .next (State.rest
      { t with
        panel := t.panel.repair
        dispFn := if s.rows = 1 then (if s.charSize then 0x04 else 0x00) else 0x08
        dispCtl := 0x04, dispMode := 0x02, mode := .ready })

/-- R145: the function-set flags a completed `BEGIN` holds: two lines for more than one row; the tall font
only with exactly one row, else ignored. -/
def Obligations.BeginFunctionSetFlags : Prop :=
  ∀ s : State, s.MayBegin → s.Undisturbed 43 →
    ∃ t, exec .beginInit s = .next t ∧
      (s.rows = 1 → s.charSize = false → t.dispFn = 0x00) ∧
      (s.rows = 1 → s.charSize = true → t.dispFn = 0x04) ∧
      (1 < s.rows → t.dispFn = 0x08)

/-- R154: a completed `BEGIN` has emitted exactly 78 events: 1 open, 43 transport writes and 34 waits, whose
minimum delays add up to 1,061,864 microseconds. -/
def Obligations.BeginTraceShape : Prop :=
  ∀ s : State, s.MayBegin → s.Undisturbed 43 →
    ∃ t es, exec .beginInit s = .next t ∧ t.trace = s.trace ++ es ∧ es.length = 78 ∧
      (busAddrs es).length = 44 ∧ (xferBytes es).length = 43 ∧ (waitTimes es).length = 34 ∧
      (waitTimes es).sum = 1061864

/-! ## The engine's layers -/

/-- R100, R29: `EXPW b` is exactly one transport write, of `b` OR'd with the backlight byte; nothing is masked
and no register changes. -/
def Obligations.ExpwWritesOnce : Prop :=
  ∀ (b : Byte) (s : State), s.Ready → s.Undisturbed 1 →
    exec (.expw b) s
      = .next (s.emitted [.xfer s.addr (b ||| (if s.bl then s.params.expBl else 0x00))]).rest

/-- R110, R111: `PULSE b` is two transport writes, Enable high and then low, each with its minimum delay after
it; no register changes. -/
def Obligations.PulseHighThenLow : Prop :=
  ∀ (b : Byte) (s : State), s.Ready → s.Undisturbed 2 →
    exec (.pulse b) s = .next (s.emitted
      [.xfer s.addr ((b ||| s.params.expEn) ||| s.backlight), .wait 1,
       .xfer s.addr ((b &&& ~~~s.params.expEn) ||| s.backlight), .wait 50]).rest

/-- R75, R120: one nibble transaction is exactly three expander bytes, present, strobe high, strobe low, with the
wait of 1 after the second and the wait of 50 after the third, and no other event; for a nibble byte the third byte
is the first. -/
def Obligations.NibbleTransactionBytes : Prop :=
  ∀ (n : Byte) (s : State), s.Ready → s.Undisturbed 3 →
    exec (.w4 n) s = .next (s.emitted
      [.xfer s.addr (n ||| s.backlight), .xfer s.addr (n ||| s.params.expEn ||| s.backlight), .wait 1,
       .xfer s.addr ((n &&& ~~~s.params.expEn) ||| s.backlight), .wait 50]).rest ∧
    (n &&& 0x0F = 0 ∨ n &&& 0x0F = s.params.expRs →
      (n &&& ~~~s.params.expEn) ||| s.backlight = n ||| s.backlight)

/-- R123: `SEND v, m` makes two nibble transactions, of `(v & 0xF0) | m` and then of
`((v << 4) & 0xF0) | m`, and changes no register. -/
def Obligations.SendHighNibbleFirst : Prop :=
  ∀ (v m : Byte) (s : State), s.Ready → s.Undisturbed 6 → m = 0 ∨ m = s.params.expRs →
    exec (.send v m) s = .next (s.emitted
      (s.nibbleEvents ((v &&& 0xF0) ||| m) ++ s.nibbleEvents (((v <<< 4) &&& 0xF0) ||| m))).rest

/-- R208: a mode byte that is neither 0 nor `EXP_RS` raises `BAD_MODE` before any event; no other instruction
ever raises it. -/
def Obligations.SendRefusesBadMode : Prop :=
  (∀ (v m : Byte) (s : State), s.Ready → s.resetIn = none → m ≠ 0 → m ≠ s.params.expRs →
    exec (.send v m) s = .next (s.faultedBy .badMode)) ∧
  (∀ (i : Instr) (s t : State), s.fault = none → exec i s = .next t → t.fault = some .badMode →
    ∃ v m, i = .send v m ∧ m ≠ 0 ∧ m ≠ s.params.expRs)

/-- R124: in all six bytes of one `SEND` the register-select line is the mode bit's, R/W is 0 and the
backlight line is `BL`'s. -/
def Obligations.ModeBitConstantInSend : Prop :=
  ∀ (v m : Byte) (s : State), s.Ready → s.Undisturbed 6 → m = 0 ∨ m = s.params.expRs →
    ∃ es, exec (.send v m) s = .next (s.emitted es).rest ∧ (xferBytes es).length = 6 ∧
      ∀ b ∈ xferBytes es,
        b &&& s.params.expRs = m ∧ b &&& s.params.expRw = 0 ∧ b &&& s.params.expBl = s.backlight

/-- R126, R128: `CMD v` is the byte transaction of `v` with mode bit 0, `PUTC v` the one with `EXP_RS`; no
delay beyond the nibbles' own, no register changes. -/
def Obligations.CmdAndPutcSendOneByte : Prop :=
  ∀ (v : Byte) (s : State), s.Ready → s.Undisturbed 6 →
    exec (.cmd v) s = .next (s.emitted (s.byteEvents v 0)).rest ∧
    exec (.putc v) s = .next (s.emitted (s.byteEvents v s.params.expRs)).rest

/-- R72, R77 to R87, with log entry 6: each carried byte of the opcode table goes out as its format says, an
instruction byte by its formula with RS = 0, a data byte with RS = 1, a single nibble alone, an expander byte
in one transport write. -/
def Obligations.CarriedBytesAreSent : Prop :=
  ∀ s : State, s.Ready → s.Undisturbed 6 →
    exec .hdClear s = .next (s.emitted (s.byteEvents 0x01 0)).rest ∧
    (∀ x : Bool, exec (.hdHome x) s = .next (s.emitted (s.byteEvents (if x then 0x03 else 0x02) 0)).rest) ∧
    (∀ i sh : Bool, exec (.hdEntryMode i sh) s = .next (s.emitted (s.byteEvents
      (0x04 ||| (if i then 0x02 else 0x00) ||| (if sh then 0x01 else 0x00)) 0)).rest) ∧
    (∀ d c b : Bool, exec (.hdDispCtl d c b) s = .next (s.emitted (s.byteEvents
      (0x08 ||| (if d then 0x04 else 0x00) ||| (if c then 0x02 else 0x00)
        ||| (if b then 0x01 else 0x00)) 0)).rest) ∧
    (∀ (sc rl : Bool) (x : BitVec 2), exec (.hdShift sc rl x) s = .next (s.emitted (s.byteEvents
      (0x10 ||| (if sc then 0x08 else 0x00) ||| (if rl then 0x04 else 0x00) ||| x.setWidth 8) 0)).rest) ∧
    (∀ (l n f : Bool) (x : BitVec 2), exec (.hdFuncSet l n f x) s = .next (s.emitted (s.byteEvents
      (0x20 ||| (if l then 0x10 else 0x00) ||| (if n then 0x08 else 0x00)
        ||| (if f then 0x04 else 0x00) ||| x.setWidth 8) 0)).rest) ∧
    exec .hdFuncSetNibble8 s = .next (s.emitted (s.nibbleEvents 0x30)).rest ∧
    exec .hdFuncSetNibble4 s = .next (s.emitted (s.nibbleEvents 0x20)).rest ∧
    (∀ a : BitVec 6,
      exec (.hdSetCgram a) s = .next (s.emitted (s.byteEvents (0x40 ||| a.setWidth 8) 0)).rest) ∧
    (∀ a : BitVec 7,
      exec (.hdSetDdram a) s = .next (s.emitted (s.byteEvents (0x80 ||| a.setWidth 8) 0)).rest) ∧
    (∀ d : Byte, exec (.hdData d) s = .next (s.emitted (s.byteEvents d s.params.expRs)).rest) ∧
    (∀ (d : Nibble) (l e w r : Bool), exec (.xferByte d l e w r) s = .next (s.emitted
      [.xfer s.addr (((d.setWidth 8 <<< 4) ||| (if l then s.params.expBl else 0x00)
        ||| (if e then s.params.expEn else 0x00) ||| (if w then s.params.expRw else 0x00)
        ||| (if r then s.params.expRs else 0x00)) ||| s.backlight)]).rest)

/-! ## The command surface -/

/-- R170, R171: `CLEAR` and `HOME` send 0x01 and 0x02 with mode bit 0 and then wait 2000 microseconds; no
register changes. -/
def Obligations.ClearAndHomeWaitTwoMilliseconds : Prop :=
  ∀ s : State, s.Ready → s.Undisturbed 6 →
    exec .clear s = .next (s.emitted (s.byteEvents 0x01 0 ++ [.wait 2000])).rest ∧
    exec .home s = .next (s.emitted (s.byteEvents 0x02 0 ++ [.wait 2000])).rest

/-- R172, R173, R174, R209: a row at or above `ROWS` counts as `ROWS - 1`; a row above 3 then raises
`ROW_UNSUPPORTED` before any event, which needs five rows or more; otherwise the command carries the row's
base plus the column, modulo 128. -/
def Obligations.SetCursorClampsAndAddresses : Prop :=
  ∀ (col row : Byte) (s : State), s.Ready → s.Undisturbed 6 → s.rows ≠ 0 →
    let r := if s.rows ≤ row then s.rows - 1 else row
    let sends (base : Nat) : Prop := exec (.setCursor col row) s = .next
      (s.emitted (s.byteEvents (0x80 ||| BitVec.ofNat 8 ((base + col.toNat) % 128)) 0)).rest
    (r = 0 → sends 0x00) ∧ (r = 1 → sends 0x40) ∧ (r = 2 → sends 0x14) ∧ (r = 3 → sends 0x54) ∧
    (3 < r → 5 ≤ s.rows ∧ exec (.setCursor col row) s = .next (s.faultedBy .rowUnsupported))

/-- R176, R177: `CREATECHAR` sends the command that sets the CGRAM address of slot `loc & 7`, then the eight
rows as data bytes in order, unmasked; no register changes. -/
def Obligations.CreateCharSendsCommandAndRows : Prop :=
  ∀ (loc g₀ g₁ g₂ g₃ g₄ g₅ g₆ g₇ : Byte) (s : State), s.Ready → s.Undisturbed 54 →
    exec (.createChar loc [g₀, g₁, g₂, g₃, g₄, g₅, g₆, g₇]) s = .next (s.emitted
      (s.byteEvents (0x40 ||| ((loc &&& 0x07) <<< 3)) 0
        ++ s.byteEvents g₀ s.params.expRs ++ s.byteEvents g₁ s.params.expRs
        ++ s.byteEvents g₂ s.params.expRs ++ s.byteEvents g₃ s.params.expRs
        ++ s.byteEvents g₄ s.params.expRs ++ s.byteEvents g₅ s.params.expRs
        ++ s.byteEvents g₆ s.params.expRs ++ s.byteEvents g₇ s.params.expRs)).rest

/-- R176: only the low three bits of the location count; location 9 is location 1. -/
def Obligations.GlyphLocationMasked : Prop :=
  (∀ (loc : Byte) (g : List Byte) (s : State),
    exec (.createChar loc g) s = exec (.createChar (loc &&& 0x07) g) s) ∧
  ∀ (g : List Byte) (s : State), exec (.createChar 9 g) s = exec (.createChar 1 g) s

/-- R178, R179: `SETBL on` writes `BL` and then makes one transport write, of the new backlight byte alone;
issued twice it leaves `BL` as after once, with a second identical write. -/
def Obligations.SetBacklightWritesOnce : Prop :=
  ∀ (on : Bool) (s : State), s.Ready → s.Undisturbed 2 →
    let e : Event := .xfer s.addr (if on then s.params.expBl else 0x00)
    let t := State.rest { s.emitted [e] with bl := on }
    exec (.setBl on) s = .next t ∧ exec (.setBl on) t = .next (t.emitted [e]).rest ∧
      (t.emitted [e]).trace = s.trace ++ [e, e] ∧ (t.emitted [e]).bl = on

/-- R181: `DCTL` changes the one bit of `DISPCTL` its field names and sends the whole byte with 0x08, also
where the bit was so already. -/
def Obligations.DisplayControlReissued : Prop :=
  ∀ (val : Bool) (s : State), s.Ready → s.Undisturbed 6 →
    let sends (f : DctlField) (ctl : Byte) : Prop := exec (.dctl f val) s = .next
      (State.rest { s.emitted (s.byteEvents (0x08 ||| ctl) 0) with dispCtl := ctl })
    sends .D (if val then s.dispCtl ||| 0x04 else s.dispCtl &&& 0xFB) ∧
    sends .C (if val then s.dispCtl ||| 0x02 else s.dispCtl &&& 0xFD) ∧
    sends .B (if val then s.dispCtl ||| 0x01 else s.dispCtl &&& 0xFE)

/-! ## Whole-machine rules -/

/-- R15, R231: no step removes or changes an event already in the trace, a reset included. -/
def Obligations.StepNeverRemovesEvents : Prop :=
  ∀ s t : State, step s = .next t → ∃ es, t.trace = s.trace ++ es

/-- R50: every open and every transport write of an operation names `ADDR`. -/
def Obligations.OneBusAddress : Prop :=
  ∀ (i : Instr) (s t : State) (es : List Event), exec i s = .next t → t.trace = s.trace ++ es →
    ∀ a ∈ busAddrs es, a = s.addr

/-- R73, C11: the R/W line is 0 in every expander byte, but for test access that itself carries it. -/
def Obligations.ReadWriteLineStaysLow : Prop :=
  ∀ (i : Instr) (s t : State) (es : List Event), exec i s = .next t → t.trace = s.trace ++ es →
    drivesLine s.params s.params.expRw i = false →
    ∀ b ∈ xferBytes es, hasBit b s.params.expRw = false

/-- R101, R103: the backlight line of every expander byte is `BL`, the new `BL` for `SETBL`, but for test
access that itself carries the line. -/
def Obligations.BacklightLineFollowsBl : Prop :=
  ∀ (i : Instr) (s t : State) (es : List Event), s.resetIn = none → exec i s = .next t →
    t.trace = s.trace ++ es → drivesLine s.params s.params.expBl i = false →
    ∀ b ∈ xferBytes es, hasBit b s.params.expBl = t.bl

/-- R22 to R32, R39: each register changes only by the instructions that write it; the configuration does not
change in `READY` at all; the mode changes only to `FAULTED`, or to `READY` by `BEGIN`. -/
def Obligations.RegistersHaveTheirWriters : Prop :=
  ∀ (i : Instr) (s t : State), s.resetIn = none → exec i s = .next t →
    (t.params = s.params ∧ t.port = s.port ∧ t.busScript = s.busScript ∧ t.resetIn = none) ∧
    (t.addr = s.addr ∧ t.addrSet = s.addrSet ∨ s.mode = .config ∧ ∃ a, i = .cfgAddr a) ∧
    (t.cols = s.cols ∧ t.rows = s.rows ∧ t.geomSet = s.geomSet ∨
      s.mode = .config ∧ ∃ c r, i = .cfgGeom c r) ∧
    (t.charSize = s.charSize ∨ s.mode = .config ∧ ∃ f, i = .cfgFont f) ∧
    (t.pins = s.pins ∧ t.pinsSet = s.pinsSet ∨ s.mode = .config ∧ ∃ p, i = .cfgPins p) ∧
    (t.bl = s.bl ∨ (s.mode = .config ∧ ∃ b, i = .cfgBl b) ∨ s.mode = .ready ∧ ∃ b, i = .setBl b) ∧
    (t.dispFn = s.dispFn ∧ t.dispMode = s.dispMode ∨ i = .beginInit) ∧
    (t.dispCtl = s.dispCtl ∨ i = .beginInit ∨ s.mode = .ready ∧ ∃ f v, i = .dctl f v) ∧
    (t.mode = s.mode ∧ t.fault = s.fault ∨ t.mode = .faulted ∧ t.fault ≠ none ∨
      i = .beginInit ∧ t.mode = .ready ∧ t.fault = s.fault)

/-! ## The invariant, and reset -/

/-- Every step keeps the invariant `Inv`: legal parameters, `FAULTED` exactly with a code, a set geometry with
a row, `READY` only when configured, the cached bytes' fixed bits, the controller's memories canonical, and a nibble
pairing that is whole only with the controller between two pairs (R243, log entry 5). -/
def Obligations.StepKeepsInvariant : Prop :=
  ∀ s t : State, Inv s → step s = .next t → Inv t

/-- R38, R8: the machine at power-on meets the invariant. What the invariant says of the receivers rests on log entry
3 (their memories, the 50000 microseconds owed, the pairing not whole), and of the fixed bits of `DISPFN`, `DISPCTL`
and `DISPMODE`, which hold no value at reset, on log entry 1: those clauses are the model's. -/
def Obligations.ResetMeetsInvariant : Prop := Inv State.reset

/-- R38 and R230, with the defaults of R7: the reset values the spec states. Those of the registers that "hold no
value" are the model's (log entry 1) and are not stated. The idle request port of R230 is here the empty list, the
model's own field (log entry 4). -/
def Obligations.ResetValues : Prop :=
  State.reset.mode = .config ∧ State.reset.fault = none ∧ State.reset.addrSet = false ∧
  State.reset.geomSet = false ∧ State.reset.charSize = false ∧ State.reset.pinsSet = false ∧
  State.reset.bl = true ∧ State.reset.trace = [] ∧ State.reset.port = [] ∧
  State.reset.params.propagateBusErr = false ∧
  [State.reset.params.expRs, State.reset.params.expRw, State.reset.params.expEn,
    State.reset.params.expBl] = [0x01, 0x02, 0x04, 0x08]

/-- R206, R230, R231, R233: a reset between operations puts every register to its reset value, but keeps a
fault, the trace and the receivers. -/
def Obligations.ResetClearsRegisters : Prop :=
  ∀ (s : State) (ms : List HostMove), s.port = .reset :: ms →
    ∃ t, step s = .next t ∧ t.port = ms ∧ t.trace = s.trace ∧ t.panel = s.panel ∧
      t.params = s.params ∧ t.addrSet = false ∧ t.geomSet = false ∧ t.charSize = false ∧
      t.pinsSet = false ∧ t.bl = s.params.blDefault ∧
      (s.mode ≠ .faulted → t.mode = .config ∧ t.fault = none) ∧
      (s.mode = .faulted → t.mode = .faulted ∧ t.fault = s.fault)

/-- R230, R232: a reset after `n` events of an operation, whichever it is, leaves exactly those events in the trace
and every register as a reset leaves it; none of the operation's later register writes happens. Due after the last
event it strikes at the end of the operation, and a fault raised there stays: that the fault comes first, and that a
reset due later is dropped, is the model's choice (log entry 9). The last clause writes it out for `BEGIN`. The
values of registers that hold no value are the model's (log entry 1). -/
def Obligations.ResetInsideAnOperation : Prop :=
  (∀ (i : Instr) (n : Nat) (s t : State) (es : List Event),
    s.resetIn = none → exec i s = .next t → t.trace = s.trace ++ es →
    (n < es.length →
      ∃ pan, exec i { s with resetIn := some n } = .next (s.resetAfter (es.take n) none pan)) ∧
    (n = es.length →
      ∃ pan, exec i { s with resetIn := some n } = .next
        (s.resetAfter es (if t.mode = .faulted then t.fault else none) pan)) ∧
    (es.length < n → exec i { s with resetIn := some n } = .next t)) ∧
  ∀ (n : Nat) (s : State), n ≤ 78 → s.MayBegin → s.Undisturbed 43 →
    ∃ pan, exec .beginInit { s with resetIn := some n } = .next
      { State.powerOn s.params with
        trace := s.trace ++ s.beginEvents.take n
        port := s.port, busScript := s.busScript
        sent := s.sent + (xferBytes (s.beginEvents.take n)).length, panel := pan }

/-! ## What the sequencer does not see -/

/-- R36, R37, R248: no instruction's outcome, registers or trace depend on the receivers. -/
def Obligations.SequencerBlindToReceivers : Prop :=
  ∀ (i : Instr) (s : State) (pan : Panel),
    mapNext State.withoutPanel (exec i { s with panel := pan })
      = mapNext State.withoutPanel (exec i s)

/-- R33: a register that holds no value is never read: the outcome does not depend on what stands in it. The
premise on `READY` is a clause of the invariant. -/
def Obligations.UnsetRegistersNeverRead : Prop :=
  ∀ (i : Instr) (s : State), (s.mode = .ready → s.addrSet = true ∧ s.geomSet = true) →
    mapNext State.withoutUnset (exec i s.withoutUnset) = mapNext State.withoutUnset (exec i s)

/-- R25, D25: `COLS` is stored and never read. -/
def Obligations.ColumnsNeverRead : Prop :=
  ∀ (i : Instr) (s : State) (c : Byte),
    mapNext State.withoutCols (exec i { s with cols := c }) = mapNext State.withoutCols (exec i s)

/-! ## The receivers -/

/-- R37, R149, R155: whatever state the controller was in, a `BEGIN` whose bytes arrive leaves it known: 4-bit
width awaiting a high nibble, the pairing whole (R243), lines and font as configured, display on, cursor and blink
off, increment, no shift, the address counter at 0 of DDRAM, and no delay owed. How the controller takes a byte is
log entry 5. -/
def Obligations.BeginForcesAKnownController : Prop :=
  ∀ s : State, s.MayBegin → s.Undisturbed 43 → s.Arrives 43 → s.panel.busy ≤ 50000 →
    ∃ t, exec .beginInit s = .next t ∧ t.Linked ∧
      t.panel.lcd =
        { wide := false, high := none
          twoLine := decide (1 < s.rows), tall := s.charSize && decide (s.rows = 1)
          display := true, cursor := false, blink := false, increment := true, autoShift := false
          space := .ddram, addr := 0 } ∧
      t.panel.out = s.backlight

/-- R53, R128, R174: a character written after `SETCURSOR` is kept in DDRAM at the row's base plus the column,
where that is an address known to keep a byte (log entry 5). -/
def Obligations.CharacterStoredAtCursor : Prop :=
  ∀ (col row v : Byte) (base : Nat) (s : State), s.Ready → s.Undisturbed 12 → s.Arrives 12 → s.Linked →
    rowBase (effectiveRow s.rows row) = some base →
    ddramHolds s.panel.lcd.twoLine (base + col.toNat) = true →
    ∃ t u, exec (.setCursor col row) s = .next t ∧ exec (.putc v) t = .next u ∧ u.Linked ∧
      Memory.read u.panel.ddram (base + col.toNat) = some v ∧
      ∀ a, a ≠ base + col.toNat → Memory.read u.panel.ddram a = Memory.read s.panel.ddram a

/-- R52, R54, R177: after `CREATECHAR` the eight rows are in CGRAM at `(slot << 3) + i`, every other address
of CGRAM is as before, and the address counter points into CGRAM (the hazard of R247). -/
def Obligations.GlyphStoredInItsSlot : Prop :=
  ∀ (loc : Byte) (g : List Byte) (s : State), g.length = 8 → s.Ready → s.Undisturbed 54 →
    s.Arrives 54 → s.Linked → s.panel.lcd.increment = true →
    ∃ t, exec (.createChar loc g) s = .next t ∧ t.Linked ∧ t.panel.lcd.space = .cgram ∧
      (∀ i, i < 8 → Memory.read t.panel.cgram ((loc.toNat % 8) * 8 + i) = g[i]?) ∧
      ∀ a, a < (loc.toNat % 8) * 8 ∨ (loc.toNat % 8) * 8 + 8 ≤ a →
        Memory.read t.panel.cgram a = Memory.read s.panel.cgram a

/-- R121, R243: a whole `SEND` leaves the nibble pairing whole, but for the command of a function set that takes the
controller out of 4-bit width (R83). A test-access `W4` or `PULSE` of any byte, an `EXPW`
of one with Enable set, and a reset between the two nibbles of a `SEND` break it; the `W4` of a nibble byte leaves the
controller holding that nibble as a high one. And whatever the state, no step but one that takes a `BEGIN` makes it
whole. How the controller takes a strobe, and what breaks the pairing beside these, is log entry 5. -/
def Obligations.PairingBrokenUntilBegin : Prop :=
  (∀ (b v m : Byte) (s : State), s.Ready → s.Undisturbed 6 → s.Arrives 6 → s.Linked → m = 0 ∨ m = s.params.expRs →
    let leaves (i : Instr) (cut : Option Nat) (q : Pairing) : Prop :=
      ∃ t, exec i { s with resetIn := cut } = .next t ∧ t.panel.pairing = q
    leaves (.send v m) none (if m = 0 ∧ v &&& 0xF0 = 0x30 then .broken else .whole) ∧ leaves (.w4 b) none .broken ∧ leaves (.pulse b) none .broken ∧
    leaves (.expw (b ||| s.params.expEn)) none .broken ∧
    ∀ n, 4 ≤ n → n ≤ 8 → leaves (.send v m) (some n) .broken) ∧
  (∀ (n : Byte) (s : State), s.Ready → s.Undisturbed 3 → s.Arrives 3 → s.Linked →
    n &&& 0x0F = 0 ∨ n &&& 0x0F = s.params.expRs →
    ∃ t, exec (.w4 n) s = .next t ∧ ¬ t.Linked ∧
      t.panel.lcd = { s.panel.lcd with
        high := some (decide (n &&& 0x0F = s.params.expRs), (n >>> 4).setWidth 4) }) ∧
  ∀ s t : State, s.panel.pairing ≠ .whole → step s = .next t →
    (∀ r cut ms, s.port = .request r cut :: ms → decode s.params r ≠ .ok .beginInit) →
    t.panel.pairing ≠ .whole

/-- R170, R244: after `CLEAR` the controller owes no delay; after a test-access `CMD 0x01` it does, until the host
itself has waited at least 2000 microseconds. What is owed is reckoned from the minimum each wait lasts, a transaction
counting as no time: the model's choice (log entries 5 and 10); R240 allows every wait to be longer. -/
def Obligations.ClearSettlesButCommandOneDoesNot : Prop :=
  ∀ s : State, s.Ready → s.Undisturbed 6 → s.Arrives 6 → s.Linked →
    (∃ t, exec .clear s = .next t ∧ t.Linked ∧ t.panel.lcd.space = .ddram) ∧
    (∃ t, exec (.cmd 0x01) s = .next t ∧ ¬ t.Linked ∧
      ∀ us ms, ∃ u, step { t with port := .pause us :: ms } = .next u ∧ u.trace = t.trace ∧
        (u.Linked ↔ 2000 ≤ us))

/-- R74, R85, R126: a command stores nothing in the controller's memories: after `DCTL`, `HOME` and `SETCURSOR`
every byte of DDRAM and of CGRAM reads as before, after `CLEAR` every byte of CGRAM. How the controller takes a
byte is log entry 5. -/
def Obligations.CommandsStoreNothing : Prop :=
  ∀ s : State, s.Ready → s.Undisturbed 6 → s.Arrives 6 → s.Linked →
    let keeps (i : Instr) : Prop := ∃ t, exec i s = .next t ∧ ∀ a,
      Memory.read t.panel.ddram a = Memory.read s.panel.ddram a ∧
      Memory.read t.panel.cgram a = Memory.read s.panel.cgram a
    (∀ (f : DctlField) (val : Bool), keeps (.dctl f val)) ∧ keeps .home ∧
    (∀ col row : Byte, effectiveRow s.rows row ≤ 3 → keeps (.setCursor col row)) ∧
    ∃ t, exec .clear s = .next t ∧
      ∀ a, Memory.read t.panel.cgram a = Memory.read s.panel.cgram a

/-- R179: `SETBL` latches nothing: with Enable low the controller and its memories are as before. -/
def Obligations.BacklightWriteLatchesNothing : Prop :=
  ∀ (on : Bool) (s : State), s.Ready → s.Undisturbed 1 → hasBit s.panel.out s.params.expEn = false →
    ∃ t, exec (.setBl on) s = .next t ∧ t.panel.lcd = s.panel.lcd ∧
      t.panel.ddram = s.panel.ddram ∧ t.panel.cgram = s.panel.cgram ∧ t.panel.busy = s.panel.busy

/-- R36, R211: after a transport write to the expander's address that arrives the expander holds its byte; a failed
one may have been lost, and then the receivers are as before, as they are after a write to another address, but for
what the end of every operation does to the pairing (R243). The trace is the same in all cases. That a result is one
of three, and which address the expander has, are log entries 4 and 14; the latch and the pairing are log entry 5. -/
def Obligations.ExpanderHoldsTheLastByte : Prop :=
  ∀ (b : Byte) (s : State), s.Ready → s.Undisturbed 1 →
    ∃ t, exec (.expw b) s = .next t ∧ t.trace = s.trace ++ [.xfer s.addr (b ||| s.backlight)] ∧
      (s.addr = s.panel.busAddr → s.drawAt s.sent ≠ .fail false → t.panel.out = b ||| s.backlight) ∧
      (s.drawAt s.sent = .fail false → t.panel = s.panel.rest s.params) ∧
      (s.addr ≠ s.panel.busAddr → t.panel = s.panel.rest s.params)

/-- R58, R121: not the single byte but the levels of Enable decide what is latched. Enable held high over two writes
and a pause of the host's between them is one pulse, as is the `W4` of a byte that has Enable set: the nibble is
latched when it falls. How the controller takes a strobe, and from where the width counts, is log entry 5. -/
def Obligations.EnableHeldOverWritesIsOnePulse : Prop :=
  ∀ (n : Byte) (us : Nat) (s : State), s.Ready → s.Undisturbed 3 → s.Arrives 3 → s.Linked →
    n &&& 0x0F = 0 ∨ n &&& 0x0F = s.params.expRs → 1 ≤ us →
    let latched (t : State) : Prop := t.panel.lcd = { s.panel.lcd with
      high := some (decide (n &&& 0x0F = s.params.expRs), (n >>> 4).setWidth 4) }
    (∃ t u v, exec (.expw (n ||| s.params.expEn)) s = .next t ∧ t.panel.lcd = s.panel.lcd ∧
      exec (.expw (n ||| s.params.expEn)) (t.paused t.port us) = .next u ∧ u.panel.lcd = s.panel.lcd ∧
      exec (.expw n) u = .next v ∧ latched v) ∧
    ∃ t, exec (.w4 (n ||| s.params.expEn)) s = .next t ∧ latched t

/-! ## Text and timing -/

/-- R89, with log entry 11 (a quoted string has no escapes, a character is the byte of its code): `PUTS "s"` is one
`PUTC` for each character of `s`, in order, nothing for the empty string; `DATA` is another spelling of `PUTC`;
`CMD v` is a request of its own, equivalent to `SEND v, 0`. -/
def Obligations.PutsExpandsToCharacters : Prop :=
  (∀ cs : List Char, (∀ c ∈ cs, c ≠ '"' ∧ c.toNat < 256) →
    assembleLine (['P', 'U', 'T', 'S', ' ', '"'] ++ cs ++ ['"'])
      = .ok (cs.map fun c => .request .putc [.num c.toNat])) ∧
  (∀ cs : List Char,
    assembleLine (['D', 'A', 'T', 'A', ' '] ++ cs) = assembleLine (['P', 'U', 'T', 'C', ' '] ++ cs)) ∧
  ∀ (v : Byte) (s : State), exec (.cmd v) s = exec (.send v 0) s

/-- R250: transport writes, waits and minimum delay of each operation that completes. -/
def Obligations.OperationCosts : Prop :=
  ∀ s : State, s.Undisturbed 54 →
    let costs (i : Instr) (writes waits us : Nat) : Prop :=
      ∃ t es, exec i s = .next t ∧ t.trace = s.trace ++ es ∧ (xferBytes es).length = writes ∧
        (waitTimes es).length = waits ∧ (waitTimes es).sum = us
    (s.InConfig → ∀ (a : BusAddr) (c r : Byte) (f : Bool) (p : PinSel), r ≠ 0 →
      costs (.cfgAddr a) 0 0 0 ∧ costs (.cfgGeom c r) 0 0 0 ∧ costs (.cfgFont f) 0 0 0 ∧
      costs (.cfgPins p) 0 0 0 ∧ costs (.cfgBl f) 0 0 0) ∧
    (s.Ready → ∀ (b v m : Byte) (on : Bool) (f : DctlField), m = 0 ∨ m = s.params.expRs →
      costs (.expw b) 1 0 0 ∧ costs (.setBl on) 1 0 0 ∧ costs (.pulse b) 2 2 51 ∧
      costs (.w4 b) 3 2 51 ∧ costs (.send v m) 6 4 102 ∧ costs (.cmd v) 6 4 102 ∧
      costs (.putc v) 6 4 102 ∧ costs (.dctl f on) 6 4 102 ∧ costs .clear 6 5 2102 ∧
      costs .home 6 5 2102) ∧
    (s.Ready → ∀ col row : Byte, effectiveRow s.rows row ≤ 3 → costs (.setCursor col row) 6 4 102) ∧
    (s.Ready → ∀ (loc : Byte) (g : List Byte), g.length = 8 → costs (.createChar loc g) 54 36 918) ∧
    (s.MayBegin → costs .beginInit 43 34 1061864)
end

