-- ==== Sys2Proof/Laws/Memory.lean ====
section
/-! SUPPORT. The controller's memories: a read after a write, and the canonical form kept by every write. -/

namespace Sys2Proof.Machine

theorem Memory.read_write_same (m : List Host.Cell) (a : Nat) (b : Byte) :
    Memory.read (Memory.write m a b) a = some b := by
  induction m with
  | nil => simp [Memory.write, Memory.read]
  | cons c m ih =>
    obtain ⟨k, v⟩ := c
    unfold Memory.write
    split
    · simp [Memory.read]
    · split
      · simp [Memory.read]
      · rename_i h₁ h₂
        simp [Memory.read, Ne.symm h₂, ih]

theorem Memory.read_write_other (m : List Host.Cell) (a a' : Nat) (b : Byte) (h : a' ≠ a) :
    Memory.read (Memory.write m a b) a' = Memory.read m a' := by
  induction m with
  | nil => simp [Memory.write, Memory.read, Ne.symm h]
  | cons c m ih =>
    obtain ⟨k, v⟩ := c
    unfold Memory.write
    split
    · simp [Memory.read, Ne.symm h]
    · split
      · rename_i h₁ h₂
        subst h₂
        simp [Memory.read, Ne.symm h]
      · by_cases hk : k = a' <;> simp [Memory.read, hk, ih]

theorem Memory.wfFrom_write (size low : Nat) (m : List Host.Cell) (a : Nat) (b : Byte)
    (hm : Memory.wfFrom size low m = true) (hl : low ≤ a) (ha : a < size) :
    Memory.wfFrom size low (Memory.write m a b) = true := by
  induction m generalizing low with
  | nil => simp [Memory.write, Memory.wfFrom, hl, ha]
  | cons c m ih =>
    obtain ⟨k, v⟩ := c
    simp only [Memory.wfFrom, Bool.and_eq_true, decide_eq_true_eq] at hm
    obtain ⟨⟨h₁, h₂⟩, h₃⟩ := hm
    unfold Memory.write
    split
    · simp [Memory.wfFrom, hl, ha, h₂, h₃]; omega
    · split
      · rename_i _ e
        subst e
        simp [Memory.wfFrom, h₁, h₂, h₃]
      · simp only [Memory.wfFrom, Bool.and_eq_true, decide_eq_true_eq]
        exact ⟨⟨h₁, h₂⟩, ih (k + 1) h₃ (by omega)⟩

/-- A write inside the memory keeps the canonical form. -/
theorem Memory.wf_write (size : Nat) (m : List Host.Cell) (a : Nat) (b : Byte)
    (hm : Memory.wf size m = true) (ha : a < size) : Memory.wf size (Memory.write m a b) = true :=
  Memory.wfFrom_write size 0 m a b hm (Nat.zero_le a) ha

/-- An empty memory is in canonical form: the memories at power-on, and those no longer known. -/
@[simp] theorem Memory.wf_nil (size : Nat) : Memory.wf size [] = true := rfl

end Sys2Proof.Machine
end

