-- ==== Sys2Proof/Laws/Panel.lean ====
section
/-! SUPPORT. The receivers: every operation on them keeps both memories canonical and the busy time bounded
(`Panel.Canon`), and what one strobe does where it is clean. -/

namespace Sys2Proof.Machine

/-- Both memories are canonical and the controller owes at most the power-up settle. -/
def Panel.Canon (pan : Panel) : Prop :=
  Memory.wf 128 pan.ddram = true ∧ Memory.wf 64 pan.cgram = true ∧ pan.busy ≤ 50000

theorem Panel.powerOn_canon : Panel.powerOn.Canon := ⟨rfl, rfl, Nat.le_refl _⟩

theorem Panel.garble_canon (k : Nat) (pan : Panel) : (pan.garble k).Canon :=
  ⟨rfl, rfl, by simp [Panel.garble, longUs]⟩

theorem Panel.scramble_canon (k : Nat) (pan : Panel) : (pan.scramble k).Canon :=
  ⟨rfl, rfl, by simp [Panel.scramble, longUs]⟩

theorem Panel.freeAddr_canon (k : Nat) {pan : Panel} (h : pan.Canon) : (pan.freeAddr k).Canon := h

theorem Panel.advance_canon (k : Nat) {pan : Panel} (h : pan.Canon) : (pan.advance k).Canon := by
  unfold Panel.advance
  split
  · exact h
  · exact h

theorem ddramHolds_lt {t : Bool} {a : Nat} (h : ddramHolds t a = true) : a < 128 := by
  unfold ddramHolds at h
  split at h <;> simp at h <;> omega

theorem Panel.dataWrite_canon (k : Nat) (d : Byte) {pan : Panel} (h : pan.Canon) :
    (pan.dataWrite k d).Canon := by
  obtain ⟨hd, hc, hb⟩ := h
  unfold Panel.dataWrite
  cases hs : pan.lcd.space with
  | ddram =>
    simp only
    split
    · rename_i hh
      refine Panel.advance_canon k ⟨Memory.wf_write _ _ _ _ hd ?_, hc, hb⟩
      simp only [Panel.holds, hs] at hh
      exact ddramHolds_lt hh
    · exact ⟨rfl, hc, hb⟩
  | cgram =>
    simp only
    split
    · rename_i hh
      refine Panel.advance_canon k ⟨hd, Memory.wf_write _ _ _ _ hc ?_, hb⟩
      simpa [Panel.holds, hs] using hh
    · exact ⟨hd, rfl, hb⟩

theorem Panel.obey_canon (k : Nat) (i : HdInstr) {pan : Panel} (h : pan.Canon) :
    (pan.obey k i).Canon := by
  obtain ⟨hd, hc, hb⟩ := h
  cases i with
  | clear => exact ⟨rfl, hc, by simp [Panel.obey, longUs]⟩
  | home x => exact ⟨hd, hc, by simp [Panel.obey, longUs]⟩
  | _ => exact ⟨hd, hc, hb⟩

theorem Panel.execute_canon (k : Nat) (rs : Bool) (b : Byte) {pan : Panel} (h : pan.Canon) :
    (pan.execute k rs b).Canon := by
  have h' : ({ pan with lcd := { pan.lcd with high := none }, busy := settleUs } : Panel).Canon :=
    ⟨h.1, h.2.1, by simp [settleUs]⟩
  unfold Panel.execute
  simp only
  split
  · exact Panel.dataWrite_canon k b h'
  · split
    · exact Panel.obey_canon k _ h'
    · exact Panel.scramble_canon k _

theorem Panel.strobe_canon (k : Nat) (rs : Bool) (n : Nibble) {pan : Panel} (h : pan.Canon) :
    (pan.strobe k rs n).Canon := by
  unfold Panel.strobe
  split
  · exact Panel.execute_canon k _ _ h
  · split
    · exact ⟨h.1, h.2.1, by simp [settleUs]⟩
    · split
      · exact Panel.garble_canon k pan
      · exact Panel.execute_canon k _ _ h

theorem Panel.latch_canon (p : Params) (k : Nat) (b : Byte) {pan : Panel} (h : pan.Canon) :
    (pan.latch p k b).Canon := by
  have hs := Panel.strobe_canon k (hasBit pan.out p.expRs) ((pan.out >>> 4).setWidth 4) h
  have hg := Panel.garble_canon k pan
  unfold Panel.latch
  simp only
  split
  · split
    · exact hs
    · exact hg
  · exact h

theorem Panel.receive_canon (p : Params) (r : XferResult) (k : Nat) (a : BusAddr) (b : Byte) {pan : Panel}
    (h : pan.Canon) : (pan.receive p r k a b).Canon := by
  unfold Panel.receive
  split
  · split
    · exact Panel.latch_canon p k b h
    · exact Panel.latch_canon p k b h
    · exact h
  · exact h

theorem Panel.elapse_canon (t : Nat) {pan : Panel} (h : pan.Canon) : (pan.elapse t).Canon :=
  ⟨h.1, h.2.1, Nat.le_trans (Nat.sub_le _ _) h.2.2⟩

/-- What `missed`, `revive`, `repair` and `rest` change is the pairing alone. -/
theorem Panel.missed_canon {pan : Panel} (h : pan.Canon) : pan.missed.Canon := h
theorem Panel.revive_canon {pan : Panel} (h : pan.Canon) : pan.revive.Canon := h
theorem Panel.repair_canon {pan : Panel} (h : pan.Canon) : pan.repair.Canon := h
theorem Panel.rest_canon (p : Params) {pan : Panel} (h : pan.Canon) : (pan.rest p).Canon := h

/-! ## The address never changes -/

theorem Panel.advance_busAddr (k : Nat) (pan : Panel) : (pan.advance k).busAddr = pan.busAddr := by
  unfold Panel.advance
  split <;> rfl

theorem Panel.dataWrite_busAddr (k : Nat) (d : Byte) (pan : Panel) :
    (pan.dataWrite k d).busAddr = pan.busAddr := by
  unfold Panel.dataWrite
  cases pan.lcd.space <;> simp only <;> split <;> first | exact Panel.advance_busAddr .. | rfl

theorem Panel.execute_busAddr (k : Nat) (rs : Bool) (b : Byte) (pan : Panel) :
    (pan.execute k rs b).busAddr = pan.busAddr := by
  unfold Panel.execute
  simp only
  split
  · exact Panel.dataWrite_busAddr k b _
  · split
    · rename_i i _
      cases i <;> rfl
    · rfl

theorem Panel.strobe_busAddr (k : Nat) (rs : Bool) (n : Nibble) (pan : Panel) :
    (pan.strobe k rs n).busAddr = pan.busAddr := by
  unfold Panel.strobe
  split
  · exact Panel.execute_busAddr ..
  · split
    · rfl
    · split
      · rfl
      · exact Panel.execute_busAddr ..

/-- No transaction changes the address the expander answers to. -/
@[simp] theorem Panel.receive_busAddr (p : Params) (r : XferResult) (k : Nat) (a : BusAddr) (b : Byte)
    (pan : Panel) : (pan.receive p r k a b).busAddr = pan.busAddr := by
  have e : (pan.latch p k b).busAddr = pan.busAddr := by
    unfold Panel.latch
    simp only
    split
    · split
      · exact Panel.strobe_busAddr ..
      · rfl
    · rfl
  unfold Panel.receive
  split
  · split <;> first | exact e | rfl
  · rfl

/-- A transaction to another address is none of the expander's (R36). -/
theorem Panel.receive_elsewhere (p : Params) (r : XferResult) (k : Nat) {a : BusAddr} (b : Byte) {pan : Panel}
    (h : a ≠ pan.busAddr) : pan.receive p r k a b = pan.missed := if_neg h

/-! ## The pairing of nibbles -/

theorem Panel.advance_pairing (k : Nat) (pan : Panel) : (pan.advance k).pairing = pan.pairing := by
  unfold Panel.advance
  split <;> rfl

theorem Panel.dataWrite_pairing (k : Nat) (d : Byte) (pan : Panel) :
    (pan.dataWrite k d).pairing = pan.pairing := by
  unfold Panel.dataWrite
  cases pan.lcd.space <;> simp only <;> split <;> first | exact Panel.advance_pairing .. | rfl

/-- Executing a byte neither breaks nor repairs the pairing. -/
@[simp] theorem Panel.execute_pairing (k : Nat) (rs : Bool) (b : Byte) (pan : Panel) :
    (pan.execute k rs b).pairing = pan.pairing := by
  unfold Panel.execute
  simp only
  split
  · exact Panel.dataWrite_pairing k b _
  · split
    · rename_i i _
      cases i <;> rfl
    · rfl

/-- Nor does a strobe that is clean. -/
theorem Panel.strobe_pairing (k : Nat) (rs : Bool) (n : Nibble) (pan : Panel) :
    (pan.strobe k rs n).pairing = pan.pairing := by
  unfold Panel.strobe
  split
  · exact Panel.execute_pairing ..
  · split
    · rfl
    · split
      · rename_i h
        simp [Panel.garble, h]
      · exact Panel.execute_pairing ..

/-- What one transaction can do to the pairing: nothing, or break it. -/
theorem Panel.receive_pairing (p : Params) (r : XferResult) (k : Nat) (a : BusAddr) (b : Byte) (pan : Panel) :
    (pan.receive p r k a b).pairing = pan.pairing ∨ (pan.receive p r k a b).pairing = .broken := by
  have latched : (pan.latch p k b).pairing = pan.pairing ∨ (pan.latch p k b).pairing = .broken := by
    unfold Panel.latch
    simp only
    split
    · split
      · exact .inl (Panel.strobe_pairing ..)
      · cases h : pan.pairing <;> simp [Panel.garble, h]
    · exact .inl rfl
  have missed : pan.missed.pairing = pan.pairing ∨ pan.missed.pairing = .broken := by
    cases h : pan.pairing <;> simp [Panel.missed, h]
  unfold Panel.receive
  split
  · split
    · exact latched
    · exact latched
    · exact missed
  · exact missed

/-- An operation leaves the pairing whole only where it was whole. -/
theorem Panel.rest_whole {p : Params} {pan : Panel} :
    (pan.rest p).pairing = .whole ↔ pan.pairing = .whole ∧ pan.awaitsPair p = true := by
  unfold Panel.rest
  simp only
  split <;> simp_all

/-- A whole pairing that awaits its high nibble stays whole. -/
theorem Panel.rest_of_whole {p : Params} {pan : Panel} (h : pan.pairing = .whole)
    (ha : pan.awaitsPair p = true) : pan.rest p = pan := by
  unfold Panel.rest
  rw [if_pos ⟨h, ha⟩, ← h]

/-- A broken pairing stays broken. -/
theorem Panel.rest_of_broken {p : Params} {pan : Panel} (h : pan.pairing = .broken) : pan.rest p = pan := by
  unfold Panel.rest
  rw [if_neg (by simp [h]), ← h]

/-- An operation leaves the pairing whole or broken. -/
theorem Panel.rest_broken {p : Params} {pan : Panel} (h : (pan.rest p).pairing ≠ .whole) :
    (pan.rest p).pairing = .broken := by
  unfold Panel.rest at *
  simp only at *
  split <;> simp_all

/-- Once at rest, at rest. -/
@[simp] theorem Panel.rest_rest (p : Params) (pan : Panel) : (pan.rest p).rest p = pan.rest p := by
  by_cases h : (pan.rest p).pairing = .whole
  · exact Panel.rest_of_whole h (Panel.rest_whole.1 h).2
  · exact Panel.rest_of_broken (Panel.rest_broken h)

end Sys2Proof.Machine
end

