-- ==== Sys2Proof/Laws/State.lean ====
section
/-! SUPPORT. What each update of the state does to each field: one lemma per field per update. -/

namespace Sys2Proof.Machine

variable (s : State)

/-! ## `raise` -/

@[simp] theorem State.raise_params (c : FaultCode) : (s.raise c).params = s.params := rfl
@[simp] theorem State.raise_mode (c : FaultCode) : (s.raise c).mode = .faulted := rfl
@[simp] theorem State.raise_fault (c : FaultCode) : (s.raise c).fault = some c := rfl
@[simp] theorem State.raise_addr (c : FaultCode) : (s.raise c).addr = s.addr := rfl
@[simp] theorem State.raise_addrSet (c : FaultCode) : (s.raise c).addrSet = s.addrSet := rfl
@[simp] theorem State.raise_cols (c : FaultCode) : (s.raise c).cols = s.cols := rfl
@[simp] theorem State.raise_rows (c : FaultCode) : (s.raise c).rows = s.rows := rfl
@[simp] theorem State.raise_geomSet (c : FaultCode) : (s.raise c).geomSet = s.geomSet := rfl
@[simp] theorem State.raise_charSize (c : FaultCode) : (s.raise c).charSize = s.charSize := rfl
@[simp] theorem State.raise_pins (c : FaultCode) : (s.raise c).pins = s.pins := rfl
@[simp] theorem State.raise_pinsSet (c : FaultCode) : (s.raise c).pinsSet = s.pinsSet := rfl
@[simp] theorem State.raise_bl (c : FaultCode) : (s.raise c).bl = s.bl := rfl
@[simp] theorem State.raise_dispFn (c : FaultCode) : (s.raise c).dispFn = s.dispFn := rfl
@[simp] theorem State.raise_dispCtl (c : FaultCode) : (s.raise c).dispCtl = s.dispCtl := rfl
@[simp] theorem State.raise_dispMode (c : FaultCode) : (s.raise c).dispMode = s.dispMode := rfl
@[simp] theorem State.raise_trace (c : FaultCode) : (s.raise c).trace = s.trace := rfl
@[simp] theorem State.raise_port (c : FaultCode) : (s.raise c).port = s.port := rfl
@[simp] theorem State.raise_resetIn (c : FaultCode) : (s.raise c).resetIn = s.resetIn := rfl
@[simp] theorem State.raise_busScript (c : FaultCode) : (s.raise c).busScript = s.busScript := rfl
@[simp] theorem State.raise_sent (c : FaultCode) : (s.raise c).sent = s.sent := rfl
@[simp] theorem State.raise_panel (c : FaultCode) : (s.raise c).panel = s.panel := rfl

/-! ## `faultedBy` -/

@[simp] theorem State.faultedBy_params (c : FaultCode) : (s.faultedBy c).params = s.params := rfl
@[simp] theorem State.faultedBy_mode (c : FaultCode) : (s.faultedBy c).mode = .faulted := rfl
@[simp] theorem State.faultedBy_fault (c : FaultCode) : (s.faultedBy c).fault = some c := rfl
@[simp] theorem State.faultedBy_addr (c : FaultCode) : (s.faultedBy c).addr = s.addr := rfl
@[simp] theorem State.faultedBy_addrSet (c : FaultCode) : (s.faultedBy c).addrSet = s.addrSet := rfl
@[simp] theorem State.faultedBy_cols (c : FaultCode) : (s.faultedBy c).cols = s.cols := rfl
@[simp] theorem State.faultedBy_rows (c : FaultCode) : (s.faultedBy c).rows = s.rows := rfl
@[simp] theorem State.faultedBy_geomSet (c : FaultCode) : (s.faultedBy c).geomSet = s.geomSet := rfl
@[simp] theorem State.faultedBy_charSize (c : FaultCode) : (s.faultedBy c).charSize = s.charSize := rfl
@[simp] theorem State.faultedBy_pins (c : FaultCode) : (s.faultedBy c).pins = s.pins := rfl
@[simp] theorem State.faultedBy_pinsSet (c : FaultCode) : (s.faultedBy c).pinsSet = s.pinsSet := rfl
@[simp] theorem State.faultedBy_bl (c : FaultCode) : (s.faultedBy c).bl = s.bl := rfl
@[simp] theorem State.faultedBy_dispFn (c : FaultCode) : (s.faultedBy c).dispFn = s.dispFn := rfl
@[simp] theorem State.faultedBy_dispCtl (c : FaultCode) : (s.faultedBy c).dispCtl = s.dispCtl := rfl
@[simp] theorem State.faultedBy_dispMode (c : FaultCode) : (s.faultedBy c).dispMode = s.dispMode := rfl
@[simp] theorem State.faultedBy_trace (c : FaultCode) : (s.faultedBy c).trace = s.trace := rfl
@[simp] theorem State.faultedBy_port (c : FaultCode) : (s.faultedBy c).port = s.port := rfl
@[simp] theorem State.faultedBy_resetIn (c : FaultCode) : (s.faultedBy c).resetIn = s.resetIn := rfl
@[simp] theorem State.faultedBy_busScript (c : FaultCode) : (s.faultedBy c).busScript = s.busScript := rfl
@[simp] theorem State.faultedBy_sent (c : FaultCode) : (s.faultedBy c).sent = s.sent := rfl
@[simp] theorem State.faultedBy_panel (c : FaultCode) : (s.faultedBy c).panel = s.panel := rfl

/-! ## `push` -/

@[simp] theorem State.push_params (e : Event) : (s.push e).params = s.params := rfl
@[simp] theorem State.push_mode (e : Event) : (s.push e).mode = s.mode := rfl
@[simp] theorem State.push_fault (e : Event) : (s.push e).fault = s.fault := rfl
@[simp] theorem State.push_addr (e : Event) : (s.push e).addr = s.addr := rfl
@[simp] theorem State.push_addrSet (e : Event) : (s.push e).addrSet = s.addrSet := rfl
@[simp] theorem State.push_cols (e : Event) : (s.push e).cols = s.cols := rfl
@[simp] theorem State.push_rows (e : Event) : (s.push e).rows = s.rows := rfl
@[simp] theorem State.push_geomSet (e : Event) : (s.push e).geomSet = s.geomSet := rfl
@[simp] theorem State.push_charSize (e : Event) : (s.push e).charSize = s.charSize := rfl
@[simp] theorem State.push_pins (e : Event) : (s.push e).pins = s.pins := rfl
@[simp] theorem State.push_pinsSet (e : Event) : (s.push e).pinsSet = s.pinsSet := rfl
@[simp] theorem State.push_bl (e : Event) : (s.push e).bl = s.bl := rfl
@[simp] theorem State.push_dispFn (e : Event) : (s.push e).dispFn = s.dispFn := rfl
@[simp] theorem State.push_dispCtl (e : Event) : (s.push e).dispCtl = s.dispCtl := rfl
@[simp] theorem State.push_dispMode (e : Event) : (s.push e).dispMode = s.dispMode := rfl
@[simp] theorem State.push_trace (e : Event) : (s.push e).trace = s.trace ++ [e] := rfl
@[simp] theorem State.push_port (e : Event) : (s.push e).port = s.port := rfl
@[simp] theorem State.push_resetIn (e : Event) : (s.push e).resetIn = s.resetIn.map (· - 1) := rfl
@[simp] theorem State.push_busScript (e : Event) : (s.push e).busScript = s.busScript := rfl
@[simp] theorem State.push_sent (e : Event) : (s.push e).sent = s.sent := rfl
@[simp] theorem State.push_panel (e : Event) : (s.push e).panel = s.panel := rfl

/-! ## `transact` -/

@[simp] theorem State.transact_params (b : Byte) : (s.transact b).params = s.params := rfl
@[simp] theorem State.transact_mode (b : Byte) : (s.transact b).mode = s.mode := rfl
@[simp] theorem State.transact_fault (b : Byte) : (s.transact b).fault = s.fault := rfl
@[simp] theorem State.transact_addr (b : Byte) : (s.transact b).addr = s.addr := rfl
@[simp] theorem State.transact_addrSet (b : Byte) : (s.transact b).addrSet = s.addrSet := rfl
@[simp] theorem State.transact_cols (b : Byte) : (s.transact b).cols = s.cols := rfl
@[simp] theorem State.transact_rows (b : Byte) : (s.transact b).rows = s.rows := rfl
@[simp] theorem State.transact_geomSet (b : Byte) : (s.transact b).geomSet = s.geomSet := rfl
@[simp] theorem State.transact_charSize (b : Byte) : (s.transact b).charSize = s.charSize := rfl
@[simp] theorem State.transact_pins (b : Byte) : (s.transact b).pins = s.pins := rfl
@[simp] theorem State.transact_pinsSet (b : Byte) : (s.transact b).pinsSet = s.pinsSet := rfl
@[simp] theorem State.transact_bl (b : Byte) : (s.transact b).bl = s.bl := rfl
@[simp] theorem State.transact_dispFn (b : Byte) : (s.transact b).dispFn = s.dispFn := rfl
@[simp] theorem State.transact_dispCtl (b : Byte) : (s.transact b).dispCtl = s.dispCtl := rfl
@[simp] theorem State.transact_dispMode (b : Byte) : (s.transact b).dispMode = s.dispMode := rfl
@[simp] theorem State.transact_trace (b : Byte) : (s.transact b).trace = s.trace := rfl
@[simp] theorem State.transact_port (b : Byte) : (s.transact b).port = s.port := rfl
@[simp] theorem State.transact_resetIn (b : Byte) : (s.transact b).resetIn = s.resetIn := rfl
@[simp] theorem State.transact_busScript (b : Byte) : (s.transact b).busScript = s.busScript := rfl
@[simp] theorem State.transact_sent (b : Byte) : (s.transact b).sent = s.sent + 1 := rfl
@[simp] theorem State.transact_panel (b : Byte) : (s.transact b).panel = s.panel.receive s.params (s.drawAt s.sent) s.sent s.addr b := rfl

/-! ## `emitted` -/

@[simp] theorem State.emitted_params (es : List Event) : (s.emitted es).params = s.params := rfl
@[simp] theorem State.emitted_mode (es : List Event) : (s.emitted es).mode = s.mode := rfl
@[simp] theorem State.emitted_fault (es : List Event) : (s.emitted es).fault = s.fault := rfl
@[simp] theorem State.emitted_addr (es : List Event) : (s.emitted es).addr = s.addr := rfl
@[simp] theorem State.emitted_addrSet (es : List Event) : (s.emitted es).addrSet = s.addrSet := rfl
@[simp] theorem State.emitted_cols (es : List Event) : (s.emitted es).cols = s.cols := rfl
@[simp] theorem State.emitted_rows (es : List Event) : (s.emitted es).rows = s.rows := rfl
@[simp] theorem State.emitted_geomSet (es : List Event) : (s.emitted es).geomSet = s.geomSet := rfl
@[simp] theorem State.emitted_charSize (es : List Event) : (s.emitted es).charSize = s.charSize := rfl
@[simp] theorem State.emitted_pins (es : List Event) : (s.emitted es).pins = s.pins := rfl
@[simp] theorem State.emitted_pinsSet (es : List Event) : (s.emitted es).pinsSet = s.pinsSet := rfl
@[simp] theorem State.emitted_bl (es : List Event) : (s.emitted es).bl = s.bl := rfl
@[simp] theorem State.emitted_dispFn (es : List Event) : (s.emitted es).dispFn = s.dispFn := rfl
@[simp] theorem State.emitted_dispCtl (es : List Event) : (s.emitted es).dispCtl = s.dispCtl := rfl
@[simp] theorem State.emitted_dispMode (es : List Event) : (s.emitted es).dispMode = s.dispMode := rfl
@[simp] theorem State.emitted_trace (es : List Event) : (s.emitted es).trace = s.trace ++ es := rfl
@[simp] theorem State.emitted_port (es : List Event) : (s.emitted es).port = s.port := rfl
@[simp] theorem State.emitted_resetIn (es : List Event) : (s.emitted es).resetIn = s.resetIn := rfl
@[simp] theorem State.emitted_busScript (es : List Event) : (s.emitted es).busScript = s.busScript := rfl
@[simp] theorem State.emitted_sent (es : List Event) : (s.emitted es).sent = s.sent + (xferBytes es).length := rfl
@[simp] theorem State.emitted_panel (es : List Event) : (s.emitted es).panel = Panel.sees s.params s.drawAt s.sent es s.panel := rfl

/-! ## `taken` -/

@[simp] theorem State.taken_params (ms : List HostMove) (r : Option Nat) : (s.taken ms r).params = s.params := rfl
@[simp] theorem State.taken_mode (ms : List HostMove) (r : Option Nat) : (s.taken ms r).mode = s.mode := rfl
@[simp] theorem State.taken_fault (ms : List HostMove) (r : Option Nat) : (s.taken ms r).fault = s.fault := rfl
@[simp] theorem State.taken_addr (ms : List HostMove) (r : Option Nat) : (s.taken ms r).addr = s.addr := rfl
@[simp] theorem State.taken_addrSet (ms : List HostMove) (r : Option Nat) : (s.taken ms r).addrSet = s.addrSet := rfl
@[simp] theorem State.taken_cols (ms : List HostMove) (r : Option Nat) : (s.taken ms r).cols = s.cols := rfl
@[simp] theorem State.taken_rows (ms : List HostMove) (r : Option Nat) : (s.taken ms r).rows = s.rows := rfl
@[simp] theorem State.taken_geomSet (ms : List HostMove) (r : Option Nat) : (s.taken ms r).geomSet = s.geomSet := rfl
@[simp] theorem State.taken_charSize (ms : List HostMove) (r : Option Nat) : (s.taken ms r).charSize = s.charSize := rfl
@[simp] theorem State.taken_pins (ms : List HostMove) (r : Option Nat) : (s.taken ms r).pins = s.pins := rfl
@[simp] theorem State.taken_pinsSet (ms : List HostMove) (r : Option Nat) : (s.taken ms r).pinsSet = s.pinsSet := rfl
@[simp] theorem State.taken_bl (ms : List HostMove) (r : Option Nat) : (s.taken ms r).bl = s.bl := rfl
@[simp] theorem State.taken_dispFn (ms : List HostMove) (r : Option Nat) : (s.taken ms r).dispFn = s.dispFn := rfl
@[simp] theorem State.taken_dispCtl (ms : List HostMove) (r : Option Nat) : (s.taken ms r).dispCtl = s.dispCtl := rfl
@[simp] theorem State.taken_dispMode (ms : List HostMove) (r : Option Nat) : (s.taken ms r).dispMode = s.dispMode := rfl
@[simp] theorem State.taken_trace (ms : List HostMove) (r : Option Nat) : (s.taken ms r).trace = s.trace := rfl
@[simp] theorem State.taken_port (ms : List HostMove) (r : Option Nat) : (s.taken ms r).port = ms := rfl
@[simp] theorem State.taken_resetIn (ms : List HostMove) (r : Option Nat) : (s.taken ms r).resetIn = r := rfl
@[simp] theorem State.taken_busScript (ms : List HostMove) (r : Option Nat) : (s.taken ms r).busScript = s.busScript := rfl
@[simp] theorem State.taken_sent (ms : List HostMove) (r : Option Nat) : (s.taken ms r).sent = s.sent := rfl
@[simp] theorem State.taken_panel (ms : List HostMove) (r : Option Nat) : (s.taken ms r).panel = s.panel := rfl

/-! ## `hardReset` -/

@[simp] theorem State.hardReset_params : (s.hardReset).params = s.params := rfl
@[simp] theorem State.hardReset_mode : (s.hardReset).mode = if s.mode = .faulted then .faulted else .config := rfl
@[simp] theorem State.hardReset_fault : (s.hardReset).fault = if s.mode = .faulted then s.fault else none := rfl
@[simp] theorem State.hardReset_addr : (s.hardReset).addr = 0 := rfl
@[simp] theorem State.hardReset_addrSet : (s.hardReset).addrSet = false := rfl
@[simp] theorem State.hardReset_cols : (s.hardReset).cols = 0 := rfl
@[simp] theorem State.hardReset_rows : (s.hardReset).rows = 0 := rfl
@[simp] theorem State.hardReset_geomSet : (s.hardReset).geomSet = false := rfl
@[simp] theorem State.hardReset_charSize : (s.hardReset).charSize = false := rfl
@[simp] theorem State.hardReset_pins : (s.hardReset).pins = ⟨0⟩ := rfl
@[simp] theorem State.hardReset_pinsSet : (s.hardReset).pinsSet = false := rfl
@[simp] theorem State.hardReset_bl : (s.hardReset).bl = s.params.blDefault := rfl
@[simp] theorem State.hardReset_dispFn : (s.hardReset).dispFn = 0 := rfl
@[simp] theorem State.hardReset_dispCtl : (s.hardReset).dispCtl = 0 := rfl
@[simp] theorem State.hardReset_dispMode : (s.hardReset).dispMode = 0 := rfl
@[simp] theorem State.hardReset_trace : (s.hardReset).trace = s.trace := rfl
@[simp] theorem State.hardReset_port : (s.hardReset).port = s.port := rfl
@[simp] theorem State.hardReset_resetIn : (s.hardReset).resetIn = none := rfl
@[simp] theorem State.hardReset_busScript : (s.hardReset).busScript = s.busScript := rfl
@[simp] theorem State.hardReset_sent : (s.hardReset).sent = s.sent := rfl
@[simp] theorem State.hardReset_panel : (s.hardReset).panel = s.panel := rfl

/-! ## `withoutPanel` -/

@[simp] theorem State.withoutPanel_params : (s.withoutPanel).params = s.params := rfl
@[simp] theorem State.withoutPanel_mode : (s.withoutPanel).mode = s.mode := rfl
@[simp] theorem State.withoutPanel_fault : (s.withoutPanel).fault = s.fault := rfl
@[simp] theorem State.withoutPanel_addr : (s.withoutPanel).addr = s.addr := rfl
@[simp] theorem State.withoutPanel_addrSet : (s.withoutPanel).addrSet = s.addrSet := rfl
@[simp] theorem State.withoutPanel_cols : (s.withoutPanel).cols = s.cols := rfl
@[simp] theorem State.withoutPanel_rows : (s.withoutPanel).rows = s.rows := rfl
@[simp] theorem State.withoutPanel_geomSet : (s.withoutPanel).geomSet = s.geomSet := rfl
@[simp] theorem State.withoutPanel_charSize : (s.withoutPanel).charSize = s.charSize := rfl
@[simp] theorem State.withoutPanel_pins : (s.withoutPanel).pins = s.pins := rfl
@[simp] theorem State.withoutPanel_pinsSet : (s.withoutPanel).pinsSet = s.pinsSet := rfl
@[simp] theorem State.withoutPanel_bl : (s.withoutPanel).bl = s.bl := rfl
@[simp] theorem State.withoutPanel_dispFn : (s.withoutPanel).dispFn = s.dispFn := rfl
@[simp] theorem State.withoutPanel_dispCtl : (s.withoutPanel).dispCtl = s.dispCtl := rfl
@[simp] theorem State.withoutPanel_dispMode : (s.withoutPanel).dispMode = s.dispMode := rfl
@[simp] theorem State.withoutPanel_trace : (s.withoutPanel).trace = s.trace := rfl
@[simp] theorem State.withoutPanel_port : (s.withoutPanel).port = s.port := rfl
@[simp] theorem State.withoutPanel_resetIn : (s.withoutPanel).resetIn = s.resetIn := rfl
@[simp] theorem State.withoutPanel_busScript : (s.withoutPanel).busScript = s.busScript := rfl
@[simp] theorem State.withoutPanel_sent : (s.withoutPanel).sent = s.sent := rfl
@[simp] theorem State.withoutPanel_panel : (s.withoutPanel).panel = Panel.powerOn := rfl

/-! ## `withoutBus` -/

@[simp] theorem State.withoutBus_params : (s.withoutBus).params = s.params := rfl
@[simp] theorem State.withoutBus_mode : (s.withoutBus).mode = s.mode := rfl
@[simp] theorem State.withoutBus_fault : (s.withoutBus).fault = s.fault := rfl
@[simp] theorem State.withoutBus_addr : (s.withoutBus).addr = s.addr := rfl
@[simp] theorem State.withoutBus_addrSet : (s.withoutBus).addrSet = s.addrSet := rfl
@[simp] theorem State.withoutBus_cols : (s.withoutBus).cols = s.cols := rfl
@[simp] theorem State.withoutBus_rows : (s.withoutBus).rows = s.rows := rfl
@[simp] theorem State.withoutBus_geomSet : (s.withoutBus).geomSet = s.geomSet := rfl
@[simp] theorem State.withoutBus_charSize : (s.withoutBus).charSize = s.charSize := rfl
@[simp] theorem State.withoutBus_pins : (s.withoutBus).pins = s.pins := rfl
@[simp] theorem State.withoutBus_pinsSet : (s.withoutBus).pinsSet = s.pinsSet := rfl
@[simp] theorem State.withoutBus_bl : (s.withoutBus).bl = s.bl := rfl
@[simp] theorem State.withoutBus_dispFn : (s.withoutBus).dispFn = s.dispFn := rfl
@[simp] theorem State.withoutBus_dispCtl : (s.withoutBus).dispCtl = s.dispCtl := rfl
@[simp] theorem State.withoutBus_dispMode : (s.withoutBus).dispMode = s.dispMode := rfl
@[simp] theorem State.withoutBus_trace : (s.withoutBus).trace = s.trace := rfl
@[simp] theorem State.withoutBus_port : (s.withoutBus).port = s.port := rfl
@[simp] theorem State.withoutBus_resetIn : (s.withoutBus).resetIn = s.resetIn := rfl
@[simp] theorem State.withoutBus_busScript : (s.withoutBus).busScript = [] := rfl
@[simp] theorem State.withoutBus_sent : (s.withoutBus).sent = s.sent := rfl
@[simp] theorem State.withoutBus_panel : (s.withoutBus).panel = Panel.powerOn := rfl

/-! ## `withoutCols` -/

@[simp] theorem State.withoutCols_params : (s.withoutCols).params = s.params := rfl
@[simp] theorem State.withoutCols_mode : (s.withoutCols).mode = s.mode := rfl
@[simp] theorem State.withoutCols_fault : (s.withoutCols).fault = s.fault := rfl
@[simp] theorem State.withoutCols_addr : (s.withoutCols).addr = s.addr := rfl
@[simp] theorem State.withoutCols_addrSet : (s.withoutCols).addrSet = s.addrSet := rfl
@[simp] theorem State.withoutCols_cols : (s.withoutCols).cols = 0 := rfl
@[simp] theorem State.withoutCols_rows : (s.withoutCols).rows = s.rows := rfl
@[simp] theorem State.withoutCols_geomSet : (s.withoutCols).geomSet = s.geomSet := rfl
@[simp] theorem State.withoutCols_charSize : (s.withoutCols).charSize = s.charSize := rfl
@[simp] theorem State.withoutCols_pins : (s.withoutCols).pins = s.pins := rfl
@[simp] theorem State.withoutCols_pinsSet : (s.withoutCols).pinsSet = s.pinsSet := rfl
@[simp] theorem State.withoutCols_bl : (s.withoutCols).bl = s.bl := rfl
@[simp] theorem State.withoutCols_dispFn : (s.withoutCols).dispFn = s.dispFn := rfl
@[simp] theorem State.withoutCols_dispCtl : (s.withoutCols).dispCtl = s.dispCtl := rfl
@[simp] theorem State.withoutCols_dispMode : (s.withoutCols).dispMode = s.dispMode := rfl
@[simp] theorem State.withoutCols_trace : (s.withoutCols).trace = s.trace := rfl
@[simp] theorem State.withoutCols_port : (s.withoutCols).port = s.port := rfl
@[simp] theorem State.withoutCols_resetIn : (s.withoutCols).resetIn = s.resetIn := rfl
@[simp] theorem State.withoutCols_busScript : (s.withoutCols).busScript = s.busScript := rfl
@[simp] theorem State.withoutCols_sent : (s.withoutCols).sent = s.sent := rfl
@[simp] theorem State.withoutCols_panel : (s.withoutCols).panel = s.panel := rfl

/-! ## `paused` -/

@[simp] theorem State.paused_params (ms : List HostMove) (us : Nat) : (s.paused ms us).params = s.params := rfl
@[simp] theorem State.paused_mode (ms : List HostMove) (us : Nat) : (s.paused ms us).mode = s.mode := rfl
@[simp] theorem State.paused_fault (ms : List HostMove) (us : Nat) : (s.paused ms us).fault = s.fault := rfl
@[simp] theorem State.paused_addr (ms : List HostMove) (us : Nat) : (s.paused ms us).addr = s.addr := rfl
@[simp] theorem State.paused_addrSet (ms : List HostMove) (us : Nat) : (s.paused ms us).addrSet = s.addrSet := rfl
@[simp] theorem State.paused_cols (ms : List HostMove) (us : Nat) : (s.paused ms us).cols = s.cols := rfl
@[simp] theorem State.paused_rows (ms : List HostMove) (us : Nat) : (s.paused ms us).rows = s.rows := rfl
@[simp] theorem State.paused_geomSet (ms : List HostMove) (us : Nat) : (s.paused ms us).geomSet = s.geomSet := rfl
@[simp] theorem State.paused_charSize (ms : List HostMove) (us : Nat) : (s.paused ms us).charSize = s.charSize := rfl
@[simp] theorem State.paused_pins (ms : List HostMove) (us : Nat) : (s.paused ms us).pins = s.pins := rfl
@[simp] theorem State.paused_pinsSet (ms : List HostMove) (us : Nat) : (s.paused ms us).pinsSet = s.pinsSet := rfl
@[simp] theorem State.paused_bl (ms : List HostMove) (us : Nat) : (s.paused ms us).bl = s.bl := rfl
@[simp] theorem State.paused_dispFn (ms : List HostMove) (us : Nat) : (s.paused ms us).dispFn = s.dispFn := rfl
@[simp] theorem State.paused_dispCtl (ms : List HostMove) (us : Nat) : (s.paused ms us).dispCtl = s.dispCtl := rfl
@[simp] theorem State.paused_dispMode (ms : List HostMove) (us : Nat) : (s.paused ms us).dispMode = s.dispMode := rfl
@[simp] theorem State.paused_trace (ms : List HostMove) (us : Nat) : (s.paused ms us).trace = s.trace := rfl
@[simp] theorem State.paused_port (ms : List HostMove) (us : Nat) : (s.paused ms us).port = ms := rfl
@[simp] theorem State.paused_resetIn (ms : List HostMove) (us : Nat) : (s.paused ms us).resetIn = s.resetIn := rfl
@[simp] theorem State.paused_busScript (ms : List HostMove) (us : Nat) : (s.paused ms us).busScript = s.busScript := rfl
@[simp] theorem State.paused_sent (ms : List HostMove) (us : Nat) : (s.paused ms us).sent = s.sent := rfl
@[simp] theorem State.paused_panel (ms : List HostMove) (us : Nat) : (s.paused ms us).panel = s.panel.elapse us := rfl

/-! ## `rest` -/

@[simp] theorem State.rest_params : (s.rest).params = s.params := rfl
@[simp] theorem State.rest_mode : (s.rest).mode = s.mode := rfl
@[simp] theorem State.rest_fault : (s.rest).fault = s.fault := rfl
@[simp] theorem State.rest_addr : (s.rest).addr = s.addr := rfl
@[simp] theorem State.rest_addrSet : (s.rest).addrSet = s.addrSet := rfl
@[simp] theorem State.rest_cols : (s.rest).cols = s.cols := rfl
@[simp] theorem State.rest_rows : (s.rest).rows = s.rows := rfl
@[simp] theorem State.rest_geomSet : (s.rest).geomSet = s.geomSet := rfl
@[simp] theorem State.rest_charSize : (s.rest).charSize = s.charSize := rfl
@[simp] theorem State.rest_pins : (s.rest).pins = s.pins := rfl
@[simp] theorem State.rest_pinsSet : (s.rest).pinsSet = s.pinsSet := rfl
@[simp] theorem State.rest_bl : (s.rest).bl = s.bl := rfl
@[simp] theorem State.rest_dispFn : (s.rest).dispFn = s.dispFn := rfl
@[simp] theorem State.rest_dispCtl : (s.rest).dispCtl = s.dispCtl := rfl
@[simp] theorem State.rest_dispMode : (s.rest).dispMode = s.dispMode := rfl
@[simp] theorem State.rest_trace : (s.rest).trace = s.trace := rfl
@[simp] theorem State.rest_port : (s.rest).port = s.port := rfl
@[simp] theorem State.rest_resetIn : (s.rest).resetIn = s.resetIn := rfl
@[simp] theorem State.rest_busScript : (s.rest).busScript = s.busScript := rfl
@[simp] theorem State.rest_sent : (s.rest).sent = s.sent := rfl
@[simp] theorem State.rest_panel : (s.rest).panel = s.panel.rest s.params := rfl

/-! ## `tolerant` -/

@[simp] theorem State.tolerant_params : (s.tolerant).params = { s.params with propagateBusErr := false } := rfl
@[simp] theorem State.tolerant_mode : (s.tolerant).mode = s.mode := rfl
@[simp] theorem State.tolerant_fault : (s.tolerant).fault = s.fault := rfl
@[simp] theorem State.tolerant_addr : (s.tolerant).addr = s.addr := rfl
@[simp] theorem State.tolerant_addrSet : (s.tolerant).addrSet = s.addrSet := rfl
@[simp] theorem State.tolerant_cols : (s.tolerant).cols = s.cols := rfl
@[simp] theorem State.tolerant_rows : (s.tolerant).rows = s.rows := rfl
@[simp] theorem State.tolerant_geomSet : (s.tolerant).geomSet = s.geomSet := rfl
@[simp] theorem State.tolerant_charSize : (s.tolerant).charSize = s.charSize := rfl
@[simp] theorem State.tolerant_pins : (s.tolerant).pins = s.pins := rfl
@[simp] theorem State.tolerant_pinsSet : (s.tolerant).pinsSet = s.pinsSet := rfl
@[simp] theorem State.tolerant_bl : (s.tolerant).bl = s.bl := rfl
@[simp] theorem State.tolerant_dispFn : (s.tolerant).dispFn = s.dispFn := rfl
@[simp] theorem State.tolerant_dispCtl : (s.tolerant).dispCtl = s.dispCtl := rfl
@[simp] theorem State.tolerant_dispMode : (s.tolerant).dispMode = s.dispMode := rfl
@[simp] theorem State.tolerant_trace : (s.tolerant).trace = s.trace := rfl
@[simp] theorem State.tolerant_port : (s.tolerant).port = s.port := rfl
@[simp] theorem State.tolerant_resetIn : (s.tolerant).resetIn = s.resetIn := rfl
@[simp] theorem State.tolerant_busScript : (s.tolerant).busScript = s.busScript := rfl
@[simp] theorem State.tolerant_sent : (s.tolerant).sent = s.sent := rfl
@[simp] theorem State.tolerant_panel : (s.tolerant).panel = s.panel := rfl

/-! ## `busFailed` -/

@[simp] theorem State.busFailed_params (es : List Event) (pan : Panel) : (s.busFailed es pan).params = s.params := rfl
@[simp] theorem State.busFailed_mode (es : List Event) (pan : Panel) : (s.busFailed es pan).mode = .faulted := rfl
@[simp] theorem State.busFailed_fault (es : List Event) (pan : Panel) : (s.busFailed es pan).fault = some .busFail := rfl
@[simp] theorem State.busFailed_addr (es : List Event) (pan : Panel) : (s.busFailed es pan).addr = s.addr := rfl
@[simp] theorem State.busFailed_addrSet (es : List Event) (pan : Panel) : (s.busFailed es pan).addrSet = s.addrSet := rfl
@[simp] theorem State.busFailed_cols (es : List Event) (pan : Panel) : (s.busFailed es pan).cols = s.cols := rfl
@[simp] theorem State.busFailed_rows (es : List Event) (pan : Panel) : (s.busFailed es pan).rows = s.rows := rfl
@[simp] theorem State.busFailed_geomSet (es : List Event) (pan : Panel) : (s.busFailed es pan).geomSet = s.geomSet := rfl
@[simp] theorem State.busFailed_charSize (es : List Event) (pan : Panel) : (s.busFailed es pan).charSize = s.charSize := rfl
@[simp] theorem State.busFailed_pins (es : List Event) (pan : Panel) : (s.busFailed es pan).pins = s.pins := rfl
@[simp] theorem State.busFailed_pinsSet (es : List Event) (pan : Panel) : (s.busFailed es pan).pinsSet = s.pinsSet := rfl
@[simp] theorem State.busFailed_bl (es : List Event) (pan : Panel) : (s.busFailed es pan).bl = s.bl := rfl
@[simp] theorem State.busFailed_dispFn (es : List Event) (pan : Panel) : (s.busFailed es pan).dispFn = s.dispFn := rfl
@[simp] theorem State.busFailed_dispCtl (es : List Event) (pan : Panel) : (s.busFailed es pan).dispCtl = s.dispCtl := rfl
@[simp] theorem State.busFailed_dispMode (es : List Event) (pan : Panel) : (s.busFailed es pan).dispMode = s.dispMode := rfl
@[simp] theorem State.busFailed_trace (es : List Event) (pan : Panel) : (s.busFailed es pan).trace = s.trace ++ es := rfl
@[simp] theorem State.busFailed_port (es : List Event) (pan : Panel) : (s.busFailed es pan).port = s.port := rfl
@[simp] theorem State.busFailed_resetIn (es : List Event) (pan : Panel) : (s.busFailed es pan).resetIn = s.resetIn := rfl
@[simp] theorem State.busFailed_busScript (es : List Event) (pan : Panel) : (s.busFailed es pan).busScript = s.busScript := rfl
@[simp] theorem State.busFailed_sent (es : List Event) (pan : Panel) : (s.busFailed es pan).sent = s.sent + (xferBytes es).length := rfl
@[simp] theorem State.busFailed_panel (es : List Event) (pan : Panel) : (s.busFailed es pan).panel = pan := rfl

/-! ## `resetAfter` -/

@[simp] theorem State.resetAfter_params (es : List Event) (f : Option FaultCode) (pan : Panel) : (s.resetAfter es f pan).params = s.params := rfl
@[simp] theorem State.resetAfter_mode (es : List Event) (f : Option FaultCode) (pan : Panel) : (s.resetAfter es f pan).mode = if f = none then .config else .faulted := rfl
@[simp] theorem State.resetAfter_fault (es : List Event) (f : Option FaultCode) (pan : Panel) : (s.resetAfter es f pan).fault = f := rfl
@[simp] theorem State.resetAfter_addr (es : List Event) (f : Option FaultCode) (pan : Panel) : (s.resetAfter es f pan).addr = 0 := rfl
@[simp] theorem State.resetAfter_addrSet (es : List Event) (f : Option FaultCode) (pan : Panel) : (s.resetAfter es f pan).addrSet = false := rfl
@[simp] theorem State.resetAfter_cols (es : List Event) (f : Option FaultCode) (pan : Panel) : (s.resetAfter es f pan).cols = 0 := rfl
@[simp] theorem State.resetAfter_rows (es : List Event) (f : Option FaultCode) (pan : Panel) : (s.resetAfter es f pan).rows = 0 := rfl
@[simp] theorem State.resetAfter_geomSet (es : List Event) (f : Option FaultCode) (pan : Panel) : (s.resetAfter es f pan).geomSet = false := rfl
@[simp] theorem State.resetAfter_charSize (es : List Event) (f : Option FaultCode) (pan : Panel) : (s.resetAfter es f pan).charSize = false := rfl
@[simp] theorem State.resetAfter_pins (es : List Event) (f : Option FaultCode) (pan : Panel) : (s.resetAfter es f pan).pins = ⟨0⟩ := rfl
@[simp] theorem State.resetAfter_pinsSet (es : List Event) (f : Option FaultCode) (pan : Panel) : (s.resetAfter es f pan).pinsSet = false := rfl
@[simp] theorem State.resetAfter_bl (es : List Event) (f : Option FaultCode) (pan : Panel) : (s.resetAfter es f pan).bl = s.params.blDefault := rfl
@[simp] theorem State.resetAfter_dispFn (es : List Event) (f : Option FaultCode) (pan : Panel) : (s.resetAfter es f pan).dispFn = 0 := rfl
@[simp] theorem State.resetAfter_dispCtl (es : List Event) (f : Option FaultCode) (pan : Panel) : (s.resetAfter es f pan).dispCtl = 0 := rfl
@[simp] theorem State.resetAfter_dispMode (es : List Event) (f : Option FaultCode) (pan : Panel) : (s.resetAfter es f pan).dispMode = 0 := rfl
@[simp] theorem State.resetAfter_trace (es : List Event) (f : Option FaultCode) (pan : Panel) : (s.resetAfter es f pan).trace = s.trace ++ es := rfl
@[simp] theorem State.resetAfter_port (es : List Event) (f : Option FaultCode) (pan : Panel) : (s.resetAfter es f pan).port = s.port := rfl
@[simp] theorem State.resetAfter_resetIn (es : List Event) (f : Option FaultCode) (pan : Panel) : (s.resetAfter es f pan).resetIn = none := rfl
@[simp] theorem State.resetAfter_busScript (es : List Event) (f : Option FaultCode) (pan : Panel) : (s.resetAfter es f pan).busScript = s.busScript := rfl
@[simp] theorem State.resetAfter_sent (es : List Event) (f : Option FaultCode) (pan : Panel) : (s.resetAfter es f pan).sent = s.sent + (xferBytes es).length := rfl
@[simp] theorem State.resetAfter_panel (es : List Event) (f : Option FaultCode) (pan : Panel) : (s.resetAfter es f pan).panel = pan := rfl

end Sys2Proof.Machine
end

