-- ==== Sys2Proof/Laws/Ops.lean ====
section
/-! SUPPORT. What the shared operations do: an action, and a list of actions, of an operation that nothing
outside cuts short; and, in general, that a property every action keeps is kept by a whole list. -/

namespace Sys2Proof.Machine

/-! ## Events emitted one list after another -/

theorem xferBytes_append (xs ys : List Event) : xferBytes (xs ++ ys) = xferBytes xs ++ xferBytes ys := by
  induction xs with
  | nil => rfl
  | cons e xs ih => cases e <;> simp [xferBytes, ih]

theorem waitTimes_append (xs ys : List Event) : waitTimes (xs ++ ys) = waitTimes xs ++ waitTimes ys := by
  induction xs with
  | nil => rfl
  | cons e xs ih => cases e <;> simp [waitTimes, ih]

theorem busAddrs_append (xs ys : List Event) : busAddrs (xs ++ ys) = busAddrs xs ++ busAddrs ys := by
  induction xs with
  | nil => rfl
  | cons e xs ih => cases e <;> simp [busAddrs, ih]

theorem Panel.sees_append (p : Params) (draw : Nat → XferResult) (k : Nat) (xs ys : List Event)
    (pan : Panel) :
    Panel.sees p draw k (xs ++ ys) pan
      = Panel.sees p draw (k + (xferBytes xs).length) ys (Panel.sees p draw k xs pan) := by
  induction xs generalizing k pan with
  | nil => rfl
  | cons e xs ih =>
    cases e <;> simp [Panel.sees, xferBytes, ih]
    congr 1; omega

@[simp] theorem State.drawAt_emitted (s : State) (es : List Event) (n : Nat) :
    (s.emitted es).drawAt n = s.drawAt n := rfl

@[simp] theorem State.blv_emitted (s : State) (es : List Event) : (s.emitted es).blv = s.blv := rfl

/-- No event changes the address the expander answers to. -/
@[simp] theorem Panel.sees_busAddr (p : Params) (draw : Nat → XferResult) (k : Nat) (es : List Event)
    (pan : Panel) : (Panel.sees p draw k es pan).busAddr = pan.busAddr := by
  induction es generalizing k pan with
  | nil => rfl
  | cons e es ih =>
    cases e with
    | openBus a q => exact ih k pan
    | wait t => exact ih k (pan.elapse t)
    | xfer a b => exact (ih (k + 1) _).trans (Panel.receive_busAddr ..)

theorem State.emitted_nil (s : State) : s.emitted [] = s := by
  cases s; simp [State.emitted, xferBytes, Panel.sees]

theorem State.emitted_append (s : State) (xs ys : List Event) :
    (s.emitted xs).emitted ys = s.emitted (xs ++ ys) := by
  have h : (s.emitted xs).drawAt = s.drawAt := rfl
  simp only [State.emitted] at *
  simp [xferBytes_append, Panel.sees_append, h, Nat.add_assoc]

/-! ## Undisturbed operations -/

theorem State.Undisturbed.mono {s : State} {m n : Nat} (h : s.Undisturbed n) (hm : m ≤ n) :
    s.Undisturbed m :=
  ⟨h.1, fun hp k hk => h.2 hp k (Nat.lt_of_lt_of_le hk hm)⟩

theorem State.Undisturbed.after {s : State} {n : Nat} (es : List Event)
    (h : s.Undisturbed ((xferBytes es).length + n)) : (s.emitted es).Undisturbed n := by
  refine ⟨h.1, fun hp k hk => ?_⟩
  have := h.2 hp ((xferBytes es).length + k) (by omega)
  simpa [Nat.add_assoc] using this

theorem expWrite_undisturbed {s : State} (b : Byte) (h : s.Undisturbed 1) :
    expWrite b s = .go (s.emitted [.xfer s.addr (b ||| s.blv)]) := by
  obtain ⟨h₀, h₁⟩ := h
  have hd : (s.params.propagateBusErr && drawFailed (s.drawAt s.sent)) = false := by
    cases hp : s.params.propagateBusErr with
    | false => rfl
    | true => simpa using h₁ hp 0 Nat.one_pos
  have e : (s.push (.xfer s.addr (b ||| s.blv))).drawAt = s.drawAt := rfl
  simp only [expWrite, xfer, emit, h₀, State.push_params, State.push_sent, e, hd, reduceCtorEq,
    if_false, Bool.false_eq_true]
  cases s
  simp_all [State.push, State.transact, State.emitted, xferBytes, Panel.sees, State.drawAt]

theorem wait_undisturbed {s : State} (t : Nat) (h : s.resetIn = none) :
    wait t s = .go (s.emitted [.wait t]) := by
  simp only [wait, emit, h, reduceCtorEq, if_false, State.push_resetIn, Option.map_none]
  cases s
  simp_all [State.push, State.emitted, xferBytes, Panel.sees]

theorem openTransport_undisturbed {s : State} (h : s.resetIn = none) :
    openTransport s
      = .go (s.emitted [.openBus s.addr (if s.pinsSet then s.pins else s.params.pinsDefault)]) := by
  simp only [openTransport, emit, h, reduceCtorEq, if_false]
  cases s
  simp_all [State.push, State.emitted, xferBytes, Panel.sees]

/-- The events of an action, from the registers of `s`. -/
def actEvents (s : State) : Act → List Event
  | .openBus => [.openBus s.addr (if s.pinsSet then s.pins else s.params.pinsDefault)]
  | .write b => [.xfer s.addr (b ||| s.blv)]
  | .wait t => [.wait t]
  | .setFn _ => []
  | .setCtl _ => []
  | .setMode _ => []
  | .setBl _ => []
  | .revive => []
  | .repair => []
  | .ready => []

/-- Is the action an event, and neither a register write nor the controller's recovery? -/
def isEvent : Act → Bool
  | .openBus => true
  | .write _ => true
  | .wait _ => true
  | _ => false

/-- The transport writes of a list of actions. -/
def writeCount : List Act → Nat
  | [] => 0
  | .write _ :: as => writeCount as + 1
  | _ :: as => writeCount as

theorem writeCount_append (as bs : List Act) : writeCount (as ++ bs) = writeCount as + writeCount bs := by
  induction as with
  | nil => simp [writeCount]
  | cons a as ih => cases a <;> simp [writeCount, ih]; omega

/-- A flow continued by another operation. -/
def Flow.andThen (f : Flow) (k : State → Flow) : Flow :=
  match f with
  | .go s => k s
  | .halt s => .halt s

theorem runActs_append (as bs : List Act) (s : State) :
    runActs (as ++ bs) s = (runActs as s).andThen (runActs bs) := by
  induction as generalizing s with
  | nil => rfl
  | cons a as ih =>
    simp only [List.cons_append, runActs]
    cases act a s with
    | go t => exact ih t
    | halt t => rfl

/-- A list of nothing but events, undisturbed: it emits them all, in order, and changes nothing else. -/
theorem runActs_events (as : List Act) {s : State} (he : as.all isEvent = true)
    (h : s.Undisturbed (writeCount as)) :
    runActs as s = .go (s.emitted (as.flatMap (actEvents s))) := by
  induction as generalizing s with
  | nil => simp [runActs, State.emitted_nil]
  | cons a as ih =>
    simp only [List.all_cons, Bool.and_eq_true] at he
    have step : ∀ es : List Event, actEvents s a = es →
        act a s = .go (s.emitted es) → s.Undisturbed ((xferBytes es).length + writeCount as) →
        runActs (a :: as) s = .go (s.emitted ((a :: as).flatMap (actEvents s))) := by
      intro es e₁ e₂ hu
      have e₃ : actEvents (s.emitted es) = actEvents s := by
        funext x; cases x <;> rfl
      simp only [runActs, e₂, ih he.2 (State.Undisturbed.after es hu), State.emitted_append, e₃,
        List.flatMap_cons, e₁]
    cases a with
    | openBus => exact step _ rfl (openTransport_undisturbed h.1) (by simpa [actEvents, xferBytes, writeCount] using h)
    | write b =>
      exact step _ rfl (expWrite_undisturbed b (h.mono (by simp [writeCount])))
        (by simpa [actEvents, xferBytes, writeCount, Nat.add_comm] using h)
    | wait t => exact step _ rfl (wait_undisturbed t h.1) (by simpa [actEvents, xferBytes, writeCount] using h)
    | _ => simp [isEvent] at he

/-- The register an action writes, where it writes one. -/
def settle (s : State) : Act → State
  | .setFn v => { s with dispFn := v }
  | .setCtl v => { s with dispCtl := v }
  | .setMode v => { s with dispMode := v }
  | .setBl b => { s with bl := b }
  | .ready => { s with mode := .ready }
  | _ => s

/-- Does the action act on nothing an event acts on or is made from: neither on the backlight bit nor on the
receivers, but as an event? -/
def keepsEvents : Act → Bool
  | .setBl _ => false
  | .revive => false
  | .repair => false
  | _ => true

/-- A list of events and of register writes that leaves the backlight alone, undisturbed: all its events, in order,
and its register writes. -/
theorem runActs_mixed (as : List Act) {s : State} (hb : as.all keepsEvents = true)
    (h : s.Undisturbed (writeCount as)) :
    runActs as s = .go (as.foldl settle (s.emitted (as.flatMap (actEvents s)))) := by
  induction as generalizing s with
  | nil => simp [runActs, State.emitted_nil]
  | cons a as ih =>
    simp only [List.all_cons, Bool.and_eq_true] at hb
    have go : ∀ t es, act a s = .go t → t.Undisturbed (writeCount as) → actEvents t = actEvents s →
        (∀ fs, as.foldl settle (t.emitted fs) = (a :: as).foldl settle (s.emitted (es ++ fs))) →
        actEvents s a = es →
        runActs (a :: as) s = .go ((a :: as).foldl settle (s.emitted ((a :: as).flatMap (actEvents s)))) := by
      intro t es e₁ hu e₂ e₃ e₄
      simp only [runActs, e₁, ih hb.2 hu, e₂]
      rw [e₃, List.flatMap_cons, e₄]
    have ev : ∀ es, act a s = .go (s.emitted es) → actEvents s a = es →
        s.Undisturbed ((xferBytes es).length + writeCount as) → (∀ t, settle t a = t) →
        runActs (a :: as) s = .go ((a :: as).foldl settle (s.emitted ((a :: as).flatMap (actEvents s)))) := by
      intro es e₁ e₂ hu e₃
      refine go _ es e₁ (State.Undisturbed.after es hu) (by funext x; cases x <;> rfl) (fun fs => ?_) e₂
      rw [State.emitted_append, List.foldl_cons, e₃]
    cases a with
    | openBus =>
      exact ev _ (openTransport_undisturbed h.1) rfl
        (by simpa [xferBytes, writeCount] using h) fun t => rfl
    | write b =>
      exact ev _ (expWrite_undisturbed b (h.mono (by simp [writeCount]))) rfl
        (by simpa [xferBytes, writeCount, Nat.add_comm] using h) fun t => rfl
    | wait t =>
      exact ev _ (wait_undisturbed t h.1) rfl (by simpa [xferBytes, writeCount] using h) fun t => rfl
    | setBl b => simp [keepsEvents] at hb
    | revive => simp [keepsEvents] at hb
    | repair => simp [keepsEvents] at hb
    | setFn v => exact go _ [] rfl h (by funext x; cases x <;> rfl) (fun fs => rfl) rfl
    | setCtl v => exact go _ [] rfl h (by funext x; cases x <;> rfl) (fun fs => rfl) rfl
    | setMode v => exact go _ [] rfl h (by funext x; cases x <;> rfl) (fun fs => rfl) rfl
    | ready => exact go _ [] rfl h (by funext x; cases x <;> rfl) (fun fs => rfl) rfl

/-! ## The layers' event lists -/

theorem sendActs_events (p : Params) (v m : Byte) : (sendActs p v m).all isEvent = true := rfl

theorem writeCount_sendActs (p : Params) (v m : Byte) : writeCount (sendActs p v m) = 6 := rfl

theorem write4Acts_flatMap (s : State) (n : Byte) :
    (write4Acts s.params n).flatMap (actEvents s) = s.nibbleEvents n := rfl

theorem sendActs_flatMap (s : State) (v m : Byte) :
    (sendActs s.params v m).flatMap (actEvents s) = s.byteEvents v m := rfl

theorem nibbleEvents_xfers (a : BusAddr) (p : Params) (bl n : Byte) :
    (xferBytes (nibbleEvents a p bl n)).length = 3 := rfl

@[simp] theorem byteEvents_xfers (s : State) (v m : Byte) : (xferBytes (s.byteEvents v m)).length = 6 := rfl

/-- One byte transaction, undisturbed. -/
theorem runActs_send {s : State} (v m : Byte) (h : s.Undisturbed 6) :
    runActs (sendActs s.params v m) s = .go (s.emitted (s.byteEvents v m)) :=
  runActs_events _ (sendActs_events _ v m) h

/-! ## The end of a list of actions -/

@[simp] theorem Flow.rest_state (f : Flow) : f.rest.state = f.state.rest := by cases f <;> rfl

theorem runOp_state (as : List Act) (s : State) : (runOp as s).state = (runActs as s).state.rest :=
  Flow.rest_state _

theorem State.rest_rest (s : State) : s.rest.rest = s.rest := by
  simp [State.rest]

/-- Where the receivers await the high nibble of a pair that is whole, an operation's end changes nothing. -/
theorem State.rest_of_whole {s : State} (h : s.panel.pairing = .whole)
    (ha : s.panel.awaitsPair s.params = true) : s.rest = s := by
  unfold State.rest
  rw [Panel.rest_of_whole h ha]

/-- An operation of nothing but events, undisturbed. -/
theorem runOp_events (as : List Act) {s : State} (he : as.all isEvent = true)
    (h : s.Undisturbed (writeCount as)) :
    runOp as s = .go (s.emitted (as.flatMap (actEvents s))).rest := by
  rw [runOp, runActs_events as he h]
  rfl

/-! ## Properties every action keeps -/

/-- A property kept by every action, whether the operation goes on or stops there, is kept by a list of
actions. -/
theorem runActs_keeps (P : State → Prop) (as : List Act) {s : State}
    (hact : ∀ a ∈ as, ∀ t, P t → P (act a t).state) (h : P s) : P (runActs as s).state := by
  induction as generalizing s with
  | nil => exact h
  | cons a as ih =>
    have h₁ := hact a List.mem_cons_self s h
    simp only [runActs]
    cases e : act a s with
    | go t =>
      rw [e] at h₁
      exact ih (fun b hb => hact b (List.mem_cons_of_mem a hb)) h₁
    | halt t =>
      rw [e] at h₁
      exact h₁

/-- As `runActs_keeps`, with one property `P` of the states in which the operation goes on and another, `Q`, of
those in which it stops. -/
theorem runActs_walk (P Q : State → Prop) (as : List Act) {s : State}
    (go : ∀ a ∈ as, ∀ t u, P t → act a t = .go u → P u)
    (halt : ∀ a ∈ as, ∀ t u, P t → act a t = .halt u → Q u) (h : P s) :
    (∀ u, runActs as s = .go u → P u) ∧ ∀ u, runActs as s = .halt u → Q u := by
  induction as generalizing s with
  | nil =>
    refine ⟨fun u e => ?_, fun u e => by cases e⟩
    simp only [runActs, Flow.go.injEq] at e
    exact e ▸ h
  | cons a as ih =>
    cases e : act a s with
    | go t =>
      have h₁ := go a List.mem_cons_self s t h e
      have h₂ := ih (fun b hb => go b (List.mem_cons_of_mem a hb))
        (fun b hb => halt b (List.mem_cons_of_mem a hb)) h₁
      simpa only [runActs, e] using h₂
    | halt t =>
      have h₁ := halt a List.mem_cons_self s t h e
      simp only [runActs, e]
      exact ⟨fun u e => by simp at e, fun u e => by simp only [Flow.halt.injEq] at e; exact e ▸ h₁⟩

/-- What `emit` can do: stop at a reset, or go on from the state with the event appended. -/
theorem emit_cases (e : Event) (s : State) (k : State → Flow) :
    (s.resetIn = some 0 ∧ emit e s k = .halt s.hardReset) ∨
      (s.resetIn ≠ some 0 ∧ emit e s k = k (s.push e)) := by
  unfold emit
  split <;> simp_all

/-- What a transport write can do: stop at a reset; stop at a failed transaction, its event in the trace and
`BUS_FAIL` raised; or go on. -/
theorem expWrite_cases (b : Byte) (s : State) :
    (s.resetIn = some 0 ∧ expWrite b s = .halt s.hardReset) ∨
      (s.resetIn ≠ some 0 ∧ s.params.propagateBusErr = true ∧ drawFailed (s.drawAt s.sent) = true ∧
        expWrite b s = .halt (((s.push (.xfer s.addr (b ||| s.blv))).transact (b ||| s.blv)).raise .busFail)) ∨
      (s.resetIn ≠ some 0 ∧ (s.params.propagateBusErr && drawFailed (s.drawAt s.sent)) = false ∧
        expWrite b s = .go ((s.push (.xfer s.addr (b ||| s.blv))).transact (b ||| s.blv))) := by
  have e : (s.push (.xfer s.addr (b ||| s.blv))).drawAt = s.drawAt := rfl
  simp only [expWrite, xfer, emit, State.push_params, State.push_sent, e]
  by_cases h : s.resetIn = some 0
  · exact .inl ⟨h, by simp [h]⟩
  · cases hp : s.params.propagateBusErr && drawFailed (s.drawAt s.sent) with
    | false => exact .inr (.inr ⟨h, rfl, by simp [h]⟩)
    | true =>
      simp only [Bool.and_eq_true] at hp
      exact .inr (.inl ⟨h, hp.1, hp.2, by simp [h]⟩)

/-- What an action that is an event can do: stop at a reset that is due; or append its one event, change nothing
else but the receivers and the draw counter, and then go on or, at a failed transport write, raise `BUS_FAIL`. -/
theorem act_event_cases {a : Act} (ha : isEvent a = true) (s : State) :
    (s.resetIn = some 0 ∧ act a s = .halt s.hardReset) ∨
      ∃ (e : Event) (n : Nat) (pan : Panel), s.resetIn ≠ some 0 ∧ actEvents s a = [e] ∧
        (s.panel.Canon → pan.Canon) ∧
        (act a s = .go { s.push e with sent := n, panel := pan } ∨
          s.params.propagateBusErr = true ∧
            act a s = .halt (State.raise .busFail { s.push e with sent := n, panel := pan })) := by
  cases a with
  | openBus =>
    rcases emit_cases (.openBus s.addr (if s.pinsSet then s.pins else s.params.pinsDefault)) s .go with h | h
    · exact .inl h
    · exact .inr ⟨_, s.sent, s.panel, h.1, rfl, id, .inl h.2⟩
  | wait t =>
    simp only [act, wait]
    rcases emit_cases (.wait t) s _ with h | h
    · exact .inl h
    · refine .inr ⟨.wait t, s.sent, if (s.push (.wait t)).resetIn = some 0 then s.panel else s.panel.elapse t,
        h.1, rfl, fun hc => ?_, .inl ?_⟩
      · split
        · exact hc
        · exact Panel.elapse_canon t hc
      · rw [h.2]
        split <;> rfl
  | write b =>
    rcases expWrite_cases b s with h | h | h
    · exact .inl h
    · exact .inr ⟨_, _, _, h.1, rfl, Panel.receive_canon _ _ _ _ _, .inr ⟨h.2.1, h.2.2.2⟩⟩
    · exact .inr ⟨_, _, _, h.1, rfl, Panel.receive_canon _ _ _ _ _, .inl h.2.2⟩
  | _ => simp [isEvent] at ha

/-! ## The pairing of nibbles (R243) -/

/-- No action but `BEGIN`'s last makes a pairing whole that is not. -/
theorem act_pairing {a : Act} (ha : a ≠ .repair) {s : State} (h : s.panel.pairing ≠ .whole) :
    (act a s).state.panel.pairing ≠ .whole := by
  cases a with
  | openBus =>
    rcases emit_cases (.openBus s.addr (if s.pinsSet then s.pins else s.params.pinsDefault)) s .go with e | e <;>
      (simp only [act, openTransport, e.2, Flow.state]; exact h)
  | wait t =>
    simp only [act, wait]
    rcases emit_cases (.wait t) s _ with e | e
    · rw [e.2]
      exact h
    · rw [e.2]
      simp only [Flow.state]
      split <;> exact h
  | write b =>
    have keep : ∀ r k x, (s.panel.receive s.params r k s.addr x).pairing ≠ .whole := by
      intro r k x
      rcases Panel.receive_pairing s.params r k s.addr x s.panel with e | e <;> rw [e]
      · exact h
      · simp
    rcases expWrite_cases b s with e | e | e
    · simp only [act, e.2]
      exact h
    · simp only [act, e.2.2.2]
      exact keep _ _ _
    · simp only [act, e.2.2]
      exact keep _ _ _
  | revive => simp [act, Flow.state, Panel.revive]
  | repair => exact absurd rfl ha
  | _ => exact h

/-- So an operation that is not `BEGIN` never makes the pairing whole. -/
theorem runOp_pairing (as : List Act) {s : State} (ha : Act.repair ∉ as) (h : s.panel.pairing ≠ .whole) :
    (runOp as s).state.panel.pairing ≠ .whole := by
  have k := runActs_keeps (fun t => t.panel.pairing ≠ .whole) as
    (fun a hm t ht => act_pairing (fun e => ha (e ▸ hm)) ht) h
  rw [runOp_state, State.rest_panel]
  exact fun e => k (Panel.rest_whole.1 e).1

/-! ## Two runs of one list -/

/-- Two flows that both go on, in states related by `R`, or both stop, in states related by `Q`. -/
def Flow.Related (R Q : State → State → Prop) : Flow → Flow → Prop
  | .go s, .go t => R s t
  | .halt s, .halt t => Q s t
  | _, _ => False

/-- Related states stay related along a list, where every action keeps them so. -/
theorem runActs_related (R Q : State → State → Prop) (as : List Act) {s t : State}
    (hact : ∀ a ∈ as, ∀ u v, R u v → Flow.Related R Q (act a u) (act a v)) (h : R s t) :
    Flow.Related R Q (runActs as s) (runActs as t) := by
  induction as generalizing s t with
  | nil => exact h
  | cons a as ih =>
    have h₁ := hact a List.mem_cons_self s t h
    simp only [runActs]
    cases e : act a s <;> cases f : act a t <;> rw [e, f] at h₁
    · exact ih (fun b hb => hact b (List.mem_cons_of_mem a hb)) h₁
    · exact False.elim h₁
    · exact False.elim h₁
    · exact h₁

end Sys2Proof.Machine
end

