-- ==== Sys2Proof/Laws/Plan.lean ====
section
/-! SUPPORT. Every meaning in one form: admitted, it raises a fault, writes configuration registers, or walks a
list of actions (`plan`). Claims over all instructions start from `exec_eq_plan` and what `exec_next` says a
next state can be, and need not unfold the meanings again. -/

namespace Sys2Proof.Machine

/-- What an admitted instruction does. -/
inductive Plan where
  | fail (c : FaultCode)
  | set (t : State)
  | run (as : List Act)

/-- Carry a plan out. -/
def Plan.flow (s : State) : Plan → Flow
  | .fail c => .halt (s.raise c)
  | .set t => .go t
  | .run as => runOp as s

/-- A READY-only plan. -/
def Plan.ready (s : State) (p : Plan) : Plan := if s.mode = .ready then p else .fail .notReady

/-- A CONFIG-only plan. -/
def Plan.config (s : State) (p : Plan) : Plan := if s.mode = .config then p else .fail .cfgLocked

/-- The plan of each instruction in each state. -/
def plan (i : Instr) (s : State) : Plan :=
  match i with
  | .cfgAddr a => Plan.config s (.set { s with addr := a, addrSet := true })
  | .cfgGeom c r =>
    Plan.config s (if r = 0 then .fail .cfgInvalid else .set { s with cols := c, rows := r, geomSet := true })
  | .cfgFont f => Plan.config s (.set { s with charSize := f })
  | .cfgPins p => Plan.config s (.set { s with pins := p, pinsSet := true })
  | .cfgBl b => Plan.config s (.set { s with bl := b })
  | .beginInit => if s.addrSet && s.geomSet then .run (beginActs s) else .fail .cfgMissing
  | .expw b => Plan.ready s (.run [.write b])
  | .pulse b => Plan.ready s (.run (pulseActs s.params b))
  | .w4 n => Plan.ready s (.run (write4Acts s.params n))
  | .send v m =>
    Plan.ready s (if m = 0 ∨ m = s.params.expRs then .run (sendActs s.params v m) else .fail .badMode)
  | .cmd v => Plan.ready s (.run (cmdActs s.params v))
  | .putc v => Plan.ready s (.run (dataActs s.params v))
  | .clear => Plan.ready s (.run (longCmdActs s.params (HdInstr.byte .clear)))
  | .home => Plan.ready s (.run (longCmdActs s.params (HdInstr.byte (.home false))))
  | .setCursor col row =>
    Plan.ready s
      (match rowBase (effectiveRow s.rows row) with
       | none => .fail .rowUnsupported
       | some base => .run (cmdActs s.params (ddramCommand base col)))
  | .createChar l g => Plan.ready s (.run (glyphActs s.params l g))
  | .setBl on => Plan.ready s (.run [.setBl on, .write 0x00])
  | .dctl f v =>
    Plan.ready s
      (.run (.setCtl (dctlApply s.dispCtl f v) :: cmdActs s.params (ctlCommand (dctlApply s.dispCtl f v))))
  | .hdClear => Plan.ready s (.run (cmdActs s.params (HdInstr.byte .clear)))
  | .hdHome x => Plan.ready s (.run (cmdActs s.params (HdInstr.byte (.home x))))
  | .hdEntryMode i sh => Plan.ready s (.run (cmdActs s.params (HdInstr.byte (.entryMode i sh))))
  | .hdDispCtl d c b => Plan.ready s (.run (cmdActs s.params (HdInstr.byte (.dispCtl d c b))))
  | .hdShift sc rl x => Plan.ready s (.run (cmdActs s.params (HdInstr.byte (.shift sc rl x))))
  | .hdFuncSet l n f x => Plan.ready s (.run (cmdActs s.params (HdInstr.byte (.funcSet l n f x))))
  | .hdFuncSetNibble8 => Plan.ready s (.run (write4Acts s.params wideNibbleByte))
  | .hdFuncSetNibble4 => Plan.ready s (.run (write4Acts s.params narrowNibbleByte))
  | .hdSetCgram a => Plan.ready s (.run (cmdActs s.params (HdInstr.byte (.setCgram a))))
  | .hdSetDdram a => Plan.ready s (.run (cmdActs s.params (HdInstr.byte (.setDdram a))))
  | .hdData d => Plan.ready s (.run (dataActs s.params d))
  | .xferByte d l e w r => Plan.ready s (.run [.write (busByte s.params d l e w r)])

theorem accept_congr (s : State) (f g : State → Flow) (h : f s = g s) : accept s f = accept s g := by
  unfold accept
  rw [h]

/-- Every meaning is its plan, admitted. -/
theorem exec_eq_plan (i : Instr) (s : State) : exec i s = accept s fun _ => (plan i s).flow s := by
  cases i <;>
  simp only [exec, execCfgAddr, execCfgGeom, execCfgFont, execCfgPins, execCfgBl, execBegin, execExpw, execPulse,
    execW4, execSend, execCmd, execPutc, execClear, execHome, execSetCursor, execCreateChar,
    execSetBl, execDctl, execHdClear, execHdHome, execHdEntryMode, execHdDispCtl, execHdShift,
    execHdFuncSet, execHdFuncSetNibble8, execHdFuncSetNibble4, execHdSetCgram, execHdSetDdram,
    execHdData, execXferByte,
    inReady, inConfig, actsInReady] <;>
  apply accept_congr <;>
  simp only [plan, Plan.ready, Plan.config, setCursor] <;>
  (repeat' split) <;> simp_all [Plan.flow]

/-- A next state is an admitted instruction's plan, carried out and ended. -/
theorem exec_next {i : Instr} {s t : State} (h : exec i s = .next t) :
    s.params.wf = true ∧ s.mode ≠ .faulted ∧ t = ((plan i s).flow s).state.endOperation := by
  rw [exec_eq_plan] at h
  unfold accept at h
  split at h
  · rename_i hw
    split at h
    · cases h
    · rename_i hm
      refine ⟨hw, fun e => hm e, ?_⟩
      simp only [Flow.finish, Host.Outcome.next.injEq] at h
      exact h.symm
  · cases h

/-- An admitted instruction whose operation nothing cuts short answers the state its plan reaches. -/
theorem exec_of_flow {i : Instr} {s : State} {f : Flow} (hw : s.params.wf = true) (hm : s.mode ≠ .faulted)
    (hf : (plan i s).flow s = f) (hr : f.state.resetIn = none) : exec i s = .next f.state := by
  rw [exec_eq_plan]
  unfold accept
  rw [if_pos hw]
  split
  · rename_i e; exact absurd e hm
  · rw [hf]
    unfold Flow.finish State.endOperation
    rw [if_neg (by simp [hr])]
    cases h : f.state
    simp_all

end Sys2Proof.Machine
end

