-- ==== Sys2Proof/Laws/Completion.lean ====
section
/-! SUPPORT. When an instruction answers which next state: a fault before any event, or the events of a list of
actions that nothing cuts short; and what a next state can be where the host lets the operation finish
(`exec_quiet`). -/

namespace Sys2Proof.Machine

theorem State.Ready.ne_faulted {s : State} (h : s.Ready) : s.mode ≠ .faulted := by rw [h.2]; decide

theorem State.InConfig.ne_faulted {s : State} (h : s.InConfig) : s.mode ≠ .faulted := by rw [h.2]; decide

/-- A plan that is a fault: nothing but `FAULT` and `MODE` changes. -/
theorem exec_of_fail {i : Instr} {s : State} {c : FaultCode} (hw : s.params.wf = true)
    (hm : s.mode ≠ .faulted) (hr : s.resetIn = none) (hp : plan i s = .fail c) :
    exec i s = .next (s.faultedBy c) :=
  exec_of_flow (f := .halt (s.raise c)) hw hm (by rw [hp]; rfl) hr

/-- A READY-only list of nothing but events, undisturbed: it emits them and changes no register. -/
theorem exec_events {i : Instr} {s : State} (as : List Act) (h : s.Ready)
    (hp : plan i s = Plan.ready s (.run as)) (he : as.all isEvent = true)
    (hu : s.Undisturbed (writeCount as)) :
    exec i s = .next (s.emitted (as.flatMap (actEvents s))).rest :=
  exec_of_flow (f := .go (s.emitted (as.flatMap (actEvents s))).rest) h.1 h.ne_faulted
    (by rw [hp, Plan.ready, if_pos h.2]; exact runOp_events as he hu) hu.1

/-! ## What a next state can be -/

/-- Without a reset due, the end of an operation changes nothing. -/
theorem State.endOperation_quiet {t : State} (h : t.resetIn = none) : t.endOperation = t := by
  unfold State.endOperation
  rw [if_neg (by simp [h])]
  cases t
  simp_all

/-- A plan that only writes registers is a configuration setter's, and leaves everything else alone. -/
theorem plan_set {i : Instr} {s t : State} (h : plan i s = .set t) :
    s.mode = .config ∧ t.mode = s.mode ∧ t.fault = s.fault ∧ t.resetIn = s.resetIn ∧ t.trace = s.trace ∧
      t.params = s.params ∧ t.panel = s.panel ∧ t.sent = s.sent ∧ t.busScript = s.busScript ∧
      t.port = s.port ∧ t.dispFn = s.dispFn ∧ t.dispCtl = s.dispCtl ∧ t.dispMode = s.dispMode := by
  cases i <;> simp only [plan, Plan.ready, Plan.config] at h <;> (repeat' split at h) <;>
    (first
     | (cases h; done)
     | (simp only [Plan.set.injEq] at h; subst h; simp_all))

/-- `CREATECHAR`'s list is nothing but events, whatever the glyph. -/
theorem glyphActs_events (p : Params) (loc : Byte) (g : List Byte) : (glyphActs p loc g).all isEvent = true := by
  have h : ∀ g : List Byte, (g.flatMap (dataActs p)).all isEvent = true := by
    intro g
    induction g with
    | nil => rfl
    | cons b g ih =>
      rw [List.flatMap_cons, List.all_append, ih]
      rfl
  rw [glyphActs, List.all_append, h]
  rfl

/-- The list an instruction walks: it needs `READY`, but for `BEGIN`; and it is nothing but events, but for
`BEGIN`, `SETBL` and `DCTL`. -/
theorem plan_run {i : Instr} {s : State} {as : List Act} (h : plan i s = .run as) :
    (i = .beginInit ∧ s.addrSet = true ∧ s.geomSet = true ∧ as = beginActs s) ∨
      s.mode = .ready ∧
        (as.all isEvent = true ∨ (∃ on, i = .setBl on ∧ as = [.setBl on, .write 0x00]) ∨
          ∃ f v, i = .dctl f v ∧
            as = .setCtl (dctlApply s.dispCtl f v) :: cmdActs s.params (ctlCommand (dctlApply s.dispCtl f v))) := by
  cases i with
  | beginInit =>
    simp only [plan] at h
    split at h
    · rename_i hg
      simp only [Bool.and_eq_true] at hg
      simp only [Plan.run.injEq] at h
      exact .inl ⟨rfl, hg.1, hg.2, h.symm⟩
    · cases h
  | createChar l g =>
    simp only [plan, Plan.ready] at h
    split at h
    · rename_i hm
      simp only [Plan.run.injEq] at h
      exact .inr ⟨hm, .inl (h ▸ glyphActs_events _ _ _)⟩
    · cases h
  | setBl on =>
    simp only [plan, Plan.ready] at h
    split at h
    · rename_i hm
      simp only [Plan.run.injEq] at h
      exact .inr ⟨hm, .inr (.inl ⟨on, rfl, h.symm⟩)⟩
    · cases h
  | dctl f v =>
    simp only [plan, Plan.ready] at h
    split at h
    · rename_i hm
      simp only [Plan.run.injEq] at h
      exact .inr ⟨hm, .inr (.inr ⟨f, v, rfl, h.symm⟩)⟩
    · cases h
  | _ =>
    simp only [plan, Plan.ready, Plan.config] at h
    (repeat' split at h) <;>
      first
      | (cases h; done)
      | (simp only [Plan.run.injEq] at h
         subst h
         exact .inr ⟨by assumption, .inl rfl⟩)

/-- A plan never raises `BUS_FAIL`: only a transport write does. -/
theorem plan_fail {i : Instr} {s : State} {c : FaultCode} (h : plan i s = .fail c) : c ≠ .busFail := by
  rintro rfl
  cases i <;> simp only [plan, Plan.ready, Plan.config] at h <;> (repeat' split at h) <;> simp at h

/-- One action, no reset due: it goes on with the bus address, the fault and the parameters as before and events
appended, or it is a failed transport write. -/
theorem act_quiet (a : Act) {t : State} (hr : t.resetIn = none) :
    (∀ u, act a t = .go u → u.resetIn = none ∧ u.params = t.params ∧ u.addr = t.addr ∧ u.fault = t.fault ∧
      ∃ es, u.trace = t.trace ++ es) ∧
    ∀ u, act a t = .halt u → t.params.propagateBusErr = true ∧ u.resetIn = none ∧
      u.fault = some .busFail ∧ u.mode = .faulted ∧ ∃ b, u.trace = t.trace ++ [.xfer t.addr b] := by
  cases a with
  | openBus => simp [act, openTransport_undisturbed hr, State.emitted, hr]
  | wait n => simp [act, wait_undisturbed n hr, State.emitted, hr]
  | write b =>
    rcases expWrite_cases b t with h | h | h
    · simp [hr] at h
    · simp [act, h.2.2.2, h.2.1, hr]
    · simp [act, h.2.2, hr]
  | _ => simp [act, hr]

/-- As `act_quiet`, for a list of actions. -/
theorem runActs_quiet (as : List Act) {s : State} (hr : s.resetIn = none) :
    (∀ u, runActs as s = .go u → u.resetIn = none ∧ u.params = s.params ∧ u.addr = s.addr ∧
      u.fault = s.fault ∧ ∃ es, u.trace = s.trace ++ es) ∧
    ∀ u, runActs as s = .halt u → s.params.propagateBusErr = true ∧ u.resetIn = none ∧
      u.fault = some .busFail ∧ u.mode = .faulted ∧ ∃ es b, u.trace = s.trace ++ es ++ [.xfer s.addr b] := by
  refine runActs_walk _ _ as ?_ ?_ ⟨hr, rfl, rfl, rfl, [], by simp⟩
  · rintro a - t u ⟨h₁, h₂, h₃, h₄, es, h₅⟩ h
    obtain ⟨g₁, g₂, g₃, g₄, fs, g₅⟩ := (act_quiet a h₁).1 u h
    exact ⟨g₁, g₂.trans h₂, g₃.trans h₃, g₄.trans h₄, es ++ fs, by rw [g₅, h₅, List.append_assoc]⟩
  · rintro a - t u ⟨h₁, h₂, h₃, h₄, es, h₅⟩ h
    obtain ⟨g₁, g₂, g₃, g₄, b, g₅⟩ := (act_quiet a h₁).2 u h
    exact ⟨h₂ ▸ g₁, g₂, g₃, g₄, es, b, by rw [g₅, h₅, h₃]⟩

/-- Every way to a next state where no reset is due: a fault before any event, a setter's write, a completed list
of actions, or a list that stopped at a failed transport write. -/
theorem exec_quiet {i : Instr} {s t : State} (hr : s.resetIn = none) (h : exec i s = .next t) :
    (∃ c, plan i s = .fail c ∧ c ≠ .busFail ∧ t = s.faultedBy c) ∨ plan i s = .set t ∨
      (∃ as u, plan i s = .run as ∧ runActs as s = .go u ∧ t = u.rest) ∨
      ∃ as u, plan i s = .run as ∧ runActs as s = .halt u ∧ t = u.rest := by
  obtain ⟨-, -, e⟩ := exec_next h
  cases hp : plan i s with
  | fail c =>
    rw [hp] at e
    refine .inl ⟨c, rfl, plan_fail hp, e.trans (State.endOperation_quiet ?_)⟩
    exact hr
  | set u =>
    rw [hp] at e
    refine .inr (.inl ?_)
    rw [e]
    exact congrArg _ (State.endOperation_quiet ((plan_set hp).2.2.2.1.trans hr)).symm
  | run as =>
    rw [hp] at e
    simp only [Plan.flow, runOp_state] at e
    have q := runActs_quiet as hr
    cases hf : runActs as s with
    | go u =>
      rw [hf] at e
      exact .inr (.inr (.inl ⟨as, u, rfl, hf, e.trans (State.endOperation_quiet (t := u.rest) (q.1 u hf).1)⟩))
    | halt u =>
      rw [hf] at e
      exact .inr (.inr (.inr ⟨as, u, rfl, hf, e.trans (State.endOperation_quiet (t := u.rest) (q.2 u hf).2.1)⟩))

end Sys2Proof.Machine
end

