-- ==== Sys2Proof/Laws/Params.lean ====
section
/-! SUPPORT. Legal parameters (00_scope.md R8) are the 24 assignments of the four lines to the four low bits.
What follows from that about `hasBit` and masks is stated once here (`Lines`), so that no later proof counts
the assignments again. -/

namespace Sys2Proof

/-- The four bytes a line can have (R7). -/
def lineBytes : List Byte := [0x01, 0x02, 0x04, 0x08]

/-- The legal assignments, as (RS, RW, EN, BL). -/
def lineOrders : List (Byte × Byte × Byte × Byte) :=
  lineBytes.flatMap fun rs => lineBytes.flatMap fun rw => lineBytes.flatMap fun en =>
    lineBytes.flatMap fun bl =>
      if rs != rw && rs != en && rs != bl && rw != en && rw != bl && en != bl then [(rs, rw, en, bl)] else []

theorem mem_lineBytes {b : Byte} (h : Params.legalLine b = true) : b ∈ lineBytes := by
  simp only [Params.legalLine, Bool.or_eq_true, beq_iff_eq] at h
  simp only [lineBytes, List.mem_cons, List.not_mem_nil, or_false]
  tauto

/-- Legal parameters are one of the legal assignments. -/
theorem Params.wf_lines {p : Params} (h : p.wf = true) :
    (p.expRs, p.expRw, p.expEn, p.expBl) ∈ lineOrders := by
  simp only [Params.wf, Bool.and_eq_true] at h
  obtain ⟨⟨⟨⟨⟨⟨⟨⟨⟨⟨h₁, h₂⟩, h₃⟩, h₄⟩, h₅⟩, h₆⟩, h₇⟩, h₈⟩, h₉⟩, h₁₀⟩, _⟩ := h
  simp only [lineOrders, List.mem_flatMap]
  exact ⟨_, mem_lineBytes h₁, _, mem_lineBytes h₂, _, mem_lineBytes h₃, _, mem_lineBytes h₄, by
    simp [h₅, h₆, h₇, h₈, h₉, h₁₀]⟩

/-! ## Bits of composed bytes -/

theorem hasBit_or (a b m : Byte) : hasBit (a ||| b) m = (hasBit a m || hasBit b m) := by
  have h : (a ||| b) &&& m = (a &&& m) ||| (b &&& m) := by
    ext i; simp [Bool.and_or_distrib_right]
  rw [Bool.eq_iff_iff]
  simp only [hasBit, h, Bool.or_eq_true, bne_iff_ne, ne_eq, BitVec.ofNat_eq_ofNat,
    BitVec.or_eq_zero_iff]
  tauto

theorem hasBit_flagBit (b : Bool) (x m : Byte) : hasBit (flagBit b x) m = (b && hasBit x m) := by
  cases b <;> simp [flagBit, hasBit]

@[simp] theorem hasBit_zero (m : Byte) : hasBit 0 m = false := by simp [hasBit]

/-- A one-bit mask of the low half sees nothing of a byte whose low half is 0. -/
theorem hasBit_high {b m : Byte} (hm : m &&& 0xF0 = 0) (hb : b &&& 0x0F = 0) : hasBit b m = false := by
  have h : b &&& 0xF0 = b := by revert b; decide
  have : b &&& m = 0 := by
    rw [← h, BitVec.and_assoc, BitVec.and_comm 0xF0 m, hm]
    simp
  simp [hasBit, this]

/-- What legal lines are to each other and to the data nibble. -/
structure Lines (p : Params) : Prop where
  rs_high : p.expRs &&& 0xF0 = 0
  rw_high : p.expRw &&& 0xF0 = 0
  en_high : p.expEn &&& 0xF0 = 0
  bl_high : p.expBl &&& 0xF0 = 0
  rs_ne : p.expRs ≠ 0
  rs_rs : hasBit p.expRs p.expRs = true
  rw_rw : hasBit p.expRw p.expRw = true
  en_en : hasBit p.expEn p.expEn = true
  bl_bl : hasBit p.expBl p.expBl = true
  rs_rw : hasBit p.expRs p.expRw = false
  rs_en : hasBit p.expRs p.expEn = false
  rs_bl : hasBit p.expRs p.expBl = false
  rw_rs : hasBit p.expRw p.expRs = false
  rw_en : hasBit p.expRw p.expEn = false
  rw_bl : hasBit p.expRw p.expBl = false
  en_rs : hasBit p.expEn p.expRs = false
  en_rw : hasBit p.expEn p.expRw = false
  en_bl : hasBit p.expEn p.expBl = false
  bl_rs : hasBit p.expBl p.expRs = false
  bl_rw : hasBit p.expBl p.expRw = false
  bl_en : hasBit p.expBl p.expEn = false

theorem Params.lines {p : Params} (h : p.wf = true) : Lines p := by
  have m := Params.wf_lines h
  have pick : ∀ f : Byte × Byte × Byte × Byte → Bool, (lineOrders.all f) = true →
      f (p.expRs, p.expRw, p.expEn, p.expBl) = true := fun f hf => List.all_eq_true.1 hf _ m
  constructor
  · simpa using pick (fun q => q.1 &&& 0xF0 == 0) (by decide)
  · simpa using pick (fun q => q.2.1 &&& 0xF0 == 0) (by decide)
  · simpa using pick (fun q => q.2.2.1 &&& 0xF0 == 0) (by decide)
  · simpa using pick (fun q => q.2.2.2 &&& 0xF0 == 0) (by decide)
  · simpa using pick (fun q => q.1 != 0) (by decide)
  · exact pick (fun q => hasBit q.1 q.1) (by decide)
  · exact pick (fun q => hasBit q.2.1 q.2.1) (by decide)
  · exact pick (fun q => hasBit q.2.2.1 q.2.2.1) (by decide)
  · exact pick (fun q => hasBit q.2.2.2 q.2.2.2) (by decide)
  · simpa using pick (fun q => !hasBit q.1 q.2.1) (by decide)
  · simpa using pick (fun q => !hasBit q.1 q.2.2.1) (by decide)
  · simpa using pick (fun q => !hasBit q.1 q.2.2.2) (by decide)
  · simpa using pick (fun q => !hasBit q.2.1 q.1) (by decide)
  · simpa using pick (fun q => !hasBit q.2.1 q.2.2.1) (by decide)
  · simpa using pick (fun q => !hasBit q.2.1 q.2.2.2) (by decide)
  · simpa using pick (fun q => !hasBit q.2.2.1 q.1) (by decide)
  · simpa using pick (fun q => !hasBit q.2.2.1 q.2.1) (by decide)
  · simpa using pick (fun q => !hasBit q.2.2.1 q.2.2.2) (by decide)
  · simpa using pick (fun q => !hasBit q.2.2.2 q.1) (by decide)
  · simpa using pick (fun q => !hasBit q.2.2.2 q.2.1) (by decide)
  · simpa using pick (fun q => !hasBit q.2.2.2 q.2.2.1) (by decide)

/-- Clearing one line leaves the others, and the data nibble, as they are. -/
theorem hasBit_clear_other {p : Params} (b : Byte) {m : Byte} (hm : hasBit p.expEn m = false) :
    hasBit (b &&& ~~~p.expEn) m = hasBit b m := by
  simp only [hasBit, bne_eq_false_iff_eq] at hm
  have : b &&& ~~~p.expEn &&& m = b &&& m := by
    ext i hi
    have h₁ := congrArg (fun v : Byte => v.getLsbD i) hm
    simp only [BitVec.getLsbD_and] at h₁
    simp only [BitVec.getElem_and, BitVec.getElem_not]
    cases h₂ : p.expEn.getLsbD i <;> cases h₃ : m.getLsbD i <;> simp_all
  simp [hasBit, this]

theorem hasBit_clear_same (b m : Byte) : hasBit (b &&& ~~~m) m = false := by
  have : b &&& ~~~m &&& m = 0 := by
    ext i hi
    cases h : m.getLsbD i <;> simp_all
  simp [hasBit, this]

/-- A line's bit is in the low half of a byte. -/
theorem hasBit_low (b : Byte) {m : Byte} (hm : m &&& 0xF0 = 0) : hasBit b m = hasBit (b &&& 0x0F) m := by
  have : m &&& 0x0F = m := by revert m; decide
  have e : b &&& 0x0F &&& m = b &&& m := by rw [BitVec.and_assoc, BitVec.and_comm 0x0F m, this]
  rw [hasBit, hasBit, e]

/-- Clearing a bit that is not set changes nothing. -/
theorem clear_of_not_hasBit {b m : Byte} (h : hasBit b m = false) : b &&& ~~~m = b := by
  simp only [hasBit, bne_eq_false_iff_eq] at h
  ext i hi
  have h₁ := congrArg (fun v : Byte => v.getLsbD i) h
  simp only [BitVec.getLsbD_and] at h₁
  simp only [BitVec.getElem_and, BitVec.getElem_not]
  cases h₂ : b.getLsbD i <;> cases h₃ : m.getLsbD i <;> simp_all

/-- The data nibble of a byte is not changed by the lines below it. -/
theorem data_or_line (b : Byte) {m : Byte} (hm : m &&& 0xF0 = 0) :
    ((b ||| m) >>> 4).setWidth 4 = ((b >>> 4).setWidth 4 : Nibble) := by
  have : (m >>> 4).setWidth 4 = (0 : Nibble) := by revert m; decide
  simp [BitVec.ushiftRight_or_distrib, BitVec.setWidth_or, this]

end Sys2Proof
end

