-- ==== Sys2Proof/Laws/Link.lean ====
section
/-! SUPPORT. What a nibble transaction and a byte transaction do to the receivers, when all their bytes arrive
and the controller is done with what came before: one clean strobe, and one whole byte executed. -/

namespace Sys2Proof.Machine

/-! ## The controller does not look at the latch -/

theorem Panel.freeAddr_latch (k : Nat) (pan : Panel) (o : Byte) (h : Nat) :
    Panel.freeAddr k { pan with out := o, held := h } = { pan.freeAddr k with out := o, held := h } := rfl

theorem Panel.advance_latch (k : Nat) (pan : Panel) (o : Byte) (h : Nat) :
    Panel.advance k { pan with out := o, held := h } = { pan.advance k with out := o, held := h } := by
  have e : ∀ a, Panel.holds { pan with out := o, held := h } a = pan.holds a := fun a => rfl
  unfold Panel.advance
  rw [e]
  split <;> rfl

theorem Panel.dataWrite_latch (k : Nat) (d : Byte) (pan : Panel) (o : Byte) (h : Nat) :
    Panel.dataWrite k d { pan with out := o, held := h } = { pan.dataWrite k d with out := o, held := h } := by
  have e : ∀ a, Panel.holds { pan with out := o, held := h } a = pan.holds a := fun a => rfl
  unfold Panel.dataWrite
  simp only [e]
  cases pan.lcd.space <;> simp only <;> split
  · exact Panel.advance_latch k { pan with ddram := Memory.write pan.ddram pan.lcd.addr.toNat d } o h
  · rfl
  · exact Panel.advance_latch k { pan with cgram := Memory.write pan.cgram pan.lcd.addr.toNat d } o h
  · rfl

theorem Panel.obey_latch (k : Nat) (i : HdInstr) (pan : Panel) (o : Byte) (h : Nat) :
    Panel.obey k i { pan with out := o, held := h } = { pan.obey k i with out := o, held := h } := by
  cases i <;> rfl

/-- Executing a byte is the same whatever the latch holds and whatever delay was owed. -/
theorem Panel.execute_latch (k : Nat) (rs : Bool) (b : Byte) (pan : Panel) (o : Byte) (h u : Nat) :
    Panel.execute k rs b { pan with out := o, held := h, busy := u }
      = { pan.execute k rs b with out := o, held := h } := by
  unfold Panel.execute
  simp only
  split
  · exact Panel.dataWrite_latch k b { pan with lcd := { pan.lcd with high := none }, busy := settleUs } o h
  · split
    · exact Panel.obey_latch k _ { pan with lcd := { pan.lcd with high := none }, busy := settleUs } o h
    · rfl

theorem Panel.strobe_latch (k : Nat) (rs : Bool) (n : Nibble) (pan : Panel) (o : Byte) (h u : Nat) :
    Panel.strobe k rs n { pan with out := o, held := h, busy := u }
      = { pan.strobe k rs n with out := o, held := h } := by
  unfold Panel.strobe
  simp only
  split
  · exact Panel.execute_latch k _ _ pan o h u
  · split
    · rfl
    · split
      · rfl
      · exact Panel.execute_latch k _ _ pan o h u

/-! ## One nibble transaction -/

/-- A transport write that arrives is latched. -/
theorem Panel.receive_arrives {p : Params} {r : XferResult} (k : Nat) {a : BusAddr} (b : Byte) {pan : Panel}
    (ha : a = pan.busAddr) (hr : r ≠ .fail false) : pan.receive p r k a b = pan.latch p k b := by
  unfold Panel.receive
  rw [if_pos ha]
  cases r with
  | ok => rfl
  | fail reached => cases reached <;> simp_all

/-- A byte that does not let Enable fall: the latch takes it, nothing else; a pulse's width counts on where Enable
stays as it was. -/
theorem Panel.latch_no_fall {p : Params} (k : Nat) {b : Byte} {pan : Panel}
    (h : hasBit pan.out p.expEn = true → hasBit b p.expEn = true) :
    pan.latch p k b
      = { pan with out := b, held := if hasBit pan.out p.expEn = hasBit b p.expEn then pan.held else 0 } := by
  unfold Panel.latch
  cases ho : hasBit pan.out p.expEn <;> simp_all

/-- A byte that lets Enable fall cleanly: the strobe of the nibble on the data lines. -/
theorem Panel.latch_fall {p : Params} (k : Nat) {b : Byte} {pan : Panel}
    (he : hasBit pan.out p.expEn = true) (hb : hasBit b p.expEn = false) (hc : pan.strobeClean p b = true) :
    pan.latch p k b
      = { pan.strobe k (hasBit pan.out p.expRs) ((pan.out >>> 4).setWidth 4) with out := b, held := 0 } := by
  simp [Panel.latch, he, hb, hc]

/-- A transport write that arrives, Enable not high before it: the latch takes the byte, nothing else. -/
theorem Panel.receive_low {p : Params} {r : XferResult} (k : Nat) {a : BusAddr} (b : Byte) {pan : Panel}
    (ha : a = pan.busAddr) (hr : r ≠ .fail false) (he : hasBit pan.out p.expEn = false) :
    pan.receive p r k a b = { pan with out := b, held := if hasBit b p.expEn then 0 else pan.held } := by
  rw [Panel.receive_arrives k b ha hr, Panel.latch_no_fall k (by simp [he]), he]
  cases hasBit b p.expEn <;> rfl

/-- A transport write that arrives and lets Enable fall cleanly: the strobe of the nibble on the data lines. -/
theorem Panel.receive_fall {p : Params} {r : XferResult} (k : Nat) {a : BusAddr} (b : Byte) {pan : Panel}
    (ha : a = pan.busAddr) (hr : r ≠ .fail false) (he : hasBit pan.out p.expEn = true)
    (hb : hasBit b p.expEn = false) (hc : pan.strobeClean p b = true) :
    pan.receive p r k a b
      = { pan.strobe k (hasBit pan.out p.expRs) ((pan.out >>> 4).setWidth 4) with out := b, held := 0 } := by
  rw [Panel.receive_arrives k b ha hr, Panel.latch_fall k he hb hc]

/-- A nibble byte carries its nibble in bits 7:4 and below it nothing, or register select (R122). -/
def NibbleByte (p : Params) (n : Byte) : Prop := n &&& 0x0F = 0 ∨ n &&& 0x0F = p.expRs

/-- The bytes of a nibble transaction, line by line. -/
structure NibbleLines (p : Params) (n bl : Byte) : Prop where
  low_en : hasBit (n ||| bl) p.expEn = false
  high_en : hasBit (n ||| p.expEn ||| bl) p.expEn = true
  end_eq : (n &&& ~~~p.expEn) ||| bl = n ||| bl
  high_rw : hasBit (n ||| p.expEn ||| bl) p.expRw = false
  high_rs : hasBit (n ||| p.expEn ||| bl) p.expRs = decide (n &&& 0x0F = p.expRs)
  high_data : ((n ||| p.expEn ||| bl) >>> 4).setWidth 4 = ((n >>> 4).setWidth 4 : Nibble)
  still : ((n ||| p.expEn ||| bl) ^^^ (n ||| bl)) &&& ~~~(p.expEn ||| p.expBl) = 0

theorem nibbleLines {p : Params} (hp : p.wf = true) {n bl : Byte} (hn : NibbleByte p n)
    (hbl : bl = 0 ∨ bl = p.expBl) : NibbleLines p n bl := by
  have L := Params.lines hp
  have n_low : ∀ m : Byte, m &&& 0xF0 = 0 → hasBit p.expRs m = false → hasBit n m = false := by
    intro m hm h
    rw [hasBit_low n hm]
    rcases hn with hn | hn <;> rw [hn]
    · simp [hasBit]
    · exact h
  have bl_low : ∀ m : Byte, hasBit p.expBl m = false → hasBit bl m = false := by
    intro m h
    rcases hbl with hbl | hbl <;> rw [hbl]
    · simp [hasBit]
    · exact h
  have n_en := n_low _ L.en_high L.rs_en
  have bl_hi : bl &&& 0xF0 = 0 := by
    rcases hbl with hbl | hbl <;> rw [hbl]
    · rfl
    · exact L.bl_high
  have n_rs : hasBit n p.expRs = decide (n &&& 0x0F = p.expRs) := by
    rw [hasBit_low n L.rs_high]
    rcases hn with hn | hn <;> rw [hn]
    · have h : ¬ (0 : Byte) = p.expRs := Ne.symm L.rs_ne
      rw [hasBit_zero, decide_eq_false h]
    · simp [L.rs_rs]
  constructor
  · simp [hasBit_or, n_en, bl_low _ L.bl_en]
  · simp [hasBit_or, L.en_en]
  · rw [clear_of_not_hasBit n_en]
  · simp [hasBit_or, n_low _ L.rw_high L.rs_rw, L.en_rw, bl_low _ L.bl_rw]
  · simp [hasBit_or, n_rs, L.en_rs, bl_low _ L.bl_rs]
  · rw [data_or_line _ bl_hi, data_or_line _ L.en_high]
  · ext i hi
    simp only [BitVec.getElem_and, BitVec.getElem_xor, BitVec.getElem_or, BitVec.getElem_not]
    rcases hbl with hbl | hbl
    · subst hbl
      cases n[i] <;> cases p.expEn[i] <;> cases p.expBl[i] <;> simp
    · subst hbl
      cases n[i] <;> cases p.expEn[i] <;> cases p.expBl[i] <;> simp

/-- One nibble transaction whose three bytes arrive, Enable low before it and no delay owed: one strobe, 50 us
after it. -/
theorem Panel.sees_nibble {p : Params} (hp : p.wf = true) (draw : Nat → XferResult) (k : Nat) (a : BusAddr)
    {n bl : Byte} (hn : NibbleByte p n) (hbl : bl = 0 ∨ bl = p.expBl) {pan : Panel} (ha : a = pan.busAddr)
    (hd : ∀ j, j < 3 → draw (k + j) ≠ .fail false) (hb : pan.busy = 0)
    (he : hasBit pan.out p.expEn = false) :
    Panel.sees p draw k (nibbleEvents a p bl n) pan
      = { pan.strobe (k + 2) (decide (n &&& 0x0F = p.expRs)) ((n >>> 4).setWidth 4) with
          out := n ||| bl, held := 50
          busy := (pan.strobe (k + 2) (decide (n &&& 0x0F = p.expRs)) ((n >>> 4).setWidth 4)).busy - 50 } := by
  have N := nibbleLines hp hn hbl
  simp only [nibbleEvents, Panel.sees, N.end_eq]
  rw [Panel.receive_low k _ ha (by simpa using hd 0 (by omega)) he]
  rw [Panel.receive_low (k + 1) _ (by exact ha) (hd 1 (by omega)) (by simpa using N.low_en)]
  simp only [Panel.elapse, N.high_en, if_true]
  rw [Panel.receive_fall (k + 1 + 1) _ (by exact ha) (hd 2 (by omega)) (by simpa using N.high_en) N.low_en
    (by simp [Panel.strobeClean, hb, N.still, N.high_rw])]
  simp only [N.high_rs, N.high_data, Panel.strobe_latch]

/-! ## One byte transaction -/

theorem modeByte_low {p : Params} (hp : p.wf = true) {m : Byte} (hm : m = 0 ∨ m = p.expRs) :
    m &&& 0xF0 = 0 ∧ m &&& 0x0F = m := by
  have h : m &&& 0xF0 = 0 := by
    rcases hm with hm | hm <;> rw [hm]
    · rfl
    · exact (Params.lines hp).rs_high
  have low : ∀ x : Byte, x &&& 0xF0 = 0 → x &&& 0x0F = x := by decide
  exact ⟨h, low m h⟩

/-- Both nibble bytes of a byte transaction carry the mode byte alone below the nibble. -/
theorem nibbleBytes_low {p : Params} (hp : p.wf = true) (v : Byte) {m : Byte} (hm : m = 0 ∨ m = p.expRs) :
    highNibbleByte v m &&& 0x0F = m ∧ lowNibbleByte v m &&& 0x0F = m := by
  have h := (modeByte_low hp hm).2
  have z : ∀ w : Byte, w &&& 0xF0 &&& 0x0F = 0 := by intro w; rw [BitVec.and_assoc]; simp
  have d : ∀ w : Byte, ((w &&& 0xF0) ||| m) &&& 0x0F = (w &&& 0xF0 &&& 0x0F) ||| (m &&& 0x0F) := by
    intro w
    ext i
    simp [Bool.and_or_distrib_right]
  exact ⟨by rw [highNibbleByte, d, z, h]; simp, by rw [lowNibbleByte, d, z, h]; simp⟩

theorem nibbleBytes_data {p : Params} (hp : p.wf = true) (v : Byte) {m : Byte} (hm : m = 0 ∨ m = p.expRs) :
    joinNibbles ((highNibbleByte v m >>> 4).setWidth 4) ((lowNibbleByte v m >>> 4).setWidth 4) = v := by
  have h := (modeByte_low hp hm).1
  rw [highNibbleByte, lowNibbleByte, data_or_line _ h, data_or_line _ h]
  revert v
  decide

/-- Executing a byte does not depend on the high nibble that was held. -/
theorem Panel.execute_high (k : Nat) (rs : Bool) (b : Byte) (pan : Panel) (x : Option (Bool × Nibble)) :
    Panel.execute k rs b { pan with lcd := { pan.lcd with high := x } } = pan.execute k rs b := rfl

/-- One byte transaction whose six bytes arrive, the controller in 4-bit width awaiting a high nibble, the pairing
not broken, Enable low and no delay owed: one byte executed, RS as the mode byte says. -/
theorem Panel.sees_byte {p : Params} (hp : p.wf = true) (draw : Nat → XferResult) (k : Nat) (a : BusAddr)
    (v : Byte) {m bl : Byte} (hm : m = 0 ∨ m = p.expRs) (hbl : bl = 0 ∨ bl = p.expBl) {pan : Panel}
    (ha : a = pan.busAddr) (hd : ∀ j, j < 6 → draw (k + j) ≠ .fail false) (hw : pan.lcd.wide = false)
    (hh : pan.lcd.high = none) (hb : pan.busy = 0) (he : hasBit pan.out p.expEn = false)
    (hq : pan.pairing ≠ .broken) :
    Panel.sees p draw k (byteEvents a p bl v m) pan
      = { pan.execute (k + 5) (decide (m = p.expRs)) v with
          out := lowNibbleByte v m ||| bl, held := 50
          busy := (pan.execute (k + 5) (decide (m = p.expRs)) v).busy - 50 } := by
  obtain ⟨h₁, h₂⟩ := nibbleBytes_low hp v hm
  have n₁ : NibbleByte p (highNibbleByte v m) := by rw [NibbleByte, h₁]; exact hm
  have n₂ : NibbleByte p (lowNibbleByte v m) := by rw [NibbleByte, h₂]; exact hm
  have e₁ := Panel.sees_nibble hp draw k a n₁ hbl ha (fun j hj => hd j (by omega)) hb he
  have s₁ : ∀ n, pan.strobe (k + 2) (decide (m = p.expRs)) n
      = { pan with lcd := { pan.lcd with high := some (decide (m = p.expRs), n) }, busy := settleUs } := by
    intro n
    unfold Panel.strobe
    rw [if_neg (by simp [hw]), hh]
  rw [h₁, s₁] at e₁
  have e₂ := Panel.sees_nibble hp draw (k + 3) a n₂ hbl
    (pan := { pan with
      lcd := { pan.lcd with high := some (decide (m = p.expRs), (highNibbleByte v m >>> 4).setWidth 4) }
      out := highNibbleByte v m ||| bl, held := 50, busy := settleUs - 50 }) ha (fun j hj => by
      have := hd (3 + j) (by omega)
      rwa [← Nat.add_assoc] at this) rfl (nibbleLines hp n₁ hbl).low_en
  have s₂ : ∀ n o t, Panel.strobe (k + 3 + 2) (decide (m = p.expRs)) n { pan with
        lcd := { pan.lcd with high := some (decide (m = p.expRs), (highNibbleByte v m >>> 4).setWidth 4) }
        out := o, held := t, busy := settleUs - 50 }
      = { pan.execute (k + 5) (decide (m = p.expRs))
            (joinNibbles ((highNibbleByte v m >>> 4).setWidth 4) n) with out := o, held := t } := by
    intro n o t
    unfold Panel.strobe
    rw [if_neg (by simp [hw])]
    simp only [if_true]
    rw [if_neg hq]
    exact Panel.execute_latch (k + 5) _ _ { pan with
      lcd := { pan.lcd with high := some (decide (m = p.expRs), (highNibbleByte v m >>> 4).setWidth 4) } } o t _
  rw [h₂] at e₂
  simp only [s₂, nibbleBytes_data hp v hm] at e₂
  show Panel.sees p draw k (nibbleEvents a p bl (highNibbleByte v m)
    ++ nibbleEvents a p bl (lowNibbleByte v m)) pan = _
  rw [Panel.sees_append, e₁]
  exact e₂

end Sys2Proof.Machine
end

