-- ==== Sys2Proof/Laws/Controller.lean ====
section
/-! SUPPORT. The controller after one executed byte: what every byte leaves, what a command and a data byte do,
and that a byte transaction takes linked receivers to linked receivers. -/

namespace Sys2Proof.Machine

/-! ## One executed byte -/

/-- Whatever a data write does to the address counter, it does nothing else. -/
theorem Panel.advance_fields (k : Nat) (pan : Panel) :
    ∃ a, pan.advance k = { pan with lcd := { pan.lcd with addr := a } } := by
  unfold Panel.advance
  split
  · exact ⟨_, rfl⟩
  · exact ⟨_, rfl⟩

/-- The address counter goes to the next address where the entry mode is increment and that address holds a
byte. -/
theorem Panel.advance_next (k : Nat) {pan : Panel} (hi : pan.lcd.increment = true)
    (hn : pan.holds (pan.lcd.addr.toNat + 1) = true) :
    pan.advance k = { pan with lcd := { pan.lcd with addr := pan.lcd.addr + 1 } } := by
  unfold Panel.advance
  rw [if_pos (by simp [hi, hn])]

/-- A data write changes one memory and the address counter, nothing else. -/
theorem Panel.dataWrite_fields (k : Nat) (d : Byte) (pan : Panel) :
    ∃ a m₁ m₂, pan.dataWrite k d = { pan with lcd := { pan.lcd with addr := a }, ddram := m₁, cgram := m₂ } := by
  unfold Panel.dataWrite
  simp only
  split
  · split
    · obtain ⟨a, h⟩ := Panel.advance_fields k { pan with ddram := Memory.write pan.ddram pan.lcd.addr.toNat d }
      exact ⟨a, _, _, h⟩
    · exact ⟨_, _, _, rfl⟩
  · split
    · obtain ⟨a, h⟩ := Panel.advance_fields k { pan with cgram := Memory.write pan.cgram pan.lcd.addr.toNat d }
      exact ⟨a, _, _, h⟩
    · exact ⟨_, _, _, rfl⟩

/-- A data byte, whatever it does to the memories: the width stays, no high nibble is held, 38 us are owed. -/
theorem Panel.execute_data (k : Nat) (d : Byte) (pan : Panel) :
    pan.execute k true d = Panel.dataWrite k d { pan with lcd := { pan.lcd with high := none }, busy := settleUs } :=
  rfl

/-- An instruction byte. -/
theorem Panel.execute_command (k : Nat) {b : Byte} {i : HdInstr} (h : HdInstr.decode b = some i) (pan : Panel) :
    pan.execute k false b
      = Panel.obey k i { pan with lcd := { pan.lcd with high := none }, busy := settleUs } := by
  unfold Panel.execute
  simp only [Bool.false_eq_true, if_false]
  rw [h]

/-- Every byte leaves the controller awaiting a first nibble. -/
theorem Panel.execute_awaits (k : Nat) (rs : Bool) (b : Byte) (pan : Panel) :
    (pan.execute k rs b).lcd.high = none := by
  cases rs with
  | true =>
    obtain ⟨a, m₁, m₂, h⟩ :=
      Panel.dataWrite_fields k b { pan with lcd := { pan.lcd with high := none }, busy := settleUs }
    rw [Panel.execute_data, h]
  | false =>
    cases h : HdInstr.decode b with
    | none =>
      unfold Panel.execute
      simp only [Bool.false_eq_true, if_false]
      rw [h]
      rfl
    | some i =>
      rw [Panel.execute_command k h]
      cases i <;> rfl

/-- No byte leaves the controller owing more than `longUs`. -/
theorem Panel.execute_busy (k : Nat) (rs : Bool) (b : Byte) (pan : Panel) :
    (pan.execute k rs b).busy ≤ longUs := by
  cases rs with
  | true =>
    obtain ⟨a, m₁, m₂, h⟩ :=
      Panel.dataWrite_fields k b { pan with lcd := { pan.lcd with high := none }, busy := settleUs }
    rw [Panel.execute_data, h]
    simp [settleUs, longUs]
  | false =>
    cases h : HdInstr.decode b with
    | none =>
      unfold Panel.execute
      simp only [Bool.false_eq_true, if_false]
      rw [h]
      exact Nat.le_refl _
    | some i =>
      rw [Panel.execute_command k h]
      cases i <;> simp [Panel.obey, settleUs, longUs]

theorem Panel.strobe_busy (k : Nat) (rs : Bool) (n : Nibble) (pan : Panel) :
    (pan.strobe k rs n).busy ≤ longUs := by
  unfold Panel.strobe
  split
  · exact Panel.execute_busy ..
  · split
    · simp [settleUs, longUs]
    · split
      · exact Nat.le_refl _
      · exact Panel.execute_busy ..

/-- Data into DDRAM, at an address that holds a byte. -/
theorem Panel.execute_data_ddram (k : Nat) (d : Byte) {pan : Panel} (hs : pan.lcd.space = .ddram)
    (hh : ddramHolds pan.lcd.twoLine pan.lcd.addr.toNat = true) :
    ∃ a, pan.execute k true d = { pan with
      lcd := { pan.lcd with high := none, addr := a }
      ddram := Memory.write pan.ddram pan.lcd.addr.toNat d, busy := settleUs } := by
  rw [Panel.execute_data]
  unfold Panel.dataWrite
  simp only [hs]
  rw [if_pos (by simpa only [Panel.holds, hs] using hh)]
  obtain ⟨a, h⟩ := Panel.advance_fields k { pan with
    lcd := { pan.lcd with high := none }
    ddram := Memory.write pan.ddram pan.lcd.addr.toNat d, busy := settleUs }
  exact ⟨a, by simpa only [hs] using h⟩

/-- Data into CGRAM; the address counter goes on where a next address exists and the entry mode is increment. -/
theorem Panel.execute_data_cgram (k : Nat) (d : Byte) {pan : Panel} (hs : pan.lcd.space = .cgram)
    (ha : pan.lcd.addr.toNat < 64) :
    ∃ a, pan.execute k true d = { pan with
        lcd := { pan.lcd with high := none, addr := a }
        cgram := Memory.write pan.cgram pan.lcd.addr.toNat d, busy := settleUs } ∧
      (pan.lcd.increment = true → pan.lcd.addr.toNat + 1 < 64 → a = pan.lcd.addr + 1) := by
  rw [Panel.execute_data]
  unfold Panel.dataWrite
  simp only [hs]
  rw [if_pos (by simpa only [Panel.holds, hs, decide_eq_true_eq] using ha)]
  by_cases hn : pan.lcd.increment = true ∧ pan.lcd.addr.toNat + 1 < 64
  · refine ⟨pan.lcd.addr + 1, ?_, fun _ _ => rfl⟩
    have h := Panel.advance_next k (pan := { pan with
      lcd := { pan.lcd with high := none }
      cgram := Memory.write pan.cgram pan.lcd.addr.toNat d, busy := settleUs }) hn.1
      (by simpa only [Panel.holds, hs, decide_eq_true_eq] using hn.2)
    simpa only [hs] using h
  · obtain ⟨a, h⟩ := Panel.advance_fields k { pan with
      lcd := { pan.lcd with high := none }
      cgram := Memory.write pan.cgram pan.lcd.addr.toNat d, busy := settleUs }
    exact ⟨a, by simpa only [hs] using h, fun h₁ h₂ => absurd ⟨h₁, h₂⟩ hn⟩

/-! ## One byte transaction, on the state -/

theorem State.backlight_cases (s : State) : s.backlight = 0 ∨ s.backlight = s.params.expBl := by
  unfold State.backlight
  split
  · exact .inr rfl
  · exact .inl rfl

theorem State.Arrives.mono {s : State} {m n : Nat} (h : s.Arrives n) (hm : m ≤ n) : s.Arrives m :=
  ⟨h.1, fun k hk => h.2 k (by omega)⟩

theorem State.Arrives.after {s : State} {n : Nat} (es : List Event)
    (h : s.Arrives ((xferBytes es).length + n)) : (s.emitted es).Arrives n := by
  refine ⟨h.1.trans (Panel.sees_busAddr ..).symm, fun k hk => ?_⟩
  have e := h.2 ((xferBytes es).length + k) (by omega)
  rw [← Nat.add_assoc] at e
  exact e

/-- The receivers after one byte transaction. -/
theorem State.emitted_byte_panel {s : State} (hw : s.params.wf = true) (v : Byte) {m : Byte}
    (hm : m = 0 ∨ m = s.params.expRs) (ha : s.Arrives 6) (hl : s.Linked) :
    (s.emitted (s.byteEvents v m)).panel
      = { s.panel.execute (s.sent + 5) (decide (m = s.params.expRs)) v with
          out := lowNibbleByte v m ||| s.backlight, held := 50
          busy := (s.panel.execute (s.sent + 5) (decide (m = s.params.expRs)) v).busy - 50 } :=
  Panel.sees_byte hw s.drawAt s.sent s.addr v hm s.backlight_cases ha.1 ha.2 hl.1 hl.2.1 hl.2.2.1
    hl.2.2.2.1 (by simp [hl.2.2.2.2])

/-- A byte that takes no longer than a transaction's last wait, and keeps the width, leaves the receivers
linked. -/
theorem State.emitted_byte_linked {s : State} (hw : s.params.wf = true) (v : Byte) {m : Byte}
    (hm : m = 0 ∨ m = s.params.expRs) (ha : s.Arrives 6) (hl : s.Linked)
    (hb : (s.panel.execute (s.sent + 5) (decide (m = s.params.expRs)) v).busy ≤ 50)
    (hwide : (s.panel.execute (s.sent + 5) (decide (m = s.params.expRs)) v).lcd.wide = false) :
    (s.emitted (s.byteEvents v m)).Linked := by
  have e := State.emitted_byte_panel hw v hm ha hl
  have n : NibbleByte s.params (lowNibbleByte v m) := by
    rw [NibbleByte, (nibbleBytes_low hw v hm).2]
    exact hm
  refine ⟨?_, ?_, ?_, ?_, ?_⟩ <;> rw [e]
  · exact hwide
  · exact Panel.execute_awaits ..
  · exact Nat.sub_eq_zero_of_le hb
  · exact (nibbleLines hw n s.backlight_cases).low_en
  · exact (Panel.execute_pairing ..).trans hl.2.2.2.2

/-- Linked receivers are as an operation leaves them. -/
theorem State.Linked.rest {s : State} (h : s.Linked) : s.rest = s :=
  State.rest_of_whole h.2.2.2.2 (by simp [Panel.awaitsPair, h.1, h.2.1, h.2.2.2.1])

/-- RS = 0 is not register select. -/
theorem modeZero {p : Params} (hp : p.wf = true) : decide ((0 : Byte) = p.expRs) = false :=
  decide_eq_false (Ne.symm (Params.lines hp).rs_ne)

end Sys2Proof.Machine
end

