-- ==== Sys2Proof/Laws/Decode.lean ====
section
/-! SUPPORT. What the transcriber's operand readers answer, and that an instruction byte reads back. -/

namespace Sys2Proof

/-- An operand that fits its width is taken. -/
theorem operand_fits (m : ReqName) {w n : Nat} (h : n < 2 ^ w) : operand m w n = .ok (BitVec.ofNat w n) := by
  simp [operand, h]

/-- An operand that does not fit is refused, with its value. -/
theorem operand_wide (m : ReqName) {w n : Nat} (h : 2 ^ w ≤ n) :
    operand m w n = .error (.operandWidth m n) := by
  simp [operand, Nat.not_lt.2 h]

@[simp] theorem operand_toNat (m : ReqName) (w : Nat) (a : BitVec w) : operand m w a.toNat = .ok a := by
  simp [operand, a.isLt]

@[simp] theorem bitOperand_bitNat (m : ReqName) (b : Bool) : bitOperand m (bitNat b) = .ok b := by
  cases b <;> rfl

theorem bitOperand_wide (m : ReqName) {n : Nat} (h : 2 ≤ n) :
    bitOperand m n = .error (.operandWidth m n) := by
  unfold bitOperand
  rw [if_neg (by omega), if_neg (by omega)]

@[simp] theorem byteOperands_toNat (m : ReqName) (g : List Byte) :
    byteOperands m (g.map BitVec.toNat) = .ok g := by
  induction g with
  | nil => rfl
  | cons b g ih => simp [byteOperands, ih]

/-- The leading one of an instruction's byte, and the bits below it, give the instruction back (R76). -/
theorem HdInstr.decode_byte (h : HdInstr) : HdInstr.decode h.byte = some h := by
  cases h with
  | clear => decide
  | home x => revert x; decide
  | entryMode i s => revert i s; decide
  | dispCtl d c b => revert d c b; decide
  | shift s r x => revert s r x; decide
  | funcSet l n f x => revert l n f x; decide
  | setCgram a => revert a; decide
  | setDdram a => revert a; decide

/-- The term of an instruction byte decodes to its table row. -/
theorem decode_term (p : Params) (h : HdInstr) : decode p h.term = .ok h.toInstr := by
  simp [decode, HdInstr.term, h.byte.isLt, HdInstr.decode_byte]

end Sys2Proof
end

