-- ==== Sys2Proof/Laws/PerInstr.lean ====
section
/-! SUPPORT. Statements made per instruction. `EncodesOwnRow`: the encoder writes every instruction as a term of its
own row, requests by their mnemonic (30_encoding.md R70), carried bytes as bits (R72, R76, R85, R87), whatever the
parameters and the operands. -/

namespace Sys2Proof.Laws

/-- The kinds of term, a request with its mnemonic. -/
inductive Row where
  | request (m : ReqName)
  | instructionByte
  | instructionNibble
  | dataByte
  | expanderByte
  deriving DecidableEq, Repr

/-- The kind of a term. -/
def termRow : Term → Row
  | .request m _ => .request m
  | .word _ _ => .instructionByte
  | .nibble _ => .instructionNibble
  | .data _ => .dataByte
  | .bus _ => .expanderByte

/-- The kind of term an instruction's row of the opcode table has. -/
def instrRow : Instr → Row
  | .cfgAddr _ => .request .cfgAddr
  | .cfgGeom _ _ => .request .cfgGeom
  | .cfgFont _ => .request .cfgFont
  | .cfgPins _ => .request .cfgPins
  | .cfgBl _ => .request .cfgBl
  | .beginInit => .request .beginInit
  | .expw _ => .request .expw
  | .pulse _ => .request .pulse
  | .w4 _ => .request .w4
  | .send _ _ => .request .send
  | .cmd _ => .request .cmd
  | .putc _ => .request .putc
  | .clear => .request .clear
  | .home => .request .home
  | .setCursor _ _ => .request .setCursor
  | .createChar _ _ => .request .createChar
  | .setBl _ => .request .setBl
  | .dctl _ _ => .request .dctl
  | .hdClear => .instructionByte
  | .hdHome _ => .instructionByte
  | .hdEntryMode _ _ => .instructionByte
  | .hdDispCtl _ _ _ => .instructionByte
  | .hdShift _ _ _ => .instructionByte
  | .hdFuncSet _ _ _ _ => .instructionByte
  | .hdFuncSetNibble8 => .instructionNibble
  | .hdFuncSetNibble4 => .instructionNibble
  | .hdSetCgram _ => .instructionByte
  | .hdSetDdram _ => .instructionByte
  | .hdData _ => .dataByte
  | .xferByte _ _ _ _ _ => .expanderByte

/-- The encoder writes `i` as a term of its own row. -/
def EncodesOwnRow.Statement (i : Instr) : Prop := ∀ p : Params, termRow (encode p i) = instrRow i

theorem EncodesOwnRow.cfgAddr (a : BusAddr) : EncodesOwnRow.Statement (.cfgAddr a) := fun _ => rfl
theorem EncodesOwnRow.cfgGeom (cols rows : Byte) : EncodesOwnRow.Statement (.cfgGeom cols rows) := fun _ => rfl
theorem EncodesOwnRow.cfgFont (f : Bool) : EncodesOwnRow.Statement (.cfgFont f) := fun _ => rfl
theorem EncodesOwnRow.cfgPins (p : PinSel) : EncodesOwnRow.Statement (.cfgPins p) := fun _ => rfl
theorem EncodesOwnRow.cfgBl (b : Bool) : EncodesOwnRow.Statement (.cfgBl b) := fun _ => rfl
theorem EncodesOwnRow.beginInit : EncodesOwnRow.Statement .beginInit := fun _ => rfl
theorem EncodesOwnRow.expw (b : Byte) : EncodesOwnRow.Statement (.expw b) := fun _ => rfl
theorem EncodesOwnRow.pulse (b : Byte) : EncodesOwnRow.Statement (.pulse b) := fun _ => rfl
theorem EncodesOwnRow.w4 (n : Byte) : EncodesOwnRow.Statement (.w4 n) := fun _ => rfl
theorem EncodesOwnRow.send (v m : Byte) : EncodesOwnRow.Statement (.send v m) := fun _ => rfl
theorem EncodesOwnRow.cmd (v : Byte) : EncodesOwnRow.Statement (.cmd v) := fun _ => rfl
theorem EncodesOwnRow.putc (v : Byte) : EncodesOwnRow.Statement (.putc v) := fun _ => rfl
theorem EncodesOwnRow.clear : EncodesOwnRow.Statement .clear := fun _ => rfl
theorem EncodesOwnRow.home : EncodesOwnRow.Statement .home := fun _ => rfl
theorem EncodesOwnRow.setCursor (col row : Byte) : EncodesOwnRow.Statement (.setCursor col row) := fun _ => rfl
theorem EncodesOwnRow.createChar (loc : Byte) (g : List Byte) : EncodesOwnRow.Statement (.createChar loc g) :=
  fun _ => rfl
theorem EncodesOwnRow.setBl (on : Bool) : EncodesOwnRow.Statement (.setBl on) := fun _ => rfl
theorem EncodesOwnRow.dctl (f : DctlField) (v : Bool) : EncodesOwnRow.Statement (.dctl f v) := fun _ => rfl
theorem EncodesOwnRow.hdClear : EncodesOwnRow.Statement .hdClear := fun _ => rfl
theorem EncodesOwnRow.hdHome (x : Bool) : EncodesOwnRow.Statement (.hdHome x) := fun _ => rfl
theorem EncodesOwnRow.hdEntryMode (i s : Bool) : EncodesOwnRow.Statement (.hdEntryMode i s) := fun _ => rfl
theorem EncodesOwnRow.hdDispCtl (d c b : Bool) : EncodesOwnRow.Statement (.hdDispCtl d c b) := fun _ => rfl
theorem EncodesOwnRow.hdShift (s r : Bool) (x : BitVec 2) : EncodesOwnRow.Statement (.hdShift s r x) :=
  fun _ => rfl
theorem EncodesOwnRow.hdFuncSet (l n f : Bool) (x : BitVec 2) : EncodesOwnRow.Statement (.hdFuncSet l n f x) :=
  fun _ => rfl
theorem EncodesOwnRow.hdFuncSetNibble8 : EncodesOwnRow.Statement .hdFuncSetNibble8 := fun _ => rfl
theorem EncodesOwnRow.hdFuncSetNibble4 : EncodesOwnRow.Statement .hdFuncSetNibble4 := fun _ => rfl
theorem EncodesOwnRow.hdSetCgram (a : BitVec 6) : EncodesOwnRow.Statement (.hdSetCgram a) := fun _ => rfl
theorem EncodesOwnRow.hdSetDdram (a : BitVec 7) : EncodesOwnRow.Statement (.hdSetDdram a) := fun _ => rfl
theorem EncodesOwnRow.hdData (d : Byte) : EncodesOwnRow.Statement (.hdData d) := fun _ => rfl
theorem EncodesOwnRow.xferByte (d : Nibble) (l e w s : Bool) : EncodesOwnRow.Statement (.xferByte d l e w s) :=
  fun _ => rfl

end Sys2Proof.Laws
end

