-- ==== Sys2Proof/Tests/Slice0.lean ====
section
/-! SUPPORT. Tests on fixed values. The expected results are the spec's: the vectors and programs of
95_test_vectors.md, or a word written out from the encoding of the rule named. After them, for every obligation
that has hypotheses, a theorem `witness_…` that shows a state and operands meeting all of them. -/

open Sys2Proof Sys2Proof.Machine

namespace Sys2Proof.Tests

/-! ## The states tests start from -/

/-- The default parameters, but for a concrete default pin selection. -/
def defaults : Params :=
  { expRs := 0x01, expRw := 0x02, expEn := 0x04, expBl := 0x08
    blDefault := true, propagateBusErr := false, pinsDefault := ⟨7⟩ }

/-- A controller as a completed `BEGIN` leaves it. -/
def settledLcd : LcdRegs :=
  { wide := false, high := none, twoLine := true, tall := false, display := true, cursor := false
    blink := false, increment := true, autoShift := false, space := .ddram, addr := 0 }

/-- In mode `CONFIG`, nothing configured, the receivers concrete and the host's results all ok. -/
def fresh : State :=
  { State.powerOn defaults with
    panel := { busAddr := 0x27, out := 0x08, held := 0, lcd := settledLcd, ddram := [], cgram := [], busy := 0,
               pairing := .whole }
    busScript := List.replicate 60 .ok }

/-- The end state of program P1, but for the trace: 16x2 at 0x27, `READY`. -/
def ready : State :=
  { fresh with
    mode := .ready, addr := 0x27, addrSet := true, cols := 16, rows := 2, geomSet := true
    dispFn := 0x08, dispCtl := 0x04, dispMode := 0x02 }

/-- The same with the backlight off. -/
def dark : State := { ready with bl := false }

/-- The same with four rows. -/
def fourRows : State := { ready with cols := 20, rows := 4 }

/-- The same with five rows. -/
def fiveRows : State := { ready with cols := 20, rows := 5 }

/-- Configured as P1 does, before its `BEGIN`. -/
def configured : State := { ready with mode := .config, dispFn := 0, dispCtl := 0, dispMode := 0 }

/-- `PROPAGATE_BUS_ERR` is true and the second transaction fails. -/
def failing : State :=
  { ready with params := { defaults with propagateBusErr := true }, busScript := [.ok, .fail true] }

/-- After a fault. -/
def stopped : State := { ready with mode := .faulted, fault := some .badMode }

/-- The events of an instruction that answers a next state. -/
def events (o : Host.Outcome State Fault Refusal) : List Event :=
  match o with
  | .next t => t.trace
  | .fault _ => []
  | .refused _ => []

/-- The bytes it writes. -/
def bytes (i : Instr) (s : State) : List Byte := xferBytes (events (exec i s))

/-- The fault it raises. -/
def raised (o : Host.Outcome State Fault Refusal) : Option FaultCode :=
  match o with
  | .next t => t.fault
  | .fault _ => none
  | .refused _ => none

/-- Something of the next state. -/
def after {α : Type} (o : Host.Outcome State Fault Refusal) (f : State → α) : Option α :=
  match o with
  | .next t => some (f t)
  | .fault _ => none
  | .refused _ => none

/-- Something of the state after two instructions. -/
def afterBoth {α : Type} (i j : Instr) (s : State) (f : State → α) : Option α :=
  match exec i s with
  | .next t => after (exec j t) f
  | .fault _ => none
  | .refused _ => none

/-- Why it is refused. -/
def refusal (o : Host.Outcome State Fault Refusal) : Option Refusal :=
  match o with
  | .next _ => none
  | .fault _ => none
  | .refused r => some r

/-! ## Well-formedness -/

/-- R177: a glyph is exactly eight bytes. -/
theorem test_glyph_of_seven_refused : (Instr.createChar 1 [0, 0, 0, 0, 0, 0, 0]).wf = false := by decide
theorem test_glyph_of_nine_refused : (Instr.createChar 1 [0, 0, 0, 0, 0, 0, 0, 0, 0]).wf = false := by decide
theorem test_glyph_of_eight_accepted : (Instr.createChar 1 [0, 0, 0, 0, 0, 0, 0, 0]).wf = true := by decide

/-- The step refuses the glyph of seven. -/
theorem test_step_refuses_ill_formed :
    refusal (step { ready with port := [.request (.request .createChar [.num 1, .list [0, 0, 0, 0, 0, 0, 0]]) none] })
      = some .illFormed := by decide

/-! ## Decoding: words written out from the encodings -/

/-- R78: `0000001x`. -/
theorem test_decode_home : decodeTableWord 8 0b00000010 = some (.hdHome false) := by decide
/-- R79: `000001IS`, S alone. -/
theorem test_decode_entryMode : decodeTableWord 8 0b00000101 = some (.hdEntryMode false true) := by decide
/-- R80: `00001DCB`, B alone. -/
theorem test_decode_dispCtl : decodeTableWord 8 0b00001001 = some (.hdDispCtl false false true) := by decide
/-- R84: `0001SRxx`, R alone. -/
theorem test_decode_shift : decodeTableWord 8 0b00010100 = some (.hdShift false true 0) := by decide
/-- R83: `001LNFxx`, F alone: the byte 0x24 of a one-line display with the tall font. -/
theorem test_decode_funcSet : decodeTableWord 8 0b00100100 = some (.hdFuncSet false false true 0) := by decide
/-- R81: `01aaaaaa`, the last slot. -/
theorem test_decode_setCgram : decodeTableWord 8 0b01111000 = some (.hdSetCgram 0x38) := by decide
/-- R82: `1aaaaaaa`, row 3. -/
theorem test_decode_setDdram : decodeTableWord 8 0b11010100 = some (.hdSetDdram 0x54) := by decide
/-- R76: no leading one. -/
theorem test_decode_zero_refused : decodeTableWord 8 0 = none := by decide
/-- R83, R149: the single nibbles. -/
theorem test_decode_nibbles :
    decode defaults (.nibble 0b0011) = .ok .hdFuncSetNibble8 ∧
      decode defaults (.nibble 0b0010) = .ok .hdFuncSetNibble4 ∧
      decode defaults (.nibble 0b0001) = .error (.noSingleNibble 1) := by decide
/-- R85: a data byte. -/
theorem test_decode_data : decode defaults (.data 0x48) = .ok (.hdData 0x48) := by decide
/-- R72: `ddddLEWS`; 0x4D is `H`'s high nibble with backlight, Enable and register select. -/
theorem test_decode_bus : decode defaults (.bus 0b01001101) = .ok (.xferByte 4 true true false true) := by decide
/-- R71: an address above 0x7F. -/
theorem test_decode_wide_address :
    decode defaults (.request .cfgAddr [.num 0x80]) = .error (.operandWidth .cfgAddr 0x80) := by decide
/-- R70: the wrong number of operands. -/
theorem test_decode_wrong_shape :
    decode defaults (.request .cfgGeom [.num 16]) = .error (.operandShape .cfgGeom) := by decide

/-! ## Text (R88, R89) -/

theorem test_text_glyph :
    assembleLine "CREATECHAR 9, [0x00, 0x0A, 0x1F, 0x1F, 0x0E, 0x04, 0x00, 0x00]".toList
      = .ok [.request .createChar [.num 9, .list [0, 10, 31, 31, 14, 4, 0, 0]]] := by decide
theorem test_text_puts :
    assembleLine "PUTS \"Hi\"           ; = PUTC 0x48, PUTC 0x69".toList
      = .ok [.request .putc [.num 0x48], .request .putc [.num 0x69]] := by decide
theorem test_text_field :
    assembleLine "DCTL C, 1".toList = .ok [.request .dctl [.field .C, .num 1]] := by decide
theorem test_text_comment : assembleLine "; a comment".toList = .ok [] := by decide
theorem test_text_unknown :
    assembleLine "SCROLL 1".toList = .error (.unknownMnemonic ['S', 'C', 'R', 'O', 'L', 'L']) := by decide

/-! ## Configuration (2.11, P7) -/

theorem test_cfgAddr : after (exec (.cfgAddr 0x27) fresh) (fun t => (t.addr, t.addrSet)) = some (0x27, true) := by
  decide
theorem test_cfgAddr_locked :
    after (exec (.cfgAddr 0x3F) ready) (fun t => (t.fault, t.addr)) = some (some .cfgLocked, 0x27) := by decide
theorem test_cfgGeom : after (exec (.cfgGeom 16 2) fresh) (fun t => (t.cols, t.rows)) = some (16, 2) := by decide
theorem test_cfgGeom_no_rows :
    after (exec (.cfgGeom 16 0) fresh) (fun t => (t.fault, t.geomSet)) = some (some .cfgInvalid, false) := by decide
theorem test_cfgFont : after (exec (.cfgFont true) fresh) (·.charSize) = some true := by decide
theorem test_cfgPins : after (exec (.cfgPins ⟨3⟩) fresh) (fun t => (t.pins, t.pinsSet)) = some (⟨3⟩, true) := by
  decide
theorem test_cfgBl : after (exec (.cfgBl false) fresh) (fun t => (t.bl, t.trace)) = some (false, []) := by decide

/-! ## BEGIN (P1, P6, 2.11) -/

/-- P1: the 43 bytes. -/
theorem test_begin_bytes :
    bytes .beginInit configured
      = [0x08, 0x38, 0x3C, 0x38, 0x38, 0x3C, 0x38, 0x38, 0x3C, 0x38, 0x28, 0x2C, 0x28]
        ++ [0x28, 0x2C, 0x28, 0x88, 0x8C, 0x88, 0x08, 0x0C, 0x08, 0xC8, 0xCC, 0xC8]
        ++ [0x08, 0x0C, 0x08, 0x18, 0x1C, 0x18, 0x08, 0x0C, 0x08, 0x68, 0x6C, 0x68]
        ++ [0x88, 0x8C, 0x88, 0x08, 0x0C, 0x08] := by decide

/-- P1: the first events, and the end state. -/
theorem test_begin_starts :
    (events (exec .beginInit configured)).take 6
      = [.openBus 0x27 ⟨7⟩, .wait 50000, .xfer 0x27 0x08, .wait 1000000, .xfer 0x27 0x38, .xfer 0x27 0x3C] ∧
    after (exec .beginInit configured) (fun t => (t.mode, t.dispFn, t.dispCtl, t.dispMode))
      = some (.ready, 0x08, 0x04, 0x02) := by decide

/-! ## The engine's layers (2.1 to 2.4) -/

theorem test_expw : bytes (.expw 0x20) ready = [0x28] := by decide
theorem test_expw_or_not_assign : bytes (.expw 0x08) dark = [0x08] := by decide
theorem test_pulse :
    events (exec (.pulse 0x30) ready) = [.xfer 0x27 0x3C, .wait 1, .xfer 0x27 0x38, .wait 50] := by decide
theorem test_pulse_enable_in_argument : bytes (.pulse 0x34) ready = [0x3C, 0x38] := by decide
theorem test_w4 : bytes (.w4 0xF1) dark = [0xF1, 0xF5, 0xF1] := by decide
theorem test_w4_enable_in_argument : bytes (.w4 0x04) ready = [0x0C, 0x0C, 0x08] := by decide
theorem test_send : bytes (.send 0xA5 0x01) ready = [0xA9, 0xAD, 0xA9, 0x59, 0x5D, 0x59] := by decide
theorem test_send_bad_mode :
    raised (exec (.send 0x41 0x02) ready) = some .badMode ∧ events (exec (.send 0x41 0x02) ready) = [] := by decide
theorem test_cmd : bytes (.cmd 0x28) ready = [0x28, 0x2C, 0x28, 0x88, 0x8C, 0x88] := by decide
theorem test_cmd_bus_fail :
    bytes (.cmd 0x28) failing = [0x28, 0x2C] ∧ raised (exec (.cmd 0x28) failing) = some .busFail := by decide
theorem test_putc : bytes (.putc 0x48) ready = [0x49, 0x4D, 0x49, 0x89, 0x8D, 0x89] := by decide
theorem test_putc_not_ready : raised (exec (.putc 0x41) fresh) = some .notReady := by decide

/-! ## The command surface (2.6 to 2.10) -/

theorem test_clear :
    bytes .clear ready = [0x08, 0x0C, 0x08, 0x18, 0x1C, 0x18] ∧
      waitTimes (events (exec .clear ready)) = [1, 50, 1, 50, 2000] := by decide
theorem test_home : bytes .home dark = [0x00, 0x04, 0x00, 0x20, 0x24, 0x20] := by decide
/-- The row equal to `ROWS` is clamped (C1). -/
theorem test_setCursor_clamped : bytes (.setCursor 0 2) ready = [0xC8, 0xCC, 0xC8, 0x08, 0x0C, 0x08] := by decide
/-- 0x153 is reduced modulo 128. -/
theorem test_setCursor_wraps : bytes (.setCursor 0xFF 3) fourRows = [0xD8, 0xDC, 0xD8, 0x38, 0x3C, 0x38] := by
  decide
theorem test_setCursor_unsupported :
    raised (exec (.setCursor 0 9) fiveRows) = some .rowUnsupported ∧
      bytes (.setCursor 0 3) fiveRows = [0xD8, 0xDC, 0xD8, 0x48, 0x4C, 0x48] := by decide
/-- P3: glyph 1 by location 9. -/
theorem test_createChar :
    (bytes (.createChar 9 [0x00, 0x0A, 0x1F, 0x1F, 0x0E, 0x04, 0x00, 0x00]) ready).take 18
      = [0x48, 0x4C, 0x48, 0x88, 0x8C, 0x88, 0x09, 0x0D, 0x09]
        ++ [0x09, 0x0D, 0x09, 0x09, 0x0D, 0x09, 0xA9, 0xAD, 0xA9] := by
  decide +kernel
theorem test_setBl : bytes (.setBl false) ready = [0x00] ∧ bytes (.setBl true) dark = [0x08] := by decide
theorem test_setBl_not_ready : raised (exec (.setBl true) fresh) = some .notReady := by decide
theorem test_dctl :
    bytes (.dctl .C true) ready = [0x08, 0x0C, 0x08, 0xE8, 0xEC, 0xE8] ∧
      after (exec (.dctl .C true) ready) (·.dispCtl) = some 0x06 := by decide
/-- From 0x07, `DCTL D, 0` sends 0x0B. -/
theorem test_dctl_clears :
    bytes (.dctl .D false) { dark with dispCtl := 0x07 } = [0x00, 0x04, 0x00, 0xB0, 0xB4, 0xB0] := by decide

/-! ## The carried bytes: the same vectors, by the table's rows -/

/-- As `CMD 0x01` (2.6): no 2 ms wait. -/
theorem test_hdClear :
    bytes .hdClear ready = [0x08, 0x0C, 0x08, 0x18, 0x1C, 0x18] ∧
      waitTimes (events (exec .hdClear ready)) = [1, 50, 1, 50] := by decide
theorem test_hdHome : bytes (.hdHome false) ready = [0x08, 0x0C, 0x08, 0x28, 0x2C, 0x28] := by decide
/-- P1 step 11: command 06. -/
theorem test_hdEntryMode : bytes (.hdEntryMode true false) ready = [0x08, 0x0C, 0x08, 0x68, 0x6C, 0x68] := by decide
/-- P1 step 9: command 0C. -/
theorem test_hdDispCtl :
    bytes (.hdDispCtl true false false) ready = [0x08, 0x0C, 0x08, 0xC8, 0xCC, 0xC8] := by decide
/-- R84: `0001SRxx` with S and R set is 0x1C. -/
theorem test_hdShift : bytes (.hdShift true true 0) ready = [0x18, 0x1C, 0x18, 0xC8, 0xCC, 0xC8] := by decide
/-- P1 step 8: command 28. -/
theorem test_hdFuncSet :
    bytes (.hdFuncSet false true false 0) ready = [0x28, 0x2C, 0x28, 0x88, 0x8C, 0x88] := by decide
theorem test_hdFuncSetNibble8 : bytes .hdFuncSetNibble8 ready = [0x38, 0x3C, 0x38] := by decide
theorem test_hdFuncSetNibble4 : bytes .hdFuncSetNibble4 ready = [0x28, 0x2C, 0x28] := by decide
/-- 2.8: location 7 is command 78. -/
theorem test_hdSetCgram : bytes (.hdSetCgram 0x38) ready = [0x78, 0x7C, 0x78, 0x88, 0x8C, 0x88] := by decide
/-- 2.7: address 4F is command CF. -/
theorem test_hdSetDdram : bytes (.hdSetDdram 0x4F) ready = [0xC8, 0xCC, 0xC8, 0xF8, 0xFC, 0xF8] := by decide
theorem test_hdData : bytes (.hdData 0xA5) ready = [0xA9, 0xAD, 0xA9, 0x59, 0x5D, 0x59] := by decide
/-- R72: the byte `H`'s strobe puts on the bus. -/
theorem test_xferByte : bytes (.xferByte 4 true true false true) ready = [0x4D] := by decide

/-! ## Reset, faults, the receivers -/

/-- P7, last program: reset after event 30 of `BEGIN`. -/
theorem test_reset_inside_begin :
    after (exec .beginInit { configured with resetIn := some 30 }) (fun t => (t.mode, t.addrSet, t.trace.length))
      = some (.config, false, 30) := by decide
/-- R206: a reset does not leave `FAULTED`. -/
theorem test_reset_keeps_fault :
    after (step { stopped with port := [.reset] }) (fun t => (t.mode, t.fault)) = some (.faulted, some .badMode) := by
  decide
/-- R52, R54, G5: row 1 of slot 1 is at CGRAM address 9. -/
theorem test_glyph_in_cgram :
    after (exec (.createChar 9 [0x00, 0x0A, 0x1F, 0x1F, 0x0E, 0x04, 0x00, 0x00]) ready)
      (fun t => Memory.read t.panel.cgram 9) = some (some 0x0A) := by decide +kernel
/-- R247: after `CREATECHAR 0`, a character goes to CGRAM. -/
theorem test_character_after_glyph :
    afterBoth (.createChar 0 [1, 2, 3, 4, 5, 6, 7, 8]) (.putc 0x48) ready
      (fun t => (Memory.read t.panel.cgram 8, t.panel.ddram)) = some (some 0x48, []) := by decide +kernel
/-- R243: after a lone nibble the next command is not taken as a pair: what DDRAM holds is no longer known. -/
theorem test_lone_nibble_breaks_pairing :
    afterBoth (.w4 0x30) (.cmd 0x0C) { ready with panel := { ready.panel with ddram := [(0, 0x41)] } }
      (fun t => (t.panel.pairing, t.panel.ddram)) = some (.broken, []) := by decide +kernel
/-- R243: so also after two lone nibbles, which are no pair. -/
theorem test_two_lone_nibbles_no_repair :
    afterBoth (.w4 0x00) (.w4 0xC0) ready (·.panel.pairing) = some .broken := by decide +kernel
/-- R211: a lost byte leaves `OUT` as it was. -/
theorem test_lost_byte :
    after (exec (.expw 0x20) { ready with busScript := [.fail false] }) (fun t => (t.panel.out, t.trace))
      = some (0x08, [.xfer 0x27 0x28]) := by decide
/-- The step fetches what `withFetchWord` places; before `BEGIN` a command is `NOT_READY` (R203). -/
theorem test_fetch_word : raised (step (State.reset.withFetchWord 8 0x01)) = some .notReady := by decide

/-! ## Witnesses: states and operands that meet the hypotheses of the obligations -/

/-- Every legal assignment counts, not the default alone. -/
def swapped : Params :=
  { defaults with expRs := 0x08, expRw := 0x04, expEn := 0x02, expBl := 0x01 }

theorem defaults_wf : defaults.wf = true := by decide
theorem ready_ready : ready.Ready := ⟨by decide, rfl⟩
theorem fresh_config : fresh.InConfig := ⟨by decide, rfl⟩
theorem ready_quiet (n : Nat) : ready.Undisturbed n := ⟨rfl, fun h => by cases h⟩
theorem configured_quiet (n : Nat) : configured.Undisturbed n := ⟨rfl, fun h => by cases h⟩
theorem fresh_quiet (n : Nat) : fresh.Undisturbed n := ⟨rfl, fun h => by cases h⟩
theorem configured_may_begin : configured.MayBegin := ⟨by decide, by decide, rfl, rfl, by decide⟩
theorem ready_linked : ready.Linked := ⟨rfl, rfl, rfl, by decide, rfl⟩
theorem ready_arrives : ready.Arrives 54 := by
  have h : ∀ k : Fin 54, ready.drawAt (ready.sent + k) ≠ .fail false := by decide
  exact ⟨rfl, fun k hk => h ⟨k, hk⟩⟩
theorem configured_arrives : configured.Arrives 43 := by
  have h : ∀ k : Fin 43, configured.drawAt (configured.sent + k) ≠ .fail false := by decide
  exact ⟨rfl, fun k hk => h ⟨k, hk⟩⟩
/-- The receivers' controller writes to the next address. -/
theorem ready_increment : ready.panel.lcd.increment = true := rfl

theorem witness_DecodeInvertsEncode : defaults.wf = true ∧ swapped.wf = true := by decide

/-- Each range of R77 to R84 at both ends. -/
theorem witness_InstructionBytesByLeadingOne :
    [HdInstr.decode 0xFF, HdInstr.decode 0x80, HdInstr.decode 0x7F, HdInstr.decode 0x40]
      = [some (.setDdram 0x7F), some (.setDdram 0), some (.setCgram 0x3F), some (.setCgram 0)] ∧
    [HdInstr.decode 0x3F, HdInstr.decode 0x20, HdInstr.decode 0x1F, HdInstr.decode 0x10]
      = [some (.funcSet true true true 3), some (.funcSet false false false 0), some (.shift true true 3),
         some (.shift false false 0)] ∧
    [HdInstr.decode 0x0F, HdInstr.decode 0x08, HdInstr.decode 0x07, HdInstr.decode 0x04]
      = [some (.dispCtl true true true), some (.dispCtl false false false), some (.entryMode true true),
         some (.entryMode false false)] ∧
    [HdInstr.decode 0x03, HdInstr.decode 0x02, HdInstr.decode 0x01, HdInstr.decode 0x00]
      = [some (.home true), some (.home false), some .clear, none] := by decide

/-- The first value that does not fit, and the last that does. -/
theorem witness_TranscriberRefusesByName :
    decode defaults (.request .cfgAddr [.num 128]) = .error (.operandWidth .cfgAddr 128) ∧
    decode defaults (.request .cfgAddr [.num 127]) = .ok (.cfgAddr 127) ∧
    [decode defaults (.request .cfgFont [.num 2]), decode defaults (.request .cfgBl [.num 2]),
      decode defaults (.request .setBl [.num 2])]
      = [.error (.operandWidth .cfgFont 2), .error (.operandWidth .cfgBl 2), .error (.operandWidth .setBl 2)] ∧
    decode defaults (.request .dctl [.field .B, .num 2]) = .error (.operandWidth .dctl 2) ∧
    [decode defaults (.request .expw [.num 256]), decode defaults (.request .pulse [.num 256]),
      decode defaults (.request .w4 [.num 256]), decode defaults (.request .cmd [.num 256]),
      decode defaults (.request .putc [.num 256])]
      = [.error (.operandWidth .expw 256), .error (.operandWidth .pulse 256), .error (.operandWidth .w4 256),
         .error (.operandWidth .cmd 256), .error (.operandWidth .putc 256)] ∧
    decode defaults (.request .cfgGeom [.num 256, .num 2]) = .error (.operandWidth .cfgGeom 256) ∧
    decode defaults (.request .cfgGeom [.num 255, .num 256]) = .error (.operandWidth .cfgGeom 256) ∧
    decode defaults (.request .send [.num 256, .num 0]) = .error (.operandWidth .send 256) ∧
    decode defaults (.request .send [.num 255, .num 256]) = .error (.operandWidth .send 256) ∧
    decode defaults (.request .createChar [.num 255, .list [255, 256, 300]]) = .error (.operandWidth .createChar 256) ∧
    decode defaults (.request .setCursor [.num 255, .num 256]) = .error (.operandWidth .setCursor 256) ∧
    decode defaults (.request .setCursor [.num 256, .num 0]) = .error (.operandWidth .setCursor 256) ∧
    decode defaults (.request .createChar [.num 256, .list []]) = .error (.operandWidth .createChar 256) := by
  decide

/-- A well-formed request at the head of the port, with a reset to come. -/
theorem witness_StepRunsTheRequestedInstruction :
    ∃ (s : State) (t : Term) (cut : Option Nat) (ms : List HostMove) (i : Instr),
      s.port = .request t cut :: ms ∧ decode s.params t = .ok i ∧ i.wf = true :=
  ⟨{ fresh with port := [.request (.request .cfgAddr [.num 0x27]) (some 0), .reset] }, _, _, _, .cfgAddr 0x27,
    rfl, by decide, rfl⟩

theorem witness_StepWithoutAnInstruction :
    fresh.port = [] ∧
    (∃ s : State, ∃ us ms, s.port = .pause us :: ms) ∧
    (∃ (s : State) (t : Term) (cut : Option Nat) (ms : List HostMove) (e : Reject),
      s.port = .request t cut :: ms ∧ decode s.params t = .error e) ∧
    ∃ (s : State) (t : Term) (cut : Option Nat) (ms : List HostMove) (i : Instr),
      s.port = .request t cut :: ms ∧ decode s.params t = .ok i ∧ i.wf = false :=
  ⟨rfl, ⟨{ fresh with port := [.pause 2000] }, _, _, rfl⟩,
    ⟨{ fresh with port := [.request (.word 8 0) none] }, _, _, _, .noInstructionByte 0, rfl, by decide⟩,
    ⟨{ fresh with port := [.request (.request .createChar [.num 0, .list []]) none] }, _, _, _, .createChar 0 [],
      rfl, by decide, rfl⟩⟩

/-- Two lines on one bit: refused. -/
theorem witness_IllegalParametersRefused :
    ({ fresh with params := { defaults with expRw := 0x01 } } : State).params.wf = false ∧ swapped.wf = true := by
  decide

theorem witness_NotReadyBeforeBegin : isReadyRequest (.putc 0x41) = true ∧ fresh.InConfig ∧ fresh.resetIn = none :=
  ⟨rfl, fresh_config, rfl⟩
theorem witness_SettersLockedWhenReady : isSetter (.cfgBl true) = true ∧ ready.Ready ∧ ready.resetIn = none :=
  ⟨rfl, ready_ready, rfl⟩
theorem witness_CarriedBytesNeedReady : isCarried .hdClear = true ∧ fresh.InConfig ∧ fresh.resetIn = none :=
  ⟨rfl, fresh_config, rfl⟩

/-- A faulted state takes no instruction, but a step can still answer: a reset. -/
theorem witness_FaultedModeIsTerminal :
    stopped.mode = .faulted ∧ stopped.params.wf = true ∧
      after (step { stopped with port := [.reset] }) (·.mode) = some .faulted := by decide

/-- One fault before any event, one at a transport write. -/
theorem witness_FaultsArePrecise :
    ready.resetIn = none ∧ ready.fault = none ∧ raised (exec (.send 0 0x10) ready) = some .badMode ∧
      failing.resetIn = none ∧ failing.fault = none ∧ raised (exec (.cmd 0x28) failing) = some .busFail := by decide

theorem witness_BusFailAfterItsEvent :
    ({ failing with sent := 1 } : State).resetIn = none ∧ failing.params.propagateBusErr = true ∧
      drawFailed (({ failing with sent := 1 } : State).drawAt 1) = true ∧
      ready.params.propagateBusErr = false ∧ ready.fault ≠ some .busFail ∧
      after (exec (.cmd 0x28) ready) (·.fault) = some none := by decide

theorem failing_failsAt : failing.FailsAt 1 := ⟨rfl, rfl, by decide, by decide⟩

/-- The first transaction of any operation fails. -/
def failingFirst : State := { failing with busScript := [.fail true] }

theorem failingFirst_failsAt : failingFirst.FailsAt 0 := ⟨rfl, rfl, by decide, by decide⟩

/-- All transactions before number `k` are ok, number `k` fails. -/
def failingAt (k : Nat) : State := { failing with busScript := List.replicate k .ok ++ [.fail false] }

/-- The second of six transactions fails; and the one of `SETBL`; and, where the register writes of `BEGIN` begin to
be made, its nineteenth and its twentieth. -/
theorem witness_BusFailStopsAnOperation :
    failing.Ready ∧ failing.FailsAt 1 ∧ failingFirst.Ready ∧ failingFirst.FailsAt 0 ∧ failing.MayBegin ∧
      after (exec (.createChar 0 [1, 2, 3, 4, 5, 6, 7, 8]) failing.tolerant) (fun t => (xferBytes t.trace).length)
        = some 54 ∧
      after (exec (.setBl false) failingFirst) (fun t => (t.bl, t.fault)) = some (false, some .busFail) ∧
      after (exec (.dctl .C true) failing) (fun t => (t.dispCtl, t.trace.length)) = some (0x06, 2) ∧
      after (exec .beginInit { failingAt 18 with dispCtl := 0x07 }) (fun t => (t.dispCtl, t.fault))
        = some (0x07, some .busFail) ∧
      after (exec .beginInit { failingAt 19 with dispCtl := 0x07 }) (fun t => (t.dispCtl, t.fault))
        = some (0x04, some .busFail) :=
  ⟨⟨by decide, rfl⟩, failing_failsAt, ⟨by decide, rfl⟩, failingFirst_failsAt, by unfold State.MayBegin; decide,
    by decide +kernel, by decide, by decide, by decide +kernel, by decide +kernel⟩

theorem witness_DrawsInvisibleWithoutPropagation : ready.params.propagateBusErr = false := rfl

theorem witness_CfgAddrWritesAddress : fresh.InConfig ∧ fresh.resetIn = none := ⟨fresh_config, rfl⟩

/-- No rows, and the fewest that are some. -/
theorem witness_CfgGeomWritesOrFaults :
    fresh.InConfig ∧ fresh.resetIn = none ∧ raised (exec (.cfgGeom 0 0) fresh) = some .cfgInvalid ∧
      after (exec (.cfgGeom 0 1) fresh) (fun t => (t.rows, t.geomSet)) = some (1, true) :=
  ⟨fresh_config, rfl, by decide, by decide⟩

theorem witness_CfgFontPinsBacklightWrite : fresh.InConfig ∧ fresh.resetIn = none := ⟨fresh_config, rfl⟩

/-- Without an address, and with both. -/
theorem witness_BeginNeedsAddressAndGeometry :
    fresh.params.wf = true ∧ fresh.mode ≠ .faulted ∧ fresh.resetIn = none ∧ fresh.addrSet = false ∧
      configured.addrSet = true ∧ configured.geomSet = true ∧ configured.fault = none ∧
      raised (exec .beginInit fresh) = some .cfgMissing ∧ raised (exec .beginInit configured) = none := by decide

theorem witness_BeginRunsTheTwelveSteps : configured.MayBegin ∧ configured.Undisturbed 43 :=
  ⟨configured_may_begin, configured_quiet 43⟩

/-- One row with either font, and two rows. -/
theorem witness_BeginFunctionSetFlags :
    configured.MayBegin ∧ configured.Undisturbed 43 ∧
      after (exec .beginInit { configured with rows := 1 }) (·.dispFn) = some 0x00 ∧
      after (exec .beginInit { configured with rows := 1, charSize := true }) (·.dispFn) = some 0x04 ∧
      after (exec .beginInit { configured with rows := 2, charSize := true }) (·.dispFn) = some 0x08 :=
  ⟨configured_may_begin, configured_quiet 43, by decide, by decide, by decide⟩

theorem witness_BeginTraceShape : configured.MayBegin ∧ configured.Undisturbed 43 :=
  ⟨configured_may_begin, configured_quiet 43⟩

theorem witness_ExpwWritesOnce : ready.Ready ∧ ready.Undisturbed 1 := ⟨ready_ready, ready_quiet 1⟩
theorem witness_PulseHighThenLow : ready.Ready ∧ ready.Undisturbed 2 := ⟨ready_ready, ready_quiet 2⟩

/-- A nibble byte with either mode bit. -/
theorem witness_NibbleTransactionBytes :
    ready.Ready ∧ ready.Undisturbed 3 ∧ (0x30 : Byte) &&& 0x0F = 0 ∧ (0xF1 : Byte) &&& 0x0F = ready.params.expRs :=
  ⟨ready_ready, ready_quiet 3, by decide, by decide⟩

theorem witness_SendHighNibbleFirst : ready.Ready ∧ ready.Undisturbed 6 ∧ (0x01 : Byte) = ready.params.expRs :=
  ⟨ready_ready, ready_quiet 6, rfl⟩

theorem witness_SendRefusesBadMode :
    ready.Ready ∧ ready.resetIn = none ∧ (0x02 : Byte) ≠ 0 ∧ (0x02 : Byte) ≠ ready.params.expRs ∧
      ready.fault = none ∧ raised (exec (.send 0x41 0x02) ready) = some .badMode :=
  ⟨ready_ready, rfl, by decide, by decide, rfl, by decide⟩

theorem witness_ModeBitConstantInSend : ready.Ready ∧ ready.Undisturbed 6 ∧ (0x01 : Byte) = ready.params.expRs :=
  ⟨ready_ready, ready_quiet 6, rfl⟩
theorem witness_CmdAndPutcSendOneByte : ready.Ready ∧ ready.Undisturbed 6 := ⟨ready_ready, ready_quiet 6⟩
theorem witness_CarriedBytesAreSent : ready.Ready ∧ ready.Undisturbed 6 := ⟨ready_ready, ready_quiet 6⟩
theorem witness_ClearAndHomeWaitTwoMilliseconds : ready.Ready ∧ ready.Undisturbed 6 :=
  ⟨ready_ready, ready_quiet 6⟩

/-- Each effective row, the row equal to `ROWS`, and the first row without a base. -/
theorem witness_SetCursorClampsAndAddresses :
    ready.Ready ∧ ready.Undisturbed 6 ∧ ready.rows ≠ 0 ∧
      [effectiveRow 5 0, effectiveRow 5 1, effectiveRow 5 2, effectiveRow 5 3, effectiveRow 5 4, effectiveRow 2 2]
        = [0, 1, 2, 3, 4, 1] ∧
      raised (exec (.setCursor 0 4) fiveRows) = some .rowUnsupported ∧
      raised (exec (.setCursor 0 4) fourRows) = none :=
  ⟨ready_ready, ready_quiet 6, by decide, by decide, by decide, by decide⟩

theorem witness_CreateCharSendsCommandAndRows : ready.Ready ∧ ready.Undisturbed 54 :=
  ⟨ready_ready, ready_quiet 54⟩
theorem witness_SetBacklightWritesOnce : ready.Ready ∧ ready.Undisturbed 2 := ⟨ready_ready, ready_quiet 2⟩
theorem witness_DisplayControlReissued : ready.Ready ∧ ready.Undisturbed 6 := ⟨ready_ready, ready_quiet 6⟩

theorem witness_StepNeverRemovesEvents :
    after (step { ready with trace := [.wait 1], port := [.reset] }) (·.trace) = some [.wait 1] := by decide
theorem witness_OneBusAddress : after (exec (.expw 0) ready) (·.trace) = some (ready.trace ++ [.xfer 0x27 0x08]) := by
  decide

/-- A command drives neither line on its own account; `EXPW 0xFF` drives both. -/
theorem witness_ReadWriteLineStaysLow :
    drivesLine ready.params ready.params.expRw (.cmd 0xFF) = false ∧
      drivesLine ready.params ready.params.expRw (.expw 0xFF) = true ∧
      after (exec (.cmd 0xFF) ready) (fun t => xferBytes t.trace) = some [0xF8, 0xFC, 0xF8, 0xF8, 0xFC, 0xF8] := by
  decide
theorem witness_BacklightLineFollowsBl :
    ready.resetIn = none ∧ drivesLine ready.params ready.params.expBl (.setBl false) = false ∧
      after (exec (.setBl false) ready) (fun t => (t.bl, t.trace)) = some (false, [.xfer 0x27 0x00]) := by decide
theorem witness_RegistersHaveTheirWriters :
    ready.resetIn = none ∧ after (exec (.dctl .B true) ready) (·.dispCtl) = some 0x05 := by decide

theorem ready_inv : Inv ready where
  params := by decide
  faulted := by decide
  geometry := by decide
  configured := by decide
  fnBits := by decide
  ctlBits := by decide
  modeBits := by decide
  cached := by decide
  ddram := by decide
  cgram := by decide
  busy := by decide
  rested := by decide

theorem witness_StepKeepsInvariant :
    Inv { ready with port := [.request (.request .clear []) none] } ∧
      after (step { ready with port := [.request (.request .clear []) none] }) (·.mode) = some .ready :=
  ⟨{ ready_inv with }, by decide⟩

theorem witness_ResetClearsRegisters :
    ({ ready with port := [.reset] } : State).port = .reset :: [] ∧ ready.mode ≠ .faulted ∧
      stopped.mode = .faulted := by decide

/-- No event before the reset, all 78; a fault and a reset at one boundary; and a reset later than the last event. -/
theorem witness_ResetInsideAnOperation :
    configured.MayBegin ∧ configured.Undisturbed 43 ∧ ready.resetIn = none ∧
      after (exec .beginInit { configured with resetIn := some 0 }) (·.trace) = some [] ∧
      after (exec .beginInit { configured with resetIn := some 78 }) (fun t => (t.mode, t.trace.length))
        = some (.config, 78) ∧
      after (exec (.dctl .C true) { ready with resetIn := some 9 }) (fun t => (t.mode, t.trace.length))
        = some (.config, 9) ∧
      after (exec (.send 0 2) { ready with resetIn := some 0 }) (fun t => (t.fault, t.addrSet))
        = some (some .badMode, false) ∧
      after (exec (.setBl false) { ready with resetIn := some 2 }) (fun t => (t.mode, t.bl)) = some (.ready, false) :=
  ⟨configured_may_begin, configured_quiet 43, rfl, by decide, by decide +kernel, by decide, by decide, by decide⟩

/-- In `READY`, and with nothing set. -/
theorem witness_UnsetRegistersNeverRead :
    (ready.mode = .ready → ready.addrSet = true ∧ ready.geomSet = true) ∧
      (fresh.mode = .ready → fresh.addrSet = true ∧ fresh.geomSet = true) := by decide

theorem witness_BeginForcesAKnownController :
    configured.MayBegin ∧ configured.Undisturbed 43 ∧ configured.Arrives 43 ∧ configured.panel.busy ≤ 50000 :=
  ⟨configured_may_begin, configured_quiet 43, configured_arrives, by decide⟩

/-- The last column of row 1 that a two-line controller keeps a byte at. -/
theorem witness_CharacterStoredAtCursor :
    ready.Ready ∧ ready.Undisturbed 12 ∧ ready.Arrives 12 ∧ ready.Linked ∧
      rowBase (effectiveRow ready.rows 1) = some 0x40 ∧
      ddramHolds ready.panel.lcd.twoLine (0x40 + (39 : Byte).toNat) = true ∧
      afterBoth (.setCursor 39 1) (.putc 0x41) ready (fun t => Memory.read t.panel.ddram 0x67) = some (some 0x41) :=
  ⟨ready_ready, ready_quiet 12, ready_arrives.mono (by decide), ready_linked, by decide, by decide,
    by decide +kernel⟩

/-- The last slot: its last row is the last address of CGRAM. -/
theorem witness_GlyphStoredInItsSlot :
    [1, 2, 3, 4, 5, 6, 7, (8 : Byte)].length = 8 ∧ ready.Ready ∧ ready.Undisturbed 54 ∧ ready.Arrives 54 ∧
      ready.Linked ∧ ready.panel.lcd.increment = true ∧
      after (exec (.createChar 7 [1, 2, 3, 4, 5, 6, 7, 8]) ready) (fun t => Memory.read t.panel.cgram 63)
        = some (some 8) :=
  ⟨rfl, ready_ready, ready_quiet 54, ready_arrives, ready_linked, ready_increment, by decide +kernel⟩

/-- At both ends of the resets that part a pair; and a step from a broken pairing that is no `BEGIN`. -/
theorem witness_PairingBrokenUntilBegin :
    ready.Ready ∧ ready.Undisturbed 6 ∧ ready.Arrives 6 ∧ ready.Linked ∧ (0x01 : Byte) = ready.params.expRs ∧
      (0x30 : Byte) &&& 0x0F = 0 ∧
      [after (exec (.send 0x41 1) { ready with resetIn := some 4 }) (·.panel.pairing),
        after (exec (.send 0x41 1) { ready with resetIn := some 8 }) (·.panel.pairing)]
        = [some .broken, some .broken] ∧
      decode ready.params (.request .w4 [.num 0x30]) ≠ .ok .beginInit ∧
      after (step { ready with
          panel := { ready.panel with pairing := .broken }
          port := [.request (.request .w4 [.num 0x30]) none] }) (·.panel.pairing) = some .broken :=
  ⟨ready_ready, ready_quiet 6, ready_arrives.mono (by decide), ready_linked, rfl, by decide, by decide, by decide,
    by decide⟩

theorem witness_ClearSettlesButCommandOneDoesNot :
    ready.Ready ∧ ready.Undisturbed 6 ∧ ready.Arrives 6 ∧ ready.Linked :=
  ⟨ready_ready, ready_quiet 6, ready_arrives.mono (by decide), ready_linked⟩

theorem witness_CommandsStoreNothing :
    ready.Ready ∧ ready.Undisturbed 6 ∧ ready.Arrives 6 ∧ ready.Linked ∧ effectiveRow ready.rows 0 ≤ 3 :=
  ⟨ready_ready, ready_quiet 6, ready_arrives.mono (by decide), ready_linked, by decide⟩

theorem witness_BacklightWriteLatchesNothing :
    ready.Ready ∧ ready.Undisturbed 1 ∧ hasBit ready.panel.out ready.params.expEn = false :=
  ⟨ready_ready, ready_quiet 1, by decide⟩

/-- A byte that arrives, one that is lost, and one that is another device's. -/
theorem witness_ExpanderHoldsTheLastByte :
    ready.Ready ∧ ready.Undisturbed 1 ∧ ready.addr = ready.panel.busAddr ∧ ready.drawAt ready.sent ≠ .fail false ∧
      ({ ready with busScript := [.fail false] } : State).drawAt 0 = .fail false ∧
      after (exec (.expw 0x20) { ready with addr := 0x3F }) (fun t => (t.panel.out, t.trace))
        = some (0x08, [.xfer 0x3F 0x28]) :=
  ⟨ready_ready, ready_quiet 1, rfl, by decide, by decide, by decide⟩

theorem witness_EnableHeldOverWritesIsOnePulse :
    ready.Ready ∧ ready.Undisturbed 3 ∧ ready.Arrives 3 ∧ ready.Linked ∧ (0x30 : Byte) &&& 0x0F = 0 :=
  ⟨ready_ready, ready_quiet 3, ready_arrives.mono (by decide), ready_linked, by decide⟩

/-- A text, and the empty one. -/
theorem witness_PutsExpandsToCharacters :
    (∀ c ∈ ['H', 'i'], c ≠ '"' ∧ c.toNat < 256) ∧
      assembleLine ['P', 'U', 'T', 'S', ' ', '"', '"'] = .ok [] :=
  ⟨by simp, by decide⟩

theorem witness_OperationCosts :
    ready.Undisturbed 54 ∧ ready.Ready ∧ fresh.Undisturbed 54 ∧ fresh.InConfig ∧ configured.Undisturbed 54 ∧
      configured.MayBegin ∧ effectiveRow fiveRows.rows 3 ≤ 3 ∧ ¬ effectiveRow fiveRows.rows 4 ≤ 3 :=
  ⟨ready_quiet 54, ready_ready, fresh_quiet 54, fresh_config, configured_quiet 54, configured_may_begin,
    by decide, by decide⟩

end Sys2Proof.Tests
end

section
/-! PROOFS. The statements of 00_scope.md: every step keeps the invariant of the machine (O42), illegal parameters are
refused (O7), the host's draws are invisible without `PROPAGATE_BUS_ERR` (O15), no step touches the trace behind it
(O37), and a step is the requested instruction's meaning (O5). What one step, and one action, can do is said once
(`step_next`, `act_go`, `act_halt`). -/

namespace Sys2Proof.Machine

/-! ## What a step can do -/

/-- A next state is the same state (an idle port), a reset's, a pause's, or that of an instruction which starts with
the move taken off the port. -/
theorem step_next {s t : State} (h : step s = .next t) :
    t = s ∨ (∃ ms, t = State.hardReset { s with port := ms }) ∨ (∃ ms us, t = s.paused ms us) ∨
      ∃ i ms cut, exec i (s.taken ms cut) = .next t := by
  unfold step at h
  split at h
  · exact .inl (Host.Outcome.next.inj h).symm
  · exact .inr (.inl ⟨_, (Host.Outcome.next.inj h).symm⟩)
  · exact .inr (.inr (.inl ⟨_, _, (Host.Outcome.next.inj h).symm⟩))
  · split at h
    · cases h
    · split at h
      · exact .inr (.inr (.inr ⟨_, _, _, h⟩))
      · cases h

/-! ## What an action can do -/

/-- `s` with the same registers and host moves, but another trace, reset count, transaction count and receivers: what
an event may change. -/
def State.outside (s : State) (tr : List Event) (r : Option Nat) (n : Nat) (pan : Panel) : State :=
  { s with trace := tr, resetIn := r, sent := n, panel := pan }

/-- An action that goes on writes its register, appends to the trace and keeps canonical receivers canonical. -/
theorem act_go {a : Act} {s u : State} (h : act a s = .go u) :
    ∃ es r n pan, (s.panel.Canon → pan.Canon) ∧ u = (settle s a).outside (s.trace ++ es) r n pan := by
  by_cases ha : isEvent a = true
  · have hs : settle s a = s := by
      cases a with
      | openBus | write | wait => rfl
      | _ => cases ha
    rw [hs]
    obtain ⟨-, e⟩ | ⟨e, n, pan, -, -, hc, h' | ⟨-, h'⟩⟩ := act_event_cases ha s
    · cases e.symm.trans h
    · exact ⟨[e], _, n, pan, hc, (Flow.go.inj (h'.symm.trans h)).symm⟩
    · cases h'.symm.trans h
  · have same (pan : Panel) (hc : s.panel.Canon → pan.Canon)
        (e : act a s = .go { settle s a with panel := pan })
        (ht : (settle s a).trace = s.trace) :
        ∃ es r n pan, (s.panel.Canon → pan.Canon) ∧ u = (settle s a).outside (s.trace ++ es) r n pan :=
      ⟨[], (settle s a).resetIn, (settle s a).sent, pan, hc, by
        rw [← Flow.go.inj (e.symm.trans h), List.append_nil, ← ht]; rfl⟩
    cases a with
    | revive => exact same _ Panel.revive_canon rfl rfl
    | repair => exact same _ Panel.repair_canon rfl rfl
    | openBus | write | wait => exact absurd rfl ha
    | _ => exact same s.panel id rfl rfl

/-- An action that stops the operation met the host's reset, or was a transport write whose event is in the trace
and whose transaction failed. -/
theorem act_halt {a : Act} {s u : State} (h : act a s = .halt u) :
    u = s.hardReset ∨
      ∃ e n pan, (s.panel.Canon → pan.Canon) ∧
        u = State.raise .busFail (s.outside (s.trace ++ [e]) (s.resetIn.map (· - 1)) n pan) := by
  by_cases ha : isEvent a = true
  · obtain ⟨-, e⟩ | ⟨e, n, pan, -, -, hc, h' | ⟨-, h'⟩⟩ := act_event_cases ha s
    · exact .inl (Flow.halt.inj (e.symm.trans h)).symm
    · cases h'.symm.trans h
    · exact .inr ⟨e, n, pan, hc, (Flow.halt.inj (h'.symm.trans h)).symm⟩
  · cases a with
    | openBus | write | wait => exact absurd rfl ha
    | _ => cases h

/-- Register writes do not look at what events change. -/
theorem foldl_settle_outside (as : List Act) (s : State) (tr : List Event) (r : Option Nat) (n : Nat) (pan : Panel) :
    as.foldl settle (s.outside tr r n pan) = (as.foldl settle s).outside tr r n pan := by
  induction as generalizing s with
  | nil => rfl
  | cons a as ih =>
    have e : settle (s.outside tr r n pan) a = (settle s a).outside tr r n pan := by cases a <;> rfl
    rw [List.foldl_cons, List.foldl_cons, e, ih]

/-- A list of actions that is walked to its end has made its register writes, and no others. -/
theorem runActs_go {as : List Act} {s u : State} (h : runActs as s = .go u) :
    ∃ tr r n pan, u = (as.foldl settle s).outside tr r n pan := by
  induction as generalizing s with
  | nil => exact ⟨s.trace, s.resetIn, s.sent, s.panel, (Flow.go.inj h).symm⟩
  | cons a as ih =>
    rw [runActs] at h
    split at h
    · rename_i t e
      obtain ⟨es, r, n, pan, -, rfl⟩ := act_go e
      obtain ⟨tr', r', n', pan', rfl⟩ := ih h
      exact ⟨tr', r', n', pan', by rw [foldl_settle_outside, List.foldl_cons]; rfl⟩
    · cases h

/-! ## O37: the trace only grows -/

/-- `t`'s trace continues that of `s`. -/
def State.Extends (s t : State) : Prop := ∃ es, t.trace = s.trace ++ es

theorem State.Extends.of_eq {s t : State} (h : t.trace = s.trace) : s.Extends t := ⟨[], by simp [h]⟩

theorem State.Extends.trans {s t u : State} (h₁ : s.Extends t) (h₂ : t.Extends u) : s.Extends u := by
  obtain ⟨es, h₁⟩ := h₁
  obtain ⟨fs, h₂⟩ := h₂
  exact ⟨es ++ fs, by rw [h₂, h₁, List.append_assoc]⟩

theorem act_extends (a : Act) (s : State) : s.Extends (act a s).state := by
  cases h : act a s with
  | go u =>
    obtain ⟨es, r, n, pan, -, rfl⟩ := act_go h
    exact ⟨es, rfl⟩
  | halt u =>
    obtain rfl | ⟨e, n, pan, -, rfl⟩ := act_halt h
    · exact .of_eq rfl
    · exact ⟨[e], rfl⟩

@[simp] theorem State.endOperation_trace (s : State) : s.endOperation.trace = s.trace := by
  unfold State.endOperation
  split <;> rfl

/-- No instruction removes or changes an event already in the trace. -/
theorem exec_extends {i : Instr} {s t : State} (h : exec i s = .next t) : s.Extends t := by
  obtain ⟨-, -, rfl⟩ := exec_next h
  refine State.Extends.trans ?_ (.of_eq (State.endOperation_trace _))
  cases hp : plan i s with
  | fail c => exact .of_eq rfl
  | set u =>
    obtain ⟨-, -, -, -, ht, -⟩ := plan_set hp
    exact .of_eq ht
  | run as =>
    rw [Plan.flow, runOp_state]
    exact runActs_keeps s.Extends as (fun a _ u hu => hu.trans (act_extends a u)) (.of_eq rfl)

/-- Settles O37: by the four things a step can be, and of an instruction by its actions one after the other. -/
theorem stepNeverRemovesEvents : Obligations.StepNeverRemovesEvents := by
  intro s t h
  obtain rfl | ⟨ms, rfl⟩ | ⟨ms, us, rfl⟩ | ⟨i, ms, cut, h⟩ := step_next h
  · exact State.Extends.of_eq rfl
  · exact State.Extends.of_eq rfl
  · exact State.Extends.of_eq rfl
  · have start : s.Extends (s.taken ms cut) := .of_eq rfl
    exact start.trans (exec_extends h)

/-! ## O42: the invariant

Inside an operation the receivers need not be at rest, so what is carried along a list of actions is `Sound`: every
clause of `Inv` but that one. -/

/-- The clauses of `Inv` that hold between any two actions of an operation too. -/
structure Sound (s : State) : Prop where
  params : s.params.wf = true
  faulted : s.mode = .faulted ↔ s.fault ≠ none
  geometry : s.geomSet = true → s.rows ≠ 0
  configured : s.mode = .ready → s.addrSet = true ∧ s.geomSet = true
  fnBits : s.dispFn &&& 0xF3 = 0
  ctlBits : s.dispCtl &&& 0xF8 = 0
  modeBits : s.dispMode &&& 0xFC = 0
  cached : s.mode = .ready → s.dispFn = fnFlags s.rows s.charSize ∧ s.dispMode = 0x02
  panel : s.panel.Canon

theorem inv_iff_sound {s : State} : Inv s ↔ Sound s ∧ s.panel.rest s.params = s.panel := by
  constructor
  · intro h
    exact ⟨⟨h.params, h.faulted, h.geometry, h.configured, h.fnBits, h.ctlBits, h.modeBits, h.cached,
      h.ddram, h.cgram, h.busy⟩, h.rested⟩
  · rintro ⟨h, hr⟩
    obtain ⟨hd, hc, hb⟩ := h.panel
    exact ⟨h.params, h.faulted, h.geometry, h.configured, h.fnBits, h.ctlBits, h.modeBits, h.cached, hd, hc, hb, hr⟩

namespace Sound

variable {s : State}

theorem outside (h : Sound s) (tr : List Event) (r : Option Nat) (n : Nat) {pan : Panel} (hc : pan.Canon) :
    Sound (s.outside tr r n pan) :=
  ⟨h.params, h.faulted, h.geometry, h.configured, h.fnBits, h.ctlBits, h.modeBits, h.cached, hc⟩

theorem withPort (h : Sound s) (ms : List HostMove) : Sound { s with port := ms } :=
  ⟨h.params, h.faulted, h.geometry, h.configured, h.fnBits, h.ctlBits, h.modeBits, h.cached, h.panel⟩

theorem rest (h : Sound s) : Sound s.rest :=
  h.outside s.trace s.resetIn s.sent (Panel.rest_canon s.params h.panel)

theorem raise (h : Sound s) (c : FaultCode) : Sound (s.raise c) :=
  ⟨h.params, by simp, h.geometry, by simp, h.fnBits, h.ctlBits, h.modeBits, by simp, h.panel⟩

theorem hardReset (h : Sound s) : Sound s.hardReset := by
  have notReady : s.hardReset.mode ≠ .ready := by rw [State.hardReset_mode]; split <;> simp
  refine ⟨h.params, ?_, by simp, fun e => absurd e notReady, by simp, by simp, by simp,
    fun e => absurd e notReady, h.panel⟩
  by_cases hm : s.mode = .faulted
  · simpa [hm] using h.faulted.1 hm
  · simp [hm]

theorem endOperation (h : Sound s) : Sound s.endOperation := by
  unfold State.endOperation
  split
  · exact h.hardReset
  · exact h.outside s.trace none s.sent h.panel

/-- `BEGIN`'s last write (R152): `READY`, once the configuration is there and the bytes are computed from it. -/
theorem enterReady (h : Sound s) (hm : s.mode ≠ .faulted) (hc : s.addrSet = true ∧ s.geomSet = true)
    (hb : s.dispFn = fnFlags s.rows s.charSize ∧ s.dispMode = 0x02) : Sound { s with mode := .ready } :=
  ⟨h.params, by simpa [hm] using h.faulted, h.geometry, fun _ => hc, h.fnBits, h.ctlBits, h.modeBits, fun _ => hb,
    h.panel⟩

end Sound

/-! ### Register writes that keep it -/

theorem fnFlags_bits (rows : Byte) (charSize : Bool) : fnFlags rows charSize &&& 0xF3 = 0 := by
  unfold fnFlags
  split <;> split <;> rfl

theorem dctlApply_bits {ctl : Byte} (f : DctlField) (v : Bool) (h : ctl &&& 0xF8 = 0) :
    dctlApply ctl f v &&& 0xF8 = 0 := by
  have all : ∀ c : Byte, c &&& 0xF8 = 0 → dctlApply c f v &&& 0xF8 = 0 := by
    cases f <;> cases v <;> decide
  exact all ctl h

/-- The register writes an operation of `s` may make before it ends: cached bytes as `BEGIN` computes them from the
configuration of `s`, and display-control bytes within bits 2:0. -/
def Act.Fits (s : State) : Act → Prop
  | .setFn v => v = fnFlags s.rows s.charSize
  | .setCtl v => v &&& 0xF8 = 0
  | .setMode v => v = 0x02
  | .ready => False
  | _ => True

/-- Only the actions that are no events need a look. -/
theorem Act.fits_of_filter {s : State} {as : List Act}
    (h : ∀ a ∈ as.filter (fun a => !isEvent a), a.Fits s) : ∀ a ∈ as, a.Fits s := by
  intro a ha
  by_cases he : isEvent a = true
  · cases a <;> trivial
  · exact h a (List.mem_filter.2 ⟨ha, by simpa using he⟩)

theorem Sound.settle {s : State} (h : Sound s) {a : Act} (ha : a.Fits s) : Sound (settle s a) := by
  cases a with
  | setFn v =>
    subst ha
    exact { h with fnBits := fnFlags_bits s.rows s.charSize, cached := fun e => ⟨rfl, (h.cached e).2⟩ }
  | setCtl v => exact { h with ctlBits := ha }
  | setMode v =>
    subst ha
    exact { h with modeBits := (by decide : (0x02 : Byte) &&& 0xFC = 0), cached := fun e => ⟨(h.cached e).1, rfl⟩ }
  | setBl b => exact { h with }
  | ready => exact ha.elim
  | openBus | write | wait | revive | repair => exact h

theorem settle_config {s : State} {a : Act} : (settle s a).rows = s.rows ∧ (settle s a).charSize = s.charSize := by
  cases a <;> exact ⟨rfl, rfl⟩

theorem Act.Fits.congr {s t : State} {a : Act} (h : a.Fits s) (hr : t.rows = s.rows)
    (hc : t.charSize = s.charSize) : a.Fits t := by
  cases a <;> simp_all [Act.Fits]

/-- An operation whose register writes fit stays sound, wherever it goes on and wherever it stops. -/
theorem runActs_sound {as : List Act} {s : State} (h : Sound s) (hf : ∀ a ∈ as, a.Fits s) :
    Sound (runActs as s).state := by
  have w := runActs_walk (fun t => Sound t ∧ t.rows = s.rows ∧ t.charSize = s.charSize) Sound as (s := s)
    (by
      rintro a ha t u ⟨ht, hr, hc⟩ e
      obtain ⟨es, r, n, pan, hp, rfl⟩ := act_go e
      obtain ⟨hr', hc'⟩ := settle_config (s := t) (a := a)
      exact ⟨(ht.settle ((hf a ha).congr hr hc)).outside _ _ _ (hp ht.panel), hr'.trans hr, hc'.trans hc⟩)
    (by
      rintro a ha t u ⟨ht, -, -⟩ e
      obtain rfl | ⟨e, n, pan, hp, rfl⟩ := act_halt e
      · exact ht.hardReset
      · exact (ht.outside _ _ _ (hp ht.panel)).raise _)
    ⟨h, rfl, rfl⟩
  cases e : runActs as s with
  | go u => exact (w.1 u e).1
  | halt u => exact w.2 u e

/-! ### Plans -/

/-- `BEGIN`'s list but for its last write. -/
def beginBody (s : State) : List Act :=
  beginOpen ++ beginSettle s ++ beginForce s.params ++ beginFunction s ++ beginFinish s.params ++ [.repair]

theorem beginActs_eq_body (s : State) : beginActs s = beginBody s ++ [.ready] := by
  simp only [beginActs, beginBody, List.append_assoc, List.cons_append, List.nil_append]

/-- What of it is no event: the three cached bytes and the controller's recovery. -/
theorem beginBody_filter (s : State) :
    (beginBody s).filter (fun a => !isEvent a)
      = [.setFn (fnFlags s.rows s.charSize), .revive, .setCtl dispCtlInit, .setMode dispModeInit, .repair] := rfl

theorem beginBody_settle (s : State) :
    (beginBody s).foldl settle s
      = { s with dispFn := fnFlags s.rows s.charSize, dispCtl := dispCtlInit, dispMode := dispModeInit } := rfl

theorem beginActs_sound {s : State} (h : Sound s) (hm : s.mode ≠ .faulted)
    (hc : s.addrSet = true ∧ s.geomSet = true) : Sound (runActs (beginActs s) s).state := by
  have fits : ∀ a ∈ beginBody s, a.Fits s := by
    refine Act.fits_of_filter ?_
    rw [beginBody_filter]
    simp [Act.Fits, dispCtlInit, dispModeInit]
  have body := runActs_sound h fits
  rw [beginActs_eq_body, runActs_append]
  cases e : runActs (beginBody s) s with
  | halt u => rwa [e] at body
  | go u =>
    rw [e] at body
    obtain ⟨tr, r, n, pan, hu⟩ := runActs_go e
    rw [beginBody_settle] at hu
    subst hu
    exact body.enterReady hm hc ⟨rfl, rfl⟩

/-- A setter writes no geometry without a row (R207). -/
theorem plan_set_geometry {i : Instr} {s t : State} (h : plan i s = .set t)
    (hg : s.geomSet = true → s.rows ≠ 0) : t.geomSet = true → t.rows ≠ 0 := by
  cases i <;> simp only [plan, Plan.ready, Plan.config] at h <;> (repeat' split at h) <;> cases h
  case cfgGeom hr => exact fun _ => hr
  all_goals exact hg

theorem plan_set_sound {i : Instr} {s t : State} (h : Sound s) (hp : plan i s = .set t) : Sound t := by
  have hg := plan_set_geometry hp h.geometry
  obtain ⟨hm, e₁, e₂, -, -, e₃, e₄, -, -, -, e₅, e₆, e₇⟩ := plan_set hp
  have notReady : t.mode ≠ .ready := by simp [e₁, hm]
  exact ⟨e₃ ▸ h.params, by rw [e₁, e₂]; exact h.faulted, hg, fun e => absurd e notReady, e₅ ▸ h.fnBits,
    e₆ ▸ h.ctlBits, e₇ ▸ h.modeBits, fun e => absurd e notReady, e₄ ▸ h.panel⟩

/-- Every list an instruction walks keeps a sound state sound. -/
theorem plan_run_sound {i : Instr} {s : State} {as : List Act} (h : Sound s) (hm : s.mode ≠ .faulted)
    (hp : plan i s = .run as) : Sound (runActs as s).state := by
  obtain ⟨-, ha, hg, rfl⟩ | ⟨-, he | ⟨on, -, rfl⟩ | ⟨f, v, -, rfl⟩⟩ := plan_run hp
  · exact beginActs_sound h hm ⟨ha, hg⟩
  · refine runActs_sound h (Act.fits_of_filter ?_)
    have none : as.filter (fun a => !isEvent a) = [] := by
      simpa [List.filter_eq_nil_iff] using he
    simp [none]
  · exact runActs_sound h (by simp [Act.Fits])
  · refine runActs_sound h (Act.fits_of_filter ?_)
    have only : (Act.setCtl (dctlApply s.dispCtl f v)
        :: cmdActs s.params (ctlCommand (dctlApply s.dispCtl f v))).filter (fun a => !isEvent a)
        = [.setCtl (dctlApply s.dispCtl f v)] := rfl
    rw [only]
    simpa [Act.Fits] using dctlApply_bits f v h.ctlBits

/-! ### Steps -/

theorem State.endOperation_panel (s : State) : s.endOperation.panel = s.panel := by
  unfold State.endOperation
  split <;> rfl

theorem State.endOperation_params (s : State) : s.endOperation.params = s.params := by
  unfold State.endOperation
  split <;> rfl

theorem Inv.endOperation {s : State} (h : Inv s) : Inv s.endOperation := by
  obtain ⟨hs, hr⟩ := inv_iff_sound.1 h
  refine inv_iff_sound.2 ⟨hs.endOperation, ?_⟩
  rw [State.endOperation_panel, State.endOperation_params, hr]

/-- Every instruction keeps the invariant. -/
theorem exec_keeps_inv {i : Instr} {s t : State} (h : Inv s) (e : exec i s = .next t) : Inv t := by
  obtain ⟨hs, hr⟩ := inv_iff_sound.1 h
  obtain ⟨-, hm, rfl⟩ := exec_next e
  refine Inv.endOperation (inv_iff_sound.2 ?_)
  cases hp : plan i s with
  | fail c => exact ⟨hs.raise c, hr⟩
  | set u =>
    obtain ⟨-, -, -, -, -, hparams, hpanel, -⟩ := plan_set hp
    exact ⟨plan_set_sound hs hp, by rw [Plan.flow, Flow.state, hparams, hpanel, hr]⟩
  | run as =>
    rw [Plan.flow, runOp_state]
    exact ⟨(plan_run_sound hs hm hp).rest, Panel.rest_rest _ _⟩

theorem Inv.taken {s : State} (h : Inv s) (ms : List HostMove) (cut : Option Nat) : Inv (s.taken ms cut) := by
  obtain ⟨hs, hr⟩ := inv_iff_sound.1 h
  exact inv_iff_sound.2 ⟨(hs.withPort ms).outside s.trace cut s.sent hs.panel, hr⟩

theorem Inv.reset {s : State} (h : Inv s) (ms : List HostMove) : Inv (State.hardReset { s with port := ms }) := by
  obtain ⟨hs, hr⟩ := inv_iff_sound.1 h
  exact inv_iff_sound.2 ⟨(hs.withPort ms).hardReset, hr⟩

/-- A pause takes nothing from the receivers but owed delay, so they stay at rest. -/
theorem Inv.paused {s : State} (h : Inv s) (ms : List HostMove) (us : Nat) : Inv (s.paused ms us) := by
  obtain ⟨hs, hr⟩ := inv_iff_sound.1 h
  refine inv_iff_sound.2 ⟨(hs.withPort ms).outside s.trace s.resetIn s.sent (Panel.elapse_canon us hs.panel), ?_⟩
  have commutes : (s.panel.elapse us).rest s.params = (s.panel.rest s.params).elapse us := rfl
  rw [State.paused_panel, State.paused_params, commutes, hr]

/-- Settles O42: an idle port changes nothing; a reset, a pause and an instruction each keep the invariant, the last
because every action of its list keeps `Sound` and its end leaves the receivers at rest. -/
theorem stepKeepsInvariant : Obligations.StepKeepsInvariant := by
  intro s t h e
  obtain rfl | ⟨ms, rfl⟩ | ⟨ms, us, rfl⟩ | ⟨i, ms, cut, e⟩ := step_next e
  · exact h
  · exact h.reset ms
  · exact h.paused ms us
  · exact exec_keeps_inv (h.taken ms cut) e

/-! ## O7: parameters -/

end Sys2Proof.Machine

namespace Sys2Proof

theorem Params.legalLine_iff {b : Byte} :
    Params.legalLine b = true ↔ b = 0x01 ∨ b = 0x02 ∨ b = 0x04 ∨ b = 0x08 := by
  simp only [Params.legalLine, Bool.or_eq_true, beq_iff_eq, or_assoc]

/-- `Params.wf` is R8, clause by clause. -/
theorem Params.wf_iff {p : Params} :
    p.wf = true ↔
      (∀ l ∈ [p.expRs, p.expRw, p.expEn, p.expBl], l = 0x01 ∨ l = 0x02 ∨ l = 0x04 ∨ l = 0x08) ∧
      [p.expRs, p.expRw, p.expEn, p.expBl].Nodup ∧
      p.expRs ||| p.expRw ||| p.expEn ||| p.expBl = 0x0F := by
  have legal : (∀ l ∈ [p.expRs, p.expRw, p.expEn, p.expBl], l = 0x01 ∨ l = 0x02 ∨ l = 0x04 ∨ l = 0x08) ↔
      Params.legalLine p.expRs = true ∧ Params.legalLine p.expRw = true ∧ Params.legalLine p.expEn = true ∧
        Params.legalLine p.expBl = true := by
    simp [Params.legalLine_iff]
  have distinct : [p.expRs, p.expRw, p.expEn, p.expBl].Nodup ↔
      p.expRs ≠ p.expRw ∧ p.expRs ≠ p.expEn ∧ p.expRs ≠ p.expBl ∧
        p.expRw ≠ p.expEn ∧ p.expRw ≠ p.expBl ∧ p.expEn ≠ p.expBl := by
    simp [and_assoc]
  rw [legal, distinct]
  simp only [Params.wf, Bool.and_eq_true, bne_iff_ne, beq_iff_eq, and_assoc]

end Sys2Proof

namespace Sys2Proof.Machine

/-- Settles O7: `wf` is R8 clause by clause, and every meaning is admitted through `accept`. -/
theorem illegalParametersRefused : Obligations.IllegalParametersRefused := by
  refine ⟨fun p => Params.wf_iff, fun i s h => ?_⟩
  rw [exec_eq_plan, accept, h]
  rfl

/-! ## O15: the draws -/

/-- `s` with other receivers and other results of the host's. -/
def State.withBus (s : State) (pan : Panel) (script : List XferResult) : State :=
  { s with panel := pan, busScript := script }

/-- States that are the same but for the receivers and the results the host has decided, and in which a failed
transaction stops no operation. -/
def SameButBus (s t : State) : Prop :=
  s.params.propagateBusErr = false ∧ ∃ pan script, t = s.withBus pan script

/-- Without `PROPAGATE_BUS_ERR` a transport write stops at a reset only. -/
theorem expWrite_tolerant (b : Byte) {s : State} (h : s.params.propagateBusErr = false) :
    expWrite b s = emit (.xfer s.addr (b ||| s.blv)) s fun t => .go (t.transact (b ||| s.blv)) := by
  simp [expWrite, xfer, emit, h]

/-- The next event of two such states is the same one, or the same reset comes before it. -/
theorem emit_sameButBus (e : Event) {s t : State} (h : SameButBus s t) {k l : State → Flow}
    (hk : SameButBus (s.push e) (t.push e) → Flow.Related SameButBus SameButBus (k (s.push e)) (l (t.push e))) :
    Flow.Related SameButBus SameButBus (emit e s k) (emit e t l) := by
  obtain ⟨hp, pan, script, rfl⟩ := h
  have hr : (s.withBus pan script).resetIn = s.resetIn := rfl
  unfold emit
  rw [hr]
  split
  · exact ⟨hp, pan, script, rfl⟩
  · exact hk ⟨hp, pan, script, rfl⟩

/-- No action tells two such states apart. -/
theorem act_sameButBus (a : Act) {s t : State} (h : SameButBus s t) :
    Flow.Related SameButBus SameButBus (act a s) (act a t) := by
  cases a with
  | openBus =>
    have same : ∀ e, Flow.Related SameButBus SameButBus (emit e s .go) (emit e t .go) :=
      fun e => emit_sameButBus e h id
    obtain ⟨hp, pan, script, rfl⟩ := h
    exact same _
  | write b =>
    have same : ∀ e x, Flow.Related SameButBus SameButBus (emit e s fun u => .go (u.transact x))
        (emit e t fun u => .go (u.transact x)) := fun e x => emit_sameButBus e h fun ⟨hp, pan, script, h'⟩ =>
      ⟨hp, ((t.push e).transact x).panel, script, by rw [h']; rfl⟩
    obtain ⟨hp, pan, script, rfl⟩ := h
    simp only [act]
    rw [expWrite_tolerant b hp, expWrite_tolerant b (s := s.withBus pan script) hp]
    exact same _ _
  | wait n =>
    simp only [act, wait]
    refine emit_sameButBus (.wait n) h fun h' => ?_
    obtain ⟨hp, pan, script, e⟩ := h'
    exact ⟨hp, _, script, by rw [e]; rfl⟩
  | revive | repair | setFn | setCtl | setMode | setBl | ready =>
    obtain ⟨hp, pan, script, rfl⟩ := h
    exact ⟨hp, _, script, rfl⟩

/-- Where going on and stopping ask for the same relation, it holds of the states reached. -/
theorem Flow.Related.state {R : State → State → Prop} : ∀ {f g : Flow}, Flow.Related R R f g → R f.state g.state
  | .go _, .go _, h => h
  | .halt _, .halt _, h => h
  | .go _, .halt _, h => h.elim
  | .halt _, .go _, h => h.elim

theorem SameButBus.rest {s t : State} (h : SameButBus s t) : SameButBus s.rest t.rest := by
  obtain ⟨hp, pan, script, rfl⟩ := h
  exact ⟨hp, pan.rest s.params, script, rfl⟩

theorem SameButBus.endOperation {s t : State} (h : SameButBus s t) :
    SameButBus s.endOperation t.endOperation := by
  obtain ⟨hp, pan, script, rfl⟩ := h
  have hr : (s.withBus pan script).resetIn = s.resetIn := rfl
  unfold State.endOperation
  rw [hr]
  split
  · exact ⟨hp, pan, script, rfl⟩
  · exact ⟨hp, pan, script, rfl⟩

theorem SameButBus.withoutBus {s t : State} (h : SameButBus s t) : s.withoutBus = t.withoutBus := by
  obtain ⟨-, pan, script, rfl⟩ := h
  rfl

/-- A plan, the state it sets with other receivers and results. -/
def Plan.withBus (pan : Panel) (script : List XferResult) : Plan → Plan
  | .set t => .set (t.withBus pan script)
  | p => p

/-- No plan looks at the receivers or at the host's results. -/
theorem plan_withBus (i : Instr) (s : State) (pan : Panel) (script : List XferResult) :
    plan i (s.withBus pan script) = (plan i s).withBus pan script := by
  cases i with
  | setCursor col row =>
    have sameRow : effectiveRow (s.withBus pan script).rows row = effectiveRow s.rows row := rfl
    simp only [plan, Plan.ready, apply_ite (Plan.withBus pan script), sameRow]
    cases rowBase (effectiveRow s.rows row) <;> rfl
  | _ =>
    simp only [plan, Plan.ready, Plan.config, apply_ite (Plan.withBus pan script)]
    rfl

/-- Nor does what a plan reaches, but for its own. -/
theorem plan_flow_sameButBus (i : Instr) {s t : State} (h : SameButBus s t) :
    SameButBus ((plan i s).flow s).state ((plan i t).flow t).state := by
  obtain ⟨hp, pan, script, rfl⟩ := h
  have start : SameButBus s (s.withBus pan script) := ⟨hp, pan, script, rfl⟩
  rw [plan_withBus]
  cases e : plan i s with
  | fail c => exact ⟨hp, pan, script, rfl⟩
  | set u =>
    obtain ⟨-, -, -, -, -, hparams, -⟩ := plan_set e
    exact ⟨by rw [← hp, ← hparams]; rfl, pan, script, rfl⟩
  | run as =>
    have walk := (runActs_related _ _ as (fun a _ u v huv => act_sameButBus a huv) start).state
    simpa only [Plan.withBus, Plan.flow, runOp_state] using walk.rest

/-- Admission looks at the parameters, the mode and the fault only; seen through `f`, two answers agree where the ends
of the two operations do. -/
theorem mapNext_accept (f : State → State) {s t : State} {g h : State → Flow} (hp : s.params = t.params)
    (hm : s.mode = t.mode) (hf : s.fault = t.fault)
    (e : f (g s).state.endOperation = f (h t).state.endOperation) :
    mapNext f (accept s g) = mapNext f (accept t h) := by
  unfold accept
  rw [hp, hm, hf]
  split
  · split
    · rfl
    · exact congrArg Host.Outcome.next e
  · rfl

/-- Settles O15: no instruction's plan tells two states apart that differ in the draws, and the receivers that do
differ after it are set aside. -/
theorem drawsInvisibleWithoutPropagation : Obligations.DrawsInvisibleWithoutPropagation := by
  intro i s script hp
  have ends := (plan_flow_sameButBus i (s := s) ⟨hp, s.panel, script, rfl⟩).endOperation.withoutBus
  rw [exec_eq_plan, exec_eq_plan]
  exact mapNext_accept State.withoutBus rfl rfl rfl ends.symm

/-! ## O5: the step of a request -/

/-- Settles O5: the move is a request, its term decodes, the instruction is well-formed, so each of the step's choices
is made. -/
theorem stepRunsTheRequestedInstruction : Obligations.StepRunsTheRequestedInstruction := by
  intro s t cut ms i hport hdecode hwf
  have move : s.nextMove = some (.request t cut, ms) := by rw [State.nextMove, hport]
  simp only [step, move, hdecode, hwf, if_true]
  rfl

end Sys2Proof.Machine
end

section
/-! PROOFS. The statements of 10_state.md: the values at power-on (O43, O44), which instructions write which register
(O41), what no instruction reads (O47, O48, O49), what the expander's latch holds (O57), and that `BEGIN` makes the
controller known (O50). -/

namespace Sys2Proof.Machine

/-! ## O43, O44: power-on -/

/-- Settles O43: nothing is configured, the cached bytes are 0, and the pairing is broken. -/
theorem resetMeetsInvariant : Obligations.ResetMeetsInvariant := by
  have sound : Sound State.reset :=
    { params := rfl, faulted := by decide, geometry := by decide, configured := by decide
      fnBits := rfl, ctlBits := rfl, modeBits := rfl, cached := by decide, panel := Panel.powerOn_canon }
  exact inv_iff_sound.2 ⟨sound, Panel.rest_of_broken rfl⟩

/-- Settles O44: `State.reset` is the power-on state with the default parameters, field by field. -/
theorem resetValues : Obligations.ResetValues :=
  ⟨rfl, rfl, rfl, rfl, rfl, rfl, rfl, rfl, rfl, rfl, rfl⟩

/-! ## O57: the expander's latch -/

/-- Once the operation has ended a byte that was lost has left no mark: it only keeps a `BEGIN` under way from repairing
the pairing, and none is under way then. -/
theorem Panel.missed_rest (p : Params) (pan : Panel) : pan.missed.rest p = pan.rest p := by
  cases h : pan.pairing <;> simp [Panel.missed, Panel.rest, Panel.awaitsPair, h]

/-- A lost byte is missed, whichever address it was for (R211). -/
theorem Panel.receive_lost (p : Params) (k : Nat) (a : BusAddr) (b : Byte) (pan : Panel) :
    pan.receive p (.fail false) k a b = pan.missed := by
  unfold Panel.receive
  split <;> rfl

/-- `EXPW` is one transport write, and then what the end of every operation does to the pairing. -/
theorem exec_expw {b : Byte} {s : State} (hr : s.Ready) (hu : s.Undisturbed 1) :
    ∃ t, exec (.expw b) s = .next t ∧ t.trace = s.trace ++ [.xfer s.addr (b ||| s.backlight)] ∧
      t.panel = (s.panel.receive s.params (s.drawAt s.sent) s.sent s.addr (b ||| s.backlight)).rest s.params :=
  ⟨_, exec_events [.write b] hr rfl rfl hu, rfl, rfl⟩

/-- Settles O57: `EXPW`'s one transport write arrives, is lost, or is for another address. -/
theorem expanderHoldsTheLastByte : Obligations.ExpanderHoldsTheLastByte := by
  intro b s hr hu
  obtain ⟨t, he, htrace, hpanel⟩ := exec_expw (b := b) hr hu
  refine ⟨t, he, htrace, fun haddr harrives => ?_, fun hlost => ?_, fun haddr => ?_⟩ <;> rw [hpanel]
  · rw [Panel.receive_arrives _ _ haddr harrives]
    rfl
  · rw [hlost, Panel.receive_lost, Panel.missed_rest]
  · rw [Panel.receive_elsewhere _ _ _ _ haddr, Panel.missed_rest]

/-! ## What a configuration setter writes -/

/-- The registers a configuration setter writes (R140 to R144). -/
def setting : Instr → State → State
  | .cfgAddr a, s => { s with addr := a, addrSet := true }
  | .cfgGeom c r, s => { s with cols := c, rows := r, geomSet := true }
  | .cfgFont f, s => { s with charSize := f }
  | .cfgPins p, s => { s with pins := p, pinsSet := true }
  | .cfgBl b, s => { s with bl := b }
  | _, s => s

/-- A plan that only writes registers writes those of its setter. -/
theorem plan_set_eq {i : Instr} {s t : State} (h : plan i s = .set t) : t = setting i s := by
  cases i <;> simp only [plan, Plan.ready, Plan.config] at h <;> (repeat' split at h) <;> cases h <;> rfl

/-! ## O41: every register has its writers -/

/-- The instructions that may contain a register write, in the modes they are admitted in. -/
def Act.WrittenBy (i : Instr) (s : State) : Act → Prop
  | .setFn _ => i = .beginInit
  | .setCtl _ => i = .beginInit ∨ s.mode = .ready ∧ ∃ f v, i = .dctl f v
  | .setMode _ => i = .beginInit
  | .setBl _ => s.mode = .ready ∧ ∃ b, i = .setBl b
  | .ready => i = .beginInit
  | _ => True

/-- Only the actions that are no events need a look. -/
theorem Act.writtenBy_of_filter {i : Instr} {s : State} {as : List Act}
    (h : ∀ a ∈ as.filter (fun a => !isEvent a), a.WrittenBy i s) : ∀ a ∈ as, a.WrittenBy i s := by
  intro a ha
  cases a with
  | openBus | write | wait => trivial
  | _ => exact h _ (List.mem_filter.2 ⟨ha, rfl⟩)

/-- What an instruction's list writes, the instruction writes. -/
theorem plan_run_writtenBy {i : Instr} {s : State} {as : List Act} (h : plan i s = .run as) :
    ∀ a ∈ as, a.WrittenBy i s := by
  refine Act.writtenBy_of_filter ?_
  obtain ⟨rfl, -, -, rfl⟩ | ⟨hm, he | ⟨on, rfl, rfl⟩ | ⟨f, v, rfl, rfl⟩⟩ := plan_run h
  · rw [beginActs_eq_body, List.filter_append, beginBody_filter]
    simp [Act.WrittenBy, isEvent]
  · have none : as.filter (fun a => !isEvent a) = [] := by simpa [List.filter_eq_nil_iff] using he
    simp [none]
  · simp [Act.WrittenBy, isEvent, hm]
  · have only : (Act.setCtl (dctlApply s.dispCtl f v)
        :: cmdActs s.params (ctlCommand (dctlApply s.dispCtl f v))).filter (fun a => !isEvent a)
        = [.setCtl (dctlApply s.dispCtl f v)] := rfl
    rw [only]
    simp [Act.WrittenBy, hm]

/-- What an instruction `i` of `s` may have changed while it goes on: only what it writes, and no fault raised. -/
structure Kept (i : Instr) (s t : State) : Prop where
  params : t.params = s.params
  port : t.port = s.port
  busScript : t.busScript = s.busScript
  addr : t.addr = s.addr ∧ t.addrSet = s.addrSet ∨ s.mode = .config ∧ ∃ a, i = .cfgAddr a
  geometry : t.cols = s.cols ∧ t.rows = s.rows ∧ t.geomSet = s.geomSet ∨ s.mode = .config ∧ ∃ c r, i = .cfgGeom c r
  font : t.charSize = s.charSize ∨ s.mode = .config ∧ ∃ f, i = .cfgFont f
  pins : t.pins = s.pins ∧ t.pinsSet = s.pinsSet ∨ s.mode = .config ∧ ∃ p, i = .cfgPins p
  bl : t.bl = s.bl ∨ (s.mode = .config ∧ ∃ b, i = .cfgBl b) ∨ s.mode = .ready ∧ ∃ b, i = .setBl b
  fnMode : t.dispFn = s.dispFn ∧ t.dispMode = s.dispMode ∨ i = .beginInit
  ctl : t.dispCtl = s.dispCtl ∨ i = .beginInit ∨ s.mode = .ready ∧ ∃ f v, i = .dctl f v
  mode : t.mode = s.mode ∨ i = .beginInit ∧ t.mode = .ready
  fault : t.fault = s.fault

namespace Kept

variable {i : Instr} {s t : State}

theorem refl : Kept i s s :=
  ⟨rfl, rfl, rfl, .inl ⟨rfl, rfl⟩, .inl ⟨rfl, rfl, rfl⟩, .inl rfl, .inl ⟨rfl, rfl⟩, .inl rfl, .inl ⟨rfl, rfl⟩, .inl rfl,
    .inl rfl, rfl⟩

theorem outside (h : Kept i s t) (tr : List Event) (r : Option Nat) (n : Nat) (pan : Panel) :
    Kept i s (t.outside tr r n pan) := { h with }

theorem rest (h : Kept i s t) : Kept i s t.rest := { h with }

theorem settle (h : Kept i s t) {a : Act} (ha : a.WrittenBy i s) : Kept i s (settle t a) := by
  cases a with
  | setFn v => exact { h with fnMode := .inr ha }
  | setCtl v => exact { h with ctl := .inr ha }
  | setMode v => exact { h with fnMode := .inr ha }
  | setBl b => exact { h with bl := .inr (.inr ha) }
  | ready => exact { h with mode := .inr ⟨ha, rfl⟩ }
  | openBus | write | wait | revive | repair => exact h

/-- A setter's register writes are its own. -/
theorem setting (hm : s.mode = .config) : Kept i s (setting i s) := by
  cases i with
  | cfgAddr a => exact { refl with addr := .inr ⟨hm, a, rfl⟩ }
  | cfgGeom c r => exact { refl with geometry := .inr ⟨hm, c, r, rfl⟩ }
  | cfgFont f => exact { refl with font := .inr ⟨hm, f, rfl⟩ }
  | cfgPins p => exact { refl with pins := .inr ⟨hm, p, rfl⟩ }
  | cfgBl b => exact { refl with bl := .inr (.inl ⟨hm, b, rfl⟩) }
  | _ => exact refl

end Kept

/-- A list of actions that `i` may contain writes what `i` writes, and where it stops at no reset it has raised
`BUS_FAIL`. -/
theorem runActs_kept {i : Instr} {as : List Act} {s : State} (hr : s.resetIn = none)
    (hw : ∀ a ∈ as, a.WrittenBy i s) :
    (∀ u, runActs as s = .go u → Kept i s u) ∧
      ∀ u, runActs as s = .halt u → ∃ v, Kept i s v ∧ u = v.raise .busFail := by
  have w := runActs_walk (fun t => t.resetIn = none ∧ Kept i s t) (fun u => ∃ v, Kept i s v ∧ u = v.raise .busFail)
    as (s := s) ?_ ?_ ⟨hr, .refl⟩
  · exact ⟨fun u e => (w.1 u e).2, w.2⟩
  · rintro a ha t u ⟨ht, hk⟩ e
    refine ⟨((act_quiet a ht).1 u e).1, ?_⟩
    obtain ⟨es, r, n, pan, -, rfl⟩ := act_go e
    exact (hk.settle (hw a ha)).outside ..
  · rintro a - t u ⟨ht, hk⟩ e
    obtain rfl | ⟨e', n, pan, -, rfl⟩ := act_halt e
    · obtain ⟨-, -, -, -, b, grown⟩ := (act_quiet a ht).2 _ e
      simp at grown
    · exact ⟨_, hk.outside .., rfl⟩

/-- A next state has only what the instruction writes changed, but for a fault that was raised at the end. -/
theorem exec_kept {i : Instr} {s t : State} (hr : s.resetIn = none) (h : exec i s = .next t) :
    ∃ u, Kept i s u ∧ (t = u ∨ ∃ c, t = u.raise c) := by
  obtain ⟨c, -, -, rfl⟩ | hp | ⟨as, u, hp, e, rfl⟩ | ⟨as, u, hp, e, rfl⟩ := exec_quiet hr h
  · exact ⟨s, .refl, .inr ⟨c, rfl⟩⟩
  · rw [plan_set_eq hp]
    exact ⟨_, .setting (plan_set hp).1, .inl rfl⟩
  · exact ⟨_, ((runActs_kept hr (plan_run_writtenBy hp)).1 u e).rest, .inl rfl⟩
  · obtain ⟨v, hv, rfl⟩ := (runActs_kept hr (plan_run_writtenBy hp)).2 u e
    exact ⟨_, hv.rest, .inr ⟨_, rfl⟩⟩

@[simp] theorem State.endOperation_resetIn (s : State) : s.endOperation.resetIn = none := by
  unfold State.endOperation
  split <;> rfl

/-- Settles O41: while an instruction goes on only what it writes changes, and a fault raised at the end changes `MODE`
and `FAULT`. -/
theorem registersHaveTheirWriters : Obligations.RegistersHaveTheirWriters := by
  intro i s t hr h
  have hq : t.resetIn = none := by
    obtain ⟨-, -, rfl⟩ := exec_next h
    exact State.endOperation_resetIn _
  obtain ⟨u, k, rfl | ⟨c, rfl⟩⟩ := exec_kept hr h
  · refine ⟨⟨k.params, k.port, k.busScript, hq⟩, k.addr, k.geometry, k.font, k.pins, k.bl, k.fnMode, k.ctl, ?_⟩
    obtain hm | ⟨hb, hm⟩ := k.mode
    · exact .inl ⟨hm, k.fault⟩
    · exact .inr (.inr ⟨hb, hm, k.fault⟩)
  · exact ⟨⟨k.params, k.port, k.busScript, hq⟩, k.addr, k.geometry, k.font, k.pins, k.bl, k.fnMode, k.ctl,
      .inr (.inl ⟨rfl, nofun⟩)⟩

/-! ## O47, O48, O49: what is never read

The three statements are about a view `f` of the state, which forgets the receivers, `COLS`, or what stands in the
registers that hold no value. That two states look the same through `f` is kept by every action, so by every
instruction, where `f` forgets nothing that decides an operation (`Forgets`). -/

/-- Everything of a state that decides what an operation does: the receivers, `COLS` and unset registers do not. -/
def State.read (s : State) : State := s.withoutPanel.withoutCols.withoutUnset

/-- An event of `s`, or the recovery of its controller: another trace, reset count and transaction count, and `g` done
to the receivers. -/
def State.after (s : State) (tr : List Event) (r : Option Nat) (n : Nat) (g : Panel → Panel) : State :=
  s.outside tr r n (g s.panel)

/-- `READY`, with the cached bytes that `BEGIN` has computed. -/
def State.begun (s : State) (fn ctl md : Byte) : State :=
  { s with dispFn := fn, dispCtl := ctl, dispMode := md, mode := .ready }

/-- What `f` keeps of the state after `op` does not depend on what it forgets. -/
def Respects (f op : State → State) : Prop := ∀ s, f (op (f s)) = f (op s)

theorem Respects.congr {f op : State → State} (h : Respects f op) {s t : State} (e : f s = f t) :
    f (op s) = f (op t) := by rw [← h s, e, h t]

/-- A view `f` that forgets nothing an operation reads. -/
structure Forgets (f : State → State) : Prop where
  read : ∀ s, (f s).read = s.read
  after : ∀ tr r n g, Respects f fun s => s.after tr r n g
  settle : ∀ a, a ≠ .ready → Respects f fun s => settle s a
  begun : ∀ fn ctl md, Respects f fun s => s.begun fn ctl md
  setting : ∀ i, Respects f (setting i)
  raise : ∀ c, Respects f (State.raise c)
  hardReset : Respects f State.hardReset

theorem withoutPanel_forgets : Forgets State.withoutPanel where
  read _ := rfl
  after _ _ _ _ _ := rfl
  settle a _ _ := by cases a <;> rfl
  begun _ _ _ _ := rfl
  setting i _ := by cases i <;> rfl
  raise _ _ := rfl
  hardReset _ := rfl

/-- What stands in a register that holds no value is forgotten. By default the registers that hold one are taken to
be as `s` shows them to `withoutUnset`. -/
theorem State.withoutUnset_eq {s : State} {a : BusAddr} {c r x y z : Byte} {p : PinSel}
    (ha : s.addrSet = true → a = s.addr := by exact fun h => if_pos h)
    (hg : s.geomSet = true → c = s.cols ∧ r = s.rows := by exact fun h => ⟨if_pos h, if_pos h⟩)
    (hp : s.pinsSet = true → p = s.pins := by exact fun h => if_pos h)
    (hm : s.mode = .ready → x = s.dispFn ∧ y = s.dispCtl ∧ z = s.dispMode := by
      exact fun h => ⟨if_pos h, if_pos h, if_pos h⟩) :
    State.withoutUnset
      { s with addr := a, cols := c, rows := r, pins := p, dispFn := x, dispCtl := y, dispMode := z }
      = s.withoutUnset := by
  simp only [State.withoutUnset, State.mk.injEq, true_and, and_true]
  refine ⟨?_, ?_, ?_, ?_, ?_, ?_, ?_⟩ <;> split <;> simp_all

theorem withoutCols_forgets : Forgets State.withoutCols where
  read _ := rfl
  after _ _ _ _ _ := rfl
  settle a _ _ := by cases a <;> rfl
  begun _ _ _ _ := rfl
  setting i _ := by cases i <;> rfl
  raise _ _ := rfl
  hardReset _ := rfl

theorem withoutUnset_forgets : Forgets State.withoutUnset where
  read s := State.withoutUnset_eq (s := s.withoutPanel.withoutCols) (hg := fun h => ⟨rfl, if_pos h⟩)
  after tr r n g s := State.withoutUnset_eq (s := s.after tr r n g)
  settle a ha s := by
    cases a with
    | setFn v =>
      exact State.withoutUnset_eq (s := settle s (.setFn v)) (hm := fun h => ⟨rfl, if_pos h, if_pos h⟩)
    | setCtl v =>
      exact State.withoutUnset_eq (s := settle s (.setCtl v)) (hm := fun h => ⟨if_pos h, rfl, if_pos h⟩)
    | setMode v =>
      exact State.withoutUnset_eq (s := settle s (.setMode v)) (hm := fun h => ⟨if_pos h, if_pos h, rfl⟩)
    | setBl b => exact State.withoutUnset_eq (s := settle s (.setBl b))
    | ready => exact absurd rfl ha
    | openBus | write | wait | revive | repair => exact State.withoutUnset_eq (s := s)
  begun fn ctl md s := State.withoutUnset_eq (s := s.begun fn ctl md) (hm := fun _ => ⟨rfl, rfl, rfl⟩)
  setting i s := by
    cases i with
    | cfgAddr a => exact State.withoutUnset_eq (s := setting (.cfgAddr a) s) (ha := fun _ => rfl)
    | cfgGeom c r => exact State.withoutUnset_eq (s := setting (.cfgGeom c r) s) (hg := fun _ => ⟨rfl, rfl⟩)
    | cfgFont f => exact State.withoutUnset_eq (s := setting (.cfgFont f) s)
    | cfgPins p => exact State.withoutUnset_eq (s := setting (.cfgPins p) s) (hp := fun _ => rfl)
    | cfgBl b => exact State.withoutUnset_eq (s := setting (.cfgBl b) s)
    | _ => exact State.withoutUnset_eq (s := s)
  raise c s := State.withoutUnset_eq (s := s.raise c) (hm := nofun)
  hardReset s := State.withoutUnset_eq (s := s.hardReset) nofun nofun nofun (fun _ => ⟨rfl, rfl, rfl⟩)

/-! ### One action of two runs -/

/-- What states that read the same have in common. -/
structure SameRead (s t : State) : Prop where
  params : t.params = s.params
  mode : t.mode = s.mode
  fault : t.fault = s.fault
  addrSet : t.addrSet = s.addrSet
  geomSet : t.geomSet = s.geomSet
  charSize : t.charSize = s.charSize
  pinsSet : t.pinsSet = s.pinsSet
  bl : t.bl = s.bl
  trace : t.trace = s.trace
  resetIn : t.resetIn = s.resetIn
  busScript : t.busScript = s.busScript
  sent : t.sent = s.sent
  addr : s.addrSet = true → t.addr = s.addr
  rows : s.geomSet = true → t.rows = s.rows
  pins : s.pinsSet = true → t.pins = s.pins
  dispCtl : s.mode = .ready → t.dispCtl = s.dispCtl

theorem SameRead.of_eq {s t : State} (h : s.read = t.read) : SameRead s t := by
  have e : ∀ {α : Type} (g : State → α), g t.read = g s.read := fun g => congrArg g h.symm
  have hm : t.mode = s.mode := e State.mode
  have ha : t.addrSet = s.addrSet := e State.addrSet
  have hg : t.geomSet = s.geomSet := e State.geomSet
  have hp : t.pinsSet = s.pinsSet := e State.pinsSet
  refine ⟨e State.params, hm, e State.fault, ha, hg, e State.charSize, hp, e State.bl, e State.trace, e State.resetIn,
    e State.busScript, e State.sent, fun h => ?_, fun h => ?_, fun h => ?_, fun h => ?_⟩
  · have e := e State.addr
    simpa [State.read, State.withoutUnset, h, ha] using e
  · have e := e State.rows
    simpa [State.read, State.withoutUnset, h, hg] using e
  · have e := e State.pins
    simpa [State.read, State.withoutUnset, h, hp] using e
  · have e := e State.dispCtl
    simpa [State.read, State.withoutUnset, h, hm] using e

theorem SameRead.blv_eq {s t : State} (h : SameRead s t) : t.blv = s.blv := by
  rw [State.blv, h.params, h.bl, State.blv]

/-! What an open, a wait and a transport write do, written out in what they read. -/

theorem act_openBus_eq (s : State) :
    act .openBus s = if s.resetIn = some 0 then .halt s.hardReset else
      .go (s.after (s.trace ++ [.openBus s.addr (if s.pinsSet then s.pins else s.params.pinsDefault)])
        (s.resetIn.map (· - 1)) s.sent id) := rfl

theorem act_wait_eq (n : Nat) (s : State) :
    act (.wait n) s = if s.resetIn = some 0 then .halt s.hardReset else
      .go (s.after (s.trace ++ [.wait n]) (s.resetIn.map (· - 1)) s.sent
        fun pan => if s.resetIn.map (· - 1) = some 0 then pan else pan.elapse n) := rfl

theorem act_write_eq (b : Byte) (s : State) :
    act (.write b) s = if s.resetIn = some 0 then .halt s.hardReset else
      if s.params.propagateBusErr && drawFailed (s.drawAt s.sent) then
        .halt (State.raise .busFail (s.after (s.trace ++ [.xfer s.addr (b ||| s.blv)]) (s.resetIn.map (· - 1))
          (s.sent + 1) fun pan => pan.receive s.params (s.drawAt s.sent) s.sent s.addr (b ||| s.blv)))
      else
        .go (s.after (s.trace ++ [.xfer s.addr (b ||| s.blv)]) (s.resetIn.map (· - 1))
          (s.sent + 1) fun pan => pan.receive s.params (s.drawAt s.sent) s.sent s.addr (b ||| s.blv)) := rfl

/-- One action in two states that read the same and have the same bus address: the same reset stops both; or the same
event, register write and recovery is done to both, and a transport write that failed stops both or neither. -/
theorem act_twice (a : Act) {s t : State} (h : SameRead s t) (ha : t.addr = s.addr) :
    (act a s = .halt s.hardReset ∧ act a t = .halt t.hardReset) ∨ ∃ tr r n g,
      (act a s = .go ((settle s a).after tr r n g) ∧ act a t = .go ((settle t a).after tr r n g)) ∨
      (act a s = .halt ((s.after tr r n g).raise .busFail) ∧ act a t = .halt ((t.after tr r n g).raise .busFail)) := by
  cases a with
  | openBus =>
    have samePins : (if t.pinsSet then t.pins else t.params.pinsDefault)
        = if s.pinsSet then s.pins else s.params.pinsDefault := by
      rw [h.pinsSet, h.params]
      split
      · exact h.pins ‹_›
      · rfl
    simp only [act_openBus_eq, samePins, h.resetIn, h.trace, h.sent, ha]
    split
    · exact .inl ⟨rfl, rfl⟩
    · exact .inr ⟨_, _, _, _, .inl ⟨rfl, rfl⟩⟩
  | wait n =>
    simp only [act_wait_eq, h.resetIn, h.trace, h.sent]
    split
    · exact .inl ⟨rfl, rfl⟩
    · exact .inr ⟨_, _, _, _, .inl ⟨rfl, rfl⟩⟩
  | write b =>
    have sameDraw : t.drawAt = s.drawAt := by funext n; rw [State.drawAt, h.busScript, State.drawAt]
    simp only [act_write_eq, sameDraw, h.blv_eq, h.params, h.resetIn, h.trace, h.sent, ha]
    split
    · exact .inl ⟨rfl, rfl⟩
    · split
      · exact .inr ⟨_, _, _, _, .inr ⟨rfl, rfl⟩⟩
      · exact .inr ⟨_, _, _, _, .inl ⟨rfl, rfl⟩⟩
  | revive =>
    exact .inr ⟨s.trace, s.resetIn, s.sent, Panel.revive, .inl ⟨rfl, by rw [← h.trace, ← h.resetIn, ← h.sent]; rfl⟩⟩
  | repair =>
    exact .inr ⟨s.trace, s.resetIn, s.sent, Panel.repair, .inl ⟨rfl, by rw [← h.trace, ← h.resetIn, ← h.sent]; rfl⟩⟩
  | setFn | setCtl | setMode | setBl | ready =>
    exact .inr ⟨s.trace, s.resetIn, s.sent, id, .inl ⟨rfl, by rw [← h.trace, ← h.resetIn, ← h.sent]; rfl⟩⟩

/-! ### A list of actions of two runs -/

/-- Two states inside an operation that look the same through `f` and have the same bus address. -/
def Alike (f : State → State) (s t : State) : Prop := f s = f t ∧ t.addr = s.addr

theorem settle_addr (s : State) (a : Act) : (settle s a).addr = s.addr := by cases a <;> rfl

theorem Forgets.sameRead {f : State → State} (hf : Forgets f) {s t : State} (h : f s = f t) : SameRead s t :=
  .of_eq (by rw [← hf.read s, h, hf.read t])

/-- No action tells apart two states that look the same through `f`. -/
theorem Forgets.alike_act {f : State → State} (hf : Forgets f) {a : Act} (ha : a ≠ .ready) {s t : State}
    (h : Alike f s t) : Flow.Related (Alike f) (fun u v => f u = f v) (act a s) (act a t) := by
  obtain ⟨e, haddr⟩ := h
  obtain ⟨es, et⟩ | ⟨tr, r, n, g, ⟨es, et⟩ | ⟨es, et⟩⟩ := act_twice a (hf.sameRead e) haddr
  · rw [es, et]
    exact hf.hardReset.congr e
  · rw [es, et]
    refine ⟨(hf.after tr r n g).congr ((hf.settle a ha).congr e), ?_⟩
    exact (settle_addr t a).trans (haddr.trans (settle_addr s a).symm)
  · rw [es, et]
    exact (hf.raise .busFail).congr ((hf.after tr r n g).congr e)

theorem Forgets.alike_runActs {f : State → State} (hf : Forgets f) {as : List Act} (ha : .ready ∉ as) {s t : State}
    (h : Alike f s t) :
    Flow.Related (Alike f) (fun u v => f u = f v) (runActs as s) (runActs as t) :=
  runActs_related _ _ as (fun _ hm _ _ huv => hf.alike_act (fun e => ha (e ▸ hm)) huv) h

/-- Two flows that end in states that look the same through `f`. -/
theorem Flow.Related.alike {f : State → State} {x y : Flow}
    (h : Flow.Related (Alike f) (fun u v => f u = f v) x y) : f x.state = f y.state := by
  cases x <;> cases y
  · exact h.1
  · exact h.elim
  · exact h.elim
  · exact h

/-- `BEGIN`'s list is made from the configuration. -/
theorem SameRead.beginActs_eq {s t : State} (h : SameRead s t) (hg : s.geomSet = true) :
    beginActs t = beginActs s := by
  simp only [beginActs, beginSettle, beginFunction, h.params, h.charSize, h.rows hg, h.blv_eq]

/-- Nor does the end of an operation. -/
theorem Forgets.same_rest {f : State → State} (hf : Forgets f) {s t : State} (h : f s = f t) :
    f s.rest = f t.rest := by
  have same := hf.sameRead h
  have ht : t.rest = t.after s.trace s.resetIn s.sent (Panel.rest s.params) := by
    rw [← same.trace, ← same.resetIn, ← same.sent, ← same.params]
    rfl
  rw [ht]
  exact (hf.after s.trace s.resetIn s.sent (Panel.rest s.params)).congr h

theorem Forgets.same_endOperation {f : State → State} (hf : Forgets f) {s t : State} (h : f s = f t) :
    f s.endOperation = f t.endOperation := by
  have same := hf.sameRead h
  unfold State.endOperation
  rw [same.resetIn]
  split
  · exact hf.hardReset.congr h
  · have ht : { t with resetIn := none } = t.after s.trace none s.sent id := by
      rw [← same.trace, ← same.sent]
      rfl
    rw [ht]
    exact (hf.after s.trace none s.sent id).congr h

/-- `BEGIN`'s list but for its last write does not enter `READY`. -/
theorem ready_not_mem_beginBody (s : State) : .ready ∉ beginBody s := by
  intro h
  have kept : Act.ready ∈ (beginBody s).filter fun a => !isEvent a := List.mem_filter.2 ⟨h, rfl⟩
  simp [beginBody_filter] at kept

/-- `BEGIN`: before its last write it has put its own values into the cached bytes. -/
theorem Forgets.same_begin {f : State → State} (hf : Forgets f) {s t : State} (h : Alike f s t)
    (hg : s.geomSet = true) : f (runActs (beginActs s) s).state = f (runActs (beginActs t) t).state := by
  have same := hf.sameRead h.1
  have body := hf.alike_runActs (as := beginBody s) (ready_not_mem_beginBody s) h
  rw [same.beginActs_eq hg, beginActs_eq_body, runActs_append, runActs_append]
  cases es : runActs (beginBody s) s <;> cases et : runActs (beginBody s) t <;> rw [es, et] at body
  case go.go u v =>
    have hs : u.begun (fnFlags s.rows s.charSize) dispCtlInit dispModeInit = { u with mode := .ready } := by
      obtain ⟨tr, r, n, pan, rfl⟩ := runActs_go es
      rfl
    have ht : v.begun (fnFlags s.rows s.charSize) dispCtlInit dispModeInit = { v with mode := .ready } := by
      obtain ⟨tr, r, n, pan, rfl⟩ := runActs_go et
      rfl
    have begun : f (u.begun (fnFlags s.rows s.charSize) dispCtlInit dispModeInit)
        = f (v.begun (fnFlags s.rows s.charSize) dispCtlInit dispModeInit) := (hf.begun _ _ _).congr body.1
    rw [hs, ht] at begun
    exact begun
  case halt.halt => exact body
  all_goals exact body.elim

/-- A plan, but with `u` where it sets a state. -/
def Plan.setTo (u : State) : Plan → Plan
  | .set _ => .set u
  | p => p

theorem SameRead.planConfig {s t : State} (h : SameRead s t) (p : Plan) : p.config t = p.config s := by
  rw [Plan.config, h.mode, Plan.config]

/-- Two states that read the same have the same plan, each setter's with its own registers. -/
theorem plan_twice (i : Instr) {s t : State} (h : SameRead s t) (hr : s.mode = .ready → t.rows = s.rows) :
    plan i t = (plan i s).setTo (setting i t) := by
  cases i with
  | beginInit =>
    simp only [plan, h.addrSet, h.geomSet]
    split
    · rename_i hc
      rw [h.beginActs_eq (Bool.and_eq_true_iff.1 hc).2]
      rfl
    · rfl
  | setCursor col row =>
    simp only [plan, Plan.ready, h.mode, h.params]
    split
    · rename_i hm
      rw [hr hm]
      split <;> rfl
    · rfl
  | dctl d v =>
    simp only [plan, Plan.ready, h.mode, h.params]
    split
    · rename_i hm
      rw [h.dispCtl hm]
      rfl
    · rfl
  | cfgAddr | cfgGeom | cfgFont | cfgPins | cfgBl =>
    simp only [plan, h.planConfig]
    simp only [Plan.config, apply_ite (Plan.setTo _)]
    rfl
  | _ =>
    simp only [plan, Plan.ready, h.mode, h.params, apply_ite (Plan.setTo _)]
    rfl

/-- What `f` keeps of an instruction's next state does not depend on what it forgets, if in `READY` the address and the
rows are not forgotten. -/
theorem Forgets.same_exec {f : State → State} (hf : Forgets f) (i : Instr) {s t : State} (h : f s = f t)
    (hr : s.mode = .ready → t.addr = s.addr ∧ t.rows = s.rows) :
    mapNext f (exec i s) = mapNext f (exec i t) := by
  have same := hf.sameRead h
  rw [exec_eq_plan, exec_eq_plan]
  refine mapNext_accept f same.params.symm same.mode.symm same.fault.symm (hf.same_endOperation ?_)
  rw [plan_twice i same fun hm => (hr hm).2]
  cases e : plan i s with
  | fail c => exact (hf.raise c).congr h
  | set u =>
    rw [plan_set_eq e]
    exact (hf.setting i).congr h
  | run as =>
    simp only [Plan.setTo, Plan.flow, runOp_state]
    refine hf.same_rest ?_
    obtain ⟨rfl, ha, hg, rfl⟩ | ⟨hm, kinds⟩ := plan_run e
    · have b := hf.same_begin ⟨h, same.addr ha⟩ hg
      rwa [same.beginActs_eq hg] at b
    · have noReady : Act.ready ∉ as := by
        intro hready
        obtain he | ⟨on, rfl, -⟩ | ⟨d, v, rfl, -⟩ := kinds
        · cases List.all_eq_true.1 he _ hready
        · cases plan_run_writtenBy e _ hready
        · cases plan_run_writtenBy e _ hready
      exact (hf.alike_runActs noReady ⟨h, (hr hm).1⟩).alike

/-- Settles O47: the view forgets the receivers alone. -/
theorem sequencerBlindToReceivers : Obligations.SequencerBlindToReceivers :=
  fun i _ _ => withoutPanel_forgets.same_exec i rfl fun _ => ⟨rfl, rfl⟩

/-- Settles O48: what is forgotten of the address and the geometry is there in `READY`, by the premise. -/
theorem unsetRegistersNeverRead : Obligations.UnsetRegistersNeverRead := by
  intro i s hready
  have idem : s.withoutUnset.withoutUnset = s.withoutUnset := State.withoutUnset_eq (s := s)
  refine withoutUnset_forgets.same_exec i idem fun hm => ?_
  obtain ⟨ha, hg⟩ := hready hm
  exact ⟨(if_pos ha).symm, (if_pos hg).symm⟩

/-- Settles O49: the view forgets `COLS` alone. -/
theorem columnsNeverRead : Obligations.ColumnsNeverRead :=
  fun i _ _ => withoutCols_forgets.same_exec i rfl fun _ => ⟨rfl, rfl⟩

/-! ## O50: what `BEGIN` makes of the controller

### The events of a `BEGIN` that nothing stops -/

/-- `BEGIN`'s list after the settle that comes before the first bus contact, but for its end. -/
def beginContact (s : State) : List Act :=
  [Act.write s.blv, Act.wait 1000000] ++ beginForce s.params ++ beginFunction s ++ beginFinish s.params

theorem beginActs_split (s : State) :
    beginActs s = beginOpen ++ [Act.setFn (fnFlags s.rows s.charSize), Act.wait 50000]
      ++ (Act.revive :: beginContact s) ++ [Act.repair, Act.ready] := rfl

/-- The two forms the model and the statements give the function-set flags are the same where there is a row. -/
theorem fnFlags_eq {rows : Byte} (h : rows ≠ 0) (charSize : Bool) :
    fnFlags rows charSize = if rows = 1 then (if charSize then 0x04 else 0x00) else 0x08 := by
  unfold fnFlags
  by_cases h₁ : rows = 1
  · subst h₁
    cases charSize <;> rfl
  · have more : 1 < rows := by bv_omega
    rw [if_pos more, if_neg (fun e => h₁ e.2), if_neg h₁]
    rfl

/-- The events of `BEGIN` before the first bus contact. -/
def State.openingEvents (s : State) : List Event :=
  [.openBus s.addr (if s.pinsSet then s.pins else s.params.pinsDefault), .wait 50000]

/-- `BEGIN`'s list emits the events of R153. -/
theorem openingEvents_append {s : State} (h : s.rows ≠ 0) :
    s.openingEvents ++ (beginContact s).flatMap (actEvents s) = s.beginEvents := by
  have contact : s.blv ||| s.blv = s.backlight := BitVec.or_self
  have function : fnCommand (fnFlags s.rows s.charSize)
      = 0x20 ||| if s.rows = 1 then (if s.charSize then 0x04 else 0x00) else 0x08 := by rw [fnCommand, fnFlags_eq h]
  simp only [beginContact, beginForce, beginFunction, beginFinish, longCmdActs, cmdActs, List.flatMap_append,
    List.flatMap_cons, write4Acts_flatMap, sendActs_flatMap, actEvents, contact, function, State.openingEvents,
    State.beginEvents, List.append_assoc]
  rfl

/-- `s` at the first bus contact of its `BEGIN`. -/
def State.opened (s : State) : State :=
  { s.emitted s.openingEvents with
    dispFn := fnFlags s.rows s.charSize, panel := (s.emitted s.openingEvents).panel.revive }

/-- `s` at the end of its `BEGIN`: the recovery begun, the events of R153 emitted, the recovery complete, the cached
bytes written and the mode `READY`. -/
def State.completed (s : State) : State :=
  let t := State.emitted { s with panel := s.panel.revive } s.beginEvents
  { t with
    panel := t.panel.repair
    dispFn := fnFlags s.rows s.charSize, dispCtl := 0x04, dispMode := 0x02, mode := .ready }

theorem State.completed_params (s : State) : s.completed.params = s.params := rfl

theorem State.completed_panel (s : State) :
    s.completed.panel = (Panel.sees s.params s.drawAt s.sent s.beginEvents s.panel.revive).repair := rfl

/-- `BEGIN` makes 43 transport writes (R154): one at its first contact, three for each of four nibbles, six for each of
five commands. -/
theorem beginEvents_xfers (s : State) : (xferBytes s.beginEvents).length = 43 := by
  have nibble (n : Byte) : (xferBytes (s.nibbleEvents n)).length = 3 := nibbleEvents_xfers ..
  simp only [State.beginEvents, xferBytes_append, List.length_append, nibble, byteEvents_xfers, xferBytes,
    List.length_cons, List.length_nil]

/-- `BEGIN`'s list, undisturbed. -/
theorem runActs_begin {s : State} (hrows : s.rows ≠ 0) (h : s.Undisturbed 43) :
    runActs (beginActs s) s = .go s.completed := by
  have opening := runActs_mixed (beginOpen ++ [Act.setFn (fnFlags s.rows s.charSize), Act.wait 50000]) (s := s) rfl
    (h.mono (Nat.zero_le 43))
  have contact := runActs_mixed (beginContact s) (s := s.opened) rfl h
  have same : actEvents s.opened = actEvents s := by funext a; cases a <;> rfl
  have writes : ∀ t, (beginContact s).foldl settle t = { t with dispCtl := 0x04, dispMode := 0x02 } := fun _ => rfl
  rw [same, writes] at contact
  rw [beginActs_split, runActs_append, runActs_append, opening]
  change (runActs (beginContact s) s.opened).andThen _ = _
  rw [contact, State.completed, ← openingEvents_append hrows, ← State.emitted_append]
  rfl

/-- What a `BEGIN` that nothing stops answers (R146 to R153). -/
theorem exec_begin {s : State} (hm : s.MayBegin) (hu : s.Undisturbed 43) :
    exec .beginInit s = .next s.completed.rest := by
  obtain ⟨hw, hf, ha, hg, hrows⟩ := hm
  have run : (plan .beginInit s).flow s = (runActs (beginActs s) s).rest := by simp [plan, ha, hg, Plan.flow, runOp]
  exact exec_of_flow hw hf (run.trans (congrArg Flow.rest (runActs_begin hrows hu))) hu.1

/-! ### Lists of events that arrive -/

/-- Events of `s`, all of whose transport writes reach the expander, take receivers with `P` to receivers with `Q`. -/
def Leads (s : State) (draw : Nat → XferResult) (P : Panel → Prop) (es : List Event) (Q : Panel → Prop) : Prop :=
  ∀ k pan, (∀ j, j < (xferBytes es).length → draw (k + j) ≠ .fail false) → P pan →
    Q (Panel.sees s.params draw k es pan)

section
variable {s : State} {draw : Nat → XferResult} {P Q R : Panel → Prop} {es fs : List Event}

theorem Leads.append (h₁ : Leads s draw P es Q) (h₂ : Leads s draw Q fs R) : Leads s draw P (es ++ fs) R := by
  intro k pan hd hP
  rw [xferBytes_append, List.length_append] at hd
  rw [Panel.sees_append]
  refine h₂ _ _ (fun j hj => ?_) (h₁ k pan (fun j hj => hd j (by omega)) hP)
  rw [Nat.add_assoc]
  exact hd _ (by omega)

theorem Leads.weaken (h : Leads s draw P es Q) (hQ : ∀ pan, Q pan → R pan) : Leads s draw P es R :=
  fun k pan hd hP => hQ _ (h k pan hd hP)

end

/-- 4-bit width, awaiting a high nibble. -/
def Narrow (l : LcdRegs) : Prop := l.wide = false ∧ l.high = none

/-- The receivers inside a `BEGIN` of `s` all of whose bytes arrive, between two transactions: Enable is low, at most
`owed` microseconds are owed, and of the controller's registers `L` is known. -/
structure Recovering (s : State) (owed : Nat) (L : LcdRegs → Prop) (pan : Panel) : Prop where
  addr : s.addr = pan.busAddr
  pairing : pan.pairing = .reviving
  low : hasBit pan.out s.params.expEn = false
  busy : pan.busy ≤ owed
  lcd : L pan.lcd

section
variable {s : State} {draw : Nat → XferResult} {L M : LcdRegs → Prop}

/-- A wait takes its minimum off the delay owed. -/
theorem leads_wait {owed : Nat} (t : Nat) :
    Leads s draw (Recovering s owed L) [.wait t] (Recovering s (owed - t) L) :=
  fun _ _ _ h => ⟨h.addr, h.pairing, h.low, Nat.sub_le_sub_right h.busy t, h.lcd⟩

/-- A nibble transaction, register select low, is one strobe and a wait of 50. -/
theorem leads_nibble (hw : s.params.wf = true) {n : Byte} (hn : n &&& 0x0F = 0) {owed : Nat}
    (h : ∀ (k : Nat) (pan : Panel), pan.pairing ≠ .broken → L pan.lcd →
      M (pan.strobe k false ((n >>> 4).setWidth 4)).lcd ∧
      (pan.strobe k false ((n >>> 4).setWidth 4)).busy ≤ 50 + owed) :
    Leads s draw (Recovering s 0 L) (s.nibbleEvents n) (Recovering s owed M) := by
  intro k pan hd ⟨haddr, hpair, hlow, hbusy, hL⟩
  obtain ⟨hM, hb⟩ := h (k + 2) pan (by simp [hpair]) hL
  have rs : decide (n &&& 0x0F = s.params.expRs) = false := by rw [hn]; exact modeZero hw
  rw [State.nibbleEvents, Panel.sees_nibble hw draw k s.addr (.inl hn) s.backlight_cases haddr hd
    (Nat.le_zero.1 hbusy) hlow, rs]
  exact
    { addr := haddr.trans (Panel.strobe_busAddr ..).symm
      pairing := (Panel.strobe_pairing ..).trans hpair
      low := (nibbleLines hw (.inl hn) s.backlight_cases).low_en
      busy := by simpa using Nat.sub_le_sub_right hb 50
      lcd := hM }

/-- The byte transaction of a command, to a controller in 4-bit width awaiting a high nibble, is one instruction obeyed
and a wait of 50. -/
theorem leads_command (hw : s.params.wf = true) {v : Byte} {i : HdInstr} (hv : HdInstr.decode v = some i)
    {owed : Nat} (hL : ∀ l, L l → Narrow l)
    (h : ∀ (k : Nat) (pan : Panel), L pan.lcd → pan.busy = settleUs →
      M (pan.obey k i).lcd ∧ (pan.obey k i).busy ≤ 50 + owed) :
    Leads s draw (Recovering s 0 L) (s.byteEvents v 0)
      fun pan => Recovering s owed M pan ∧ pan.out = lowNibbleByte v 0 ||| s.backlight := by
  intro k pan hd ⟨haddr, hpair, hlow, hbusy, hl⟩
  obtain ⟨hwide, hhigh⟩ := hL _ hl
  have awaiting : ({ pan.lcd with high := none } : LcdRegs) = pan.lcd := by rw [← hhigh]
  obtain ⟨hM, hb⟩ := h (k + 5) { pan with lcd := { pan.lcd with high := none }, busy := settleUs }
    (by rwa [awaiting]) rfl
  rw [← Panel.execute_command (k + 5) hv] at hM hb
  rw [State.byteEvents, Panel.sees_byte hw draw k s.addr v (.inl rfl) s.backlight_cases haddr hd hwide hhigh
    (Nat.le_zero.1 hbusy) hlow (by simp [hpair]), modeZero hw]
  have low : NibbleByte s.params (lowNibbleByte v 0) := .inl (nibbleBytes_low hw v (.inl rfl)).2
  exact ⟨{
    addr := haddr.trans (Panel.execute_busAddr ..).symm
    pairing := (Panel.execute_pairing ..).trans hpair
    low := (nibbleLines hw low s.backlight_cases).low_en
    busy := by simpa using Nat.sub_le_sub_right hb 50
    lcd := hM }, rfl⟩

end

/-! ### From any state into 4-bit width (R149) -/

/-- After one nibble 0x30: 8-bit width, a whole byte taken, or the nibble held. -/
def OneNibbleIn (l : LcdRegs) : Prop := l.wide = true ∨ l.high = none ∨ l.high = some (false, 3)

/-- After two: 8-bit width, or the nibble held. -/
def TwoNibblesIn (l : LcdRegs) : Prop := l.wide = true ∨ l.high = some (false, 3)

theorem decode_wideNibble (x : Nibble) :
    HdInstr.decode (joinNibbles 3 x) = some (.funcSet true (x.getLsbD 3) (x.getLsbD 2) (x.setWidth 2)) := by
  revert x
  decide

theorem decode_narrowNibble (x : Nibble) :
    HdInstr.decode (joinNibbles 2 x) = some (.funcSet false (x.getLsbD 3) (x.getLsbD 2) (x.setWidth 2)) := by
  revert x
  decide

section
variable {pan : Panel}

/-- A controller in 8-bit width takes every strobe for a byte. -/
theorem Panel.strobe_wide (k : Nat) (rs : Bool) (n : Nibble) (h : pan.lcd.wide = true) :
    pan.strobe k rs n = pan.execute k rs (joinNibbles n (Config.freeLowLines k)) := if_pos h

/-- A controller in 4-bit width that awaits a high nibble keeps it. -/
theorem Panel.strobe_high (k : Nat) (rs : Bool) (n : Nibble) (h : Narrow pan.lcd) :
    pan.strobe k rs n = { pan with lcd := { pan.lcd with high := some (rs, n) }, busy := settleUs } := by
  unfold Panel.strobe
  rw [if_neg (by simp [h.1]), h.2]

/-- One that holds a nibble, its pairing not broken, takes the pair for a byte. -/
theorem Panel.strobe_pair (k : Nat) (rs : Bool) (n : Nibble) {r : Bool} {h : Nibble} (hw : pan.lcd.wide = false)
    (hh : pan.lcd.high = some (r, h)) (hp : pan.pairing ≠ .broken) :
    pan.strobe k rs n = pan.execute k (if r = rs then rs else Config.freeRs k) (joinNibbles h n) := by
  unfold Panel.strobe
  rw [if_neg (by simp [hw]), hh]
  exact if_neg hp

/-- The wait of every strobe is enough for it, but for clear and home (R110). -/
theorem settle_le : settleUs ≤ 50 := by decide

/-- A function set into the width `l`. -/
theorem Panel.execute_funcSet (k : Nat) {b : Byte} {l n f : Bool} {x : BitVec 2}
    (h : HdInstr.decode b = some (.funcSet l n f x)) :
    (pan.execute k false b).lcd.wide = l ∧ (pan.execute k false b).lcd.high = none ∧
      (pan.execute k false b).busy ≤ 50 := by
  rw [Panel.execute_command k h]
  exact ⟨rfl, rfl, settle_le⟩

/-- A nibble 0x30, whatever state the controller was in. -/
theorem strobe_oneNibbleIn (k : Nat) (hp : pan.pairing ≠ .broken) : OneNibbleIn (pan.strobe k false 3).lcd := by
  cases hw : pan.lcd.wide with
  | true =>
    rw [Panel.strobe_wide k false 3 hw]
    exact .inl (Panel.execute_funcSet k (decode_wideNibble _)).1
  | false =>
    cases hh : pan.lcd.high with
    | none =>
      rw [Panel.strobe_high k false 3 ⟨hw, hh⟩]
      exact .inr (.inr rfl)
    | some q =>
      rw [Panel.strobe_pair k false 3 hw hh hp]
      exact .inr (.inl (Panel.execute_awaits ..))

/-- One to a controller that has taken two: it has seen a function set into 8-bit width. -/
theorem strobe_becomes_wide (k : Nat) (hp : pan.pairing ≠ .broken) (h : TwoNibblesIn pan.lcd) :
    (pan.strobe k false 3).lcd.wide = true ∧ (pan.strobe k false 3).busy ≤ 50 := by
  cases hw : pan.lcd.wide with
  | true =>
    rw [Panel.strobe_wide k false 3 hw]
    obtain ⟨h₁, -, h₂⟩ := Panel.execute_funcSet (pan := pan) k (decode_wideNibble (Config.freeLowLines k))
    exact ⟨h₁, h₂⟩
  | false =>
    have hh : pan.lcd.high = some (false, 3) := h.resolve_left (by simp [hw])
    rw [Panel.strobe_pair k false 3 hw hh hp]
    obtain ⟨h₁, -, h₂⟩ := Panel.execute_funcSet (pan := pan) k (decode_wideNibble 3)
    exact ⟨h₁, h₂⟩

/-- One to a controller that has taken one. -/
theorem strobe_twoNibblesIn (k : Nat) (hp : pan.pairing ≠ .broken) (h : OneNibbleIn pan.lcd) :
    TwoNibblesIn (pan.strobe k false 3).lcd := by
  cases hw : pan.lcd.wide with
  | true => exact .inl (strobe_becomes_wide k hp (.inl hw)).1
  | false =>
    obtain h | h | h := h
    · simp [hw] at h
    · rw [Panel.strobe_high k false 3 ⟨hw, h⟩]
      exact .inr rfl
    · exact .inl (strobe_becomes_wide k hp (.inr h)).1

/-- The nibble 0x20 to a controller in 8-bit width. -/
theorem strobe_becomes_narrow (k : Nat) (h : pan.lcd.wide = true) :
    Narrow (pan.strobe k false 2).lcd ∧ (pan.strobe k false 2).busy ≤ 50 := by
  rw [Panel.strobe_wide k false 2 h]
  obtain ⟨h₁, h₂, h₃⟩ := Panel.execute_funcSet (pan := pan) k (decode_narrowNibble (Config.freeLowLines k))
  exact ⟨⟨h₁, h₂⟩, h₃⟩

end

/-! ### The first bus contact -/

/-- What the latch taking a byte can do to the rest: nothing, one strobe, or a garbled one. -/
theorem Panel.latch_cases (p : Params) (k : Nat) (b : Byte) (pan : Panel) :
    ∃ q held, pan.latch p k b = { q with out := b, held := held } ∧
      (q = pan ∨ (∃ rs n, q = pan.strobe k rs n) ∨ q = pan.garble k) := by
  unfold Panel.latch
  simp only
  split
  · split
    · exact ⟨_, _, rfl, .inr (.inl ⟨_, _, rfl⟩)⟩
    · exact ⟨_, _, rfl, .inr (.inr rfl)⟩
  · exact ⟨_, _, rfl, .inl rfl⟩

/-- What is left of the delay owed, and of the recovery, after the first byte. -/
theorem Panel.latch_recovering {p : Params} (k : Nat) (b : Byte) {pan : Panel} (hr : pan.pairing = .reviving)
    (hb : pan.busy = 0) :
    (pan.latch p k b).pairing = .reviving ∧ (pan.latch p k b).out = b ∧ (pan.latch p k b).busy ≤ longUs := by
  obtain ⟨q, held, e, rfl | ⟨rs, n, rfl⟩ | rfl⟩ := Panel.latch_cases p k b pan <;> rw [e]
  · exact ⟨hr, rfl, by simp [hb]⟩
  · exact ⟨(Panel.strobe_pairing ..).trans hr, rfl, Panel.strobe_busy ..⟩
  · exact ⟨by simp [Panel.garble, hr], rfl, Nat.le_refl _⟩

/-- The receivers as a `BEGIN` of `s` meets them, its recovery begun. -/
def Met (s : State) (pan : Panel) : Prop :=
  s.addr = pan.busAddr ∧ pan.pairing = .reviving ∧ pan.busy ≤ 50000

/-- Steps 1 to 5: the power-up settle is over before the first byte, the second settle makes up for whatever strobe that
byte was (R147, R148). -/
theorem leads_contact {s : State} (hw : s.params.wf = true) {draw : Nat → XferResult} (pins : PinSel) :
    Leads s draw (Met s) [.openBus s.addr pins, .wait 50000, .xfer s.addr s.backlight, .wait 1000000]
      (Recovering s 0 fun _ => True) := by
  intro k pan hd ⟨haddr, hr, hb⟩
  have settled : (pan.elapse 50000).busy = 0 := Nat.sub_eq_zero_of_le hb
  obtain ⟨hpair, hout, hbusy⟩ :=
    Panel.latch_recovering (p := s.params) k s.backlight (pan := pan.elapse 50000) hr settled
  rw [← Panel.receive_arrives (p := s.params) k s.backlight (pan := pan.elapse 50000) haddr (hd 0 Nat.one_pos)]
    at hpair hout hbusy
  have low : hasBit s.backlight s.params.expEn = false := by
    rcases s.backlight_cases with e | e <;> rw [e]
    · exact hasBit_zero _
    · exact (Params.lines hw).bl_en
  have enough : longUs ≤ 1000000 := by decide
  exact
    { addr := haddr.trans (Panel.receive_busAddr s.params (draw k) k s.addr s.backlight (pan.elapse 50000)).symm
      pairing := hpair
      low := (congrArg (hasBit · s.params.expEn) hout).trans low
      busy := Nat.le_zero.2 (Nat.sub_eq_zero_of_le (hbusy.trans enough))
      lcd := trivial }

/-! ### The commands (R150, R151) -/

/-- 4-bit width, and lines and font as configured. -/
def Lined (n f : Bool) (l : LcdRegs) : Prop := Narrow l ∧ l.twoLine = n ∧ l.tall = f

/-- And display on, cursor and blink off. -/
def Shown (n f : Bool) (l : LcdRegs) : Prop :=
  Lined n f l ∧ l.display = true ∧ l.cursor = false ∧ l.blink = false

/-- And increment, no shift. -/
def Entering (n f : Bool) (l : LcdRegs) : Prop := Shown n f l ∧ l.increment = true ∧ l.autoShift = false

section
variable {n f : Bool} {l : LcdRegs}

theorem Lined.narrow (h : Lined n f l) : Narrow l := h.1

theorem Shown.narrow (h : Shown n f l) : Narrow l := h.1.narrow

theorem Entering.narrow (h : Entering n f l) : Narrow l := h.1.narrow

end

/-- The controller a completed `BEGIN` leaves, lines and font aside. -/
def begunLcd (n f : Bool) : LcdRegs :=
  { wide := false, high := none, twoLine := n, tall := f, display := true, cursor := false, blink := false
    increment := true, autoShift := false, space := .ddram, addr := 0 }

/-- Set-DDRAM-address of 0 makes the last registers known. -/
theorem Entering.obey_setDdram {n f : Bool} {k : Nat} {pan : Panel} (h : Entering n f pan.lcd) :
    (pan.obey k (.setDdram 0)).lcd = begunLcd n f := by
  obtain ⟨⟨⟨⟨hwide, hhigh⟩, hlines, hfont⟩, hdisplay, hcursor, hblink⟩, hincr, hshift⟩ := h
  simp [Panel.obey, begunLcd, *]

/-- The function-set command of `BEGIN` names the lines and the font that are configured (R145). -/
theorem decode_fnCommand (rows : Byte) (charSize : Bool) :
    HdInstr.decode (fnCommand (fnFlags rows charSize))
      = some (.funcSet false (decide (1 < rows)) (charSize && decide (rows = 1)) 0) := by
  have all : ∀ n f : Bool, HdInstr.decode (0x20 ||| ((if n then 0x08 else 0x00) ||| (if f then 0x04 else 0x00)))
      = some (.funcSet false n f 0) := by decide
  simpa [fnCommand, fnFlags] using all (decide (1 < rows)) (charSize && decide (rows = 1))

section
variable {s : State} {draw : Nat → XferResult}

/-- Steps 6 and 7: whatever state the controller was in, 4-bit width (R149). -/
theorem leads_force (hw : s.params.wf = true) :
    Leads s draw (Recovering s 0 fun _ => True)
      (s.nibbleEvents 0x30 ++ [Event.wait 4500] ++ s.nibbleEvents 0x30 ++ [Event.wait 4500] ++ s.nibbleEvents 0x30
        ++ [Event.wait 150] ++ s.nibbleEvents 0x20)
      (Recovering s 0 Narrow) := by
  have first : Leads s draw (Recovering s 0 fun _ => True) (s.nibbleEvents 0x30) (Recovering s 2000 OneNibbleIn) :=
    leads_nibble hw rfl fun k _ hp _ => ⟨strobe_oneNibbleIn k hp, Panel.strobe_busy ..⟩
  have second : Leads s draw (Recovering s 0 OneNibbleIn) (s.nibbleEvents 0x30) (Recovering s 2000 TwoNibblesIn) :=
    leads_nibble hw rfl fun k _ hp h => ⟨strobe_twoNibblesIn k hp h, Panel.strobe_busy ..⟩
  have third : Leads s draw (Recovering s 0 TwoNibblesIn) (s.nibbleEvents 0x30) (Recovering s 0 (·.wide = true)) :=
    leads_nibble hw rfl fun k _ hp h => strobe_becomes_wide k hp h
  have fourth : Leads s draw (Recovering s 0 (·.wide = true)) (s.nibbleEvents 0x20) (Recovering s 0 Narrow) :=
    leads_nibble hw rfl fun k _ _ h => strobe_becomes_narrow k h
  exact (((((first.append (leads_wait 4500)).append second).append (leads_wait 4500)).append third).append
    (leads_wait 150)).append fourth

/-- Steps 8 to 12: the commands (R150, R151), the first one a function set into 4-bit width. -/
theorem leads_commands (hw : s.params.wf = true) {n f : Bool} {v : Byte}
    (hv : HdInstr.decode v = some (.funcSet false n f 0)) :
    Leads s draw (Recovering s 0 Narrow)
      (s.byteEvents v 0 ++ s.byteEvents 0x0C 0 ++ s.byteEvents 0x01 0 ++ [Event.wait 2000] ++ s.byteEvents 0x06 0
        ++ s.byteEvents 0x80 0)
      fun pan => Recovering s 0 (· = begunLcd n f) pan ∧ pan.out = s.backlight := by
  have lines : Leads s draw (Recovering s 0 Narrow) (s.byteEvents v 0) (Recovering s 0 (Lined n f)) :=
    (leads_command hw hv (fun _ h => h) fun _ _ h hb =>
      ⟨⟨⟨rfl, h.2⟩, rfl, rfl⟩, hb.trans_le settle_le⟩).weaken fun _ h => h.1
  have display : Leads s draw (Recovering s 0 (Lined n f)) (s.byteEvents 0x0C 0) (Recovering s 0 (Shown n f)) :=
    (leads_command hw rfl (fun _ => Lined.narrow) fun _ _ h hb =>
      ⟨⟨h, rfl, rfl, rfl⟩, hb.trans_le settle_le⟩).weaken fun _ h => h.1
  have clear : Leads s draw (Recovering s 0 (Shown n f)) (s.byteEvents 0x01 0) (Recovering s 2000 (Shown n f)) :=
    (leads_command hw rfl (fun _ => Shown.narrow) fun _ _ h _ => ⟨h, Nat.le_refl _⟩).weaken fun _ h => h.1
  have entry : Leads s draw (Recovering s 0 (Shown n f)) (s.byteEvents 0x06 0) (Recovering s 0 (Entering n f)) :=
    (leads_command hw rfl (fun _ => Shown.narrow) fun _ _ h hb =>
      ⟨⟨h, rfl, rfl⟩, hb.trans_le settle_le⟩).weaken fun _ h => h.1
  have cursor : Leads s draw (Recovering s 0 (Entering n f)) (s.byteEvents 0x80 0)
      fun pan => Recovering s 0 (· = begunLcd n f) pan ∧ pan.out = lowNibbleByte 0x80 0 ||| s.backlight :=
    leads_command hw rfl (fun _ => Entering.narrow) fun _ _ h hb => ⟨h.obey_setDdram, hb.trans_le settle_le⟩
  have lastByte : lowNibbleByte 0x80 0 ||| s.backlight = s.backlight := BitVec.zero_or
  rw [lastByte] at cursor
  exact ((((lines.append display).append clear).append (leads_wait 2000)).append entry).append cursor

/-- `BEGIN`'s events, all bytes of which arrive, leave the controller known, whatever state it was in. -/
theorem leads_begin (hw : s.params.wf = true) (hrows : s.rows ≠ 0) :
    Leads s draw (Met s) s.beginEvents fun pan =>
      Recovering s 0 (· = begunLcd (decide (1 < s.rows)) (s.charSize && decide (s.rows = 1))) pan ∧
        pan.out = s.backlight := by
  have commands := leads_commands (draw := draw) hw (decode_fnCommand s.rows s.charSize)
  have all := ((leads_contact hw (if s.pinsSet then s.pins else s.params.pinsDefault)).append (leads_force hw)).append
    commands
  rw [fnCommand, fnFlags_eq hrows] at all
  simpa only [State.beginEvents, List.append_assoc] using all

end

/-- The end of the recovery changes the pairing alone. -/
theorem Panel.repair_lcd (pan : Panel) : pan.repair.lcd = pan.lcd := rfl

theorem Panel.repair_out (pan : Panel) : pan.repair.out = pan.out := rfl

/-- Receivers that a `BEGIN` has recovered are linked. -/
theorem Recovering.linked {s t : State} {n f : Bool} {pan : Panel} (h : Recovering s 0 (· = begunLcd n f) pan)
    (hp : t.params = s.params) (ht : t.panel = pan.repair) : t.Linked := by
  have hpair : pan.repair.pairing = .whole := if_pos h.pairing
  refine ⟨?_, ?_, ?_, ?_, ?_⟩ <;> rw [ht]
  · exact congrArg LcdRegs.wide h.lcd
  · exact congrArg LcdRegs.high h.lcd
  · exact Nat.le_zero.1 h.busy
  · exact hp ▸ h.low
  · exact hpair

/-- Settles O50: `BEGIN` emits its events, which leave the controller known, and then ends the recovery. -/
theorem beginForcesAKnownController : Obligations.BeginForcesAKnownController := by
  intro s hm hu ha hb
  obtain ⟨hw, -, -, -, hrows⟩ := id hm
  obtain ⟨known, hout⟩ := leads_begin (draw := s.drawAt) hw hrows s.sent s.panel.revive
    (by rw [beginEvents_xfers]; exact ha.2) ⟨ha.1, rfl, hb⟩
  have linked : s.completed.Linked := known.linked s.completed_params s.completed_panel
  refine ⟨s.completed, ?_, linked, ?_, ?_⟩
  · rw [exec_begin hm hu, linked.rest]
  · rw [State.completed_panel, Panel.repair_lcd, known.lcd, begunLcd]
  · rw [State.completed_panel, Panel.repair_out, hout]

end Sys2Proof.Machine
end

section
/-! PROOFS. The statements of 20_memory.md: every event names `ADDR` (O38), a character is kept where `SETCURSOR` put the
cursor (O51), a glyph in its slot (O52), and the levels of Enable decide what is latched (O58). -/

namespace Sys2Proof.Machine

/-! ## O38: one bus address -/

/-- Every open and write that `t`'s trace holds beyond that of `s` names the `ADDR` of `s`. -/
def State.NamesOnly (s t : State) : Prop := ∃ es, t.trace = s.trace ++ es ∧ ∀ a ∈ busAddrs es, a = s.addr

theorem State.NamesOnly.of_eq {s t : State} (h : t.trace = s.trace) : s.NamesOnly t := ⟨[], by simp [h], nofun⟩

theorem State.NamesOnly.trans {s t u : State} (h₁ : s.NamesOnly t) (ha : t.addr = s.addr) (h₂ : t.NamesOnly u) :
    s.NamesOnly u := by
  obtain ⟨es, h₁, e₁⟩ := h₁
  obtain ⟨fs, h₂, e₂⟩ := h₂
  refine ⟨es ++ fs, by rw [h₂, h₁, List.append_assoc], fun a hm => ?_⟩
  rw [busAddrs_append, List.mem_append] at hm
  exact hm.elim (e₁ a) fun hm => (e₂ a hm).trans ha

theorem busAddrs_actEvents (s : State) (a : Act) : ∀ x ∈ busAddrs (actEvents s a), x = s.addr := by
  cases a <;> simp [actEvents, busAddrs]

/-- An action makes its own events or, at a reset, none. -/
theorem act_namesOnly (a : Act) (s : State) : s.NamesOnly (act a s).state := by
  by_cases ha : isEvent a = true
  · obtain ⟨-, e⟩ | ⟨x, n, pan, -, hx, -, e | ⟨-, e⟩⟩ := act_event_cases ha s <;> rw [e]
    · exact .of_eq rfl
    · exact ⟨[x], rfl, hx ▸ busAddrs_actEvents s a⟩
    · exact ⟨[x], rfl, hx ▸ busAddrs_actEvents s a⟩
  · cases a with
    | openBus | write | wait => exact absurd rfl ha
    | _ => exact .of_eq rfl

/-- An action that goes on leaves `ADDR` alone. -/
theorem act_go_addr {a : Act} {s u : State} (h : act a s = .go u) : u.addr = s.addr := by
  obtain ⟨es, r, n, pan, -, rfl⟩ := act_go h
  exact settle_addr s a

/-- What a list of actions appends names one address, wherever the list ends or stops. -/
theorem runActs_namesOnly (as : List Act) (s : State) : s.NamesOnly (runActs as s).state := by
  have w := runActs_walk (fun t => t.addr = s.addr ∧ s.NamesOnly t) s.NamesOnly as (s := s)
    ?_ ?_ ⟨rfl, .of_eq rfl⟩
  · cases e : runActs as s with
    | go u => exact (w.1 u e).2
    | halt u => exact w.2 u e
  · rintro a - t u ⟨ht, hn⟩ e
    exact ⟨(act_go_addr e).trans ht, hn.trans ht (by simpa [e, Flow.state] using act_namesOnly a t)⟩
  · rintro a - t u ⟨ht, hn⟩ e
    exact hn.trans ht (by simpa [e, Flow.state] using act_namesOnly a t)

/-- Settles O38: an instruction's events are those of its actions, and while they go on `ADDR` stays as it is; a reset
that changes it stops the operation. -/
theorem oneBusAddress : Obligations.OneBusAddress := by
  intro i s t es h ht
  obtain ⟨-, -, rfl⟩ := exec_next h
  have names : s.NamesOnly ((plan i s).flow s).state := by
    cases hp : plan i s with
    | fail c => exact .of_eq rfl
    | set u =>
      obtain ⟨-, -, -, -, hu, -⟩ := plan_set hp
      exact .of_eq hu
    | run as =>
      rw [Plan.flow, runOp_state]
      exact runActs_namesOnly as s
  obtain ⟨fs, hf, named⟩ := names
  rw [State.endOperation_trace, hf, List.append_cancel_left_eq] at ht
  exact ht ▸ named

/-! ## What one byte does to linked receivers -/

/-- A list of nothing but events that leaves the receivers linked: the end of the operation changes nothing more. -/
theorem exec_events_linked {i : Instr} {s : State} {as : List Act} (h : s.Ready)
    (hp : plan i s = Plan.ready s (.run as)) (he : as.all isEvent = true) (hu : s.Undisturbed (writeCount as))
    (hl : (s.emitted (as.flatMap (actEvents s))).Linked) :
    exec i s = .next (s.emitted (as.flatMap (actEvents s))) := by
  rw [exec_events as h hp he hu, hl.rest]

section
variable {s : State}

/-- A byte that makes the receivers `q`, in 4-bit width still and owing the settle of one strobe, leaves them linked, and
the controller and its memories as in `q`. -/
theorem State.Linked.byte (hl : s.Linked) (hw : s.params.wf = true) (ha : s.Arrives 6) {v m : Byte}
    (hm : m = 0 ∨ m = s.params.expRs) {q : Panel}
    (hq : s.panel.execute (s.sent + 5) (decide (m = s.params.expRs)) v = q) (hb : q.busy = settleUs)
    (hwide : q.lcd.wide = false) :
    (s.emitted (s.byteEvents v m)).Linked ∧ (s.emitted (s.byteEvents v m)).panel.lcd = q.lcd ∧
      (s.emitted (s.byteEvents v m)).panel.ddram = q.ddram ∧
      (s.emitted (s.byteEvents v m)).panel.cgram = q.cgram := by
  subst hq
  refine ⟨State.emitted_byte_linked hw v hm ha hl (hb.trans_le settle_le) hwide, ?_⟩
  rw [State.emitted_byte_panel hw v hm ha hl]
  exact ⟨rfl, rfl, rfl⟩

/-- A command that does no more than set the address counter (R81, R82): the counter, and the memory it points into,
are the command's. -/
theorem State.Linked.address_command (hl : s.Linked) (hw : s.params.wf = true) (ha : s.Arrives 6) {v : Byte}
    {c : HdInstr} (hv : HdInstr.decode v = some c) {sp : Space} {a : BitVec 7}
    (hc : ∀ k pan, Panel.obey k c pan = { pan with lcd := { pan.lcd with space := sp, addr := a } }) :
    (s.emitted (s.byteEvents v 0)).Linked ∧
      (s.emitted (s.byteEvents v 0)).panel.lcd = { s.panel.lcd with high := none, space := sp, addr := a } ∧
      (s.emitted (s.byteEvents v 0)).panel.ddram = s.panel.ddram ∧
      (s.emitted (s.byteEvents v 0)).panel.cgram = s.panel.cgram := by
  have executed : s.panel.execute (s.sent + 5) (decide ((0 : Byte) = s.params.expRs)) v
      = { s.panel with lcd := { s.panel.lcd with high := none, space := sp, addr := a }, busy := settleUs } := by
    rw [modeZero hw, Panel.execute_command _ hv, hc]
  exact hl.byte hw ha (.inl rfl) executed rfl hl.1

/-- A data byte to an address of DDRAM that holds a byte is kept there (R51, R85). -/
theorem State.Linked.data_ddram (hl : s.Linked) (hw : s.params.wf = true) (ha : s.Arrives 6) (v : Byte)
    (hs : s.panel.lcd.space = .ddram) (hh : ddramHolds s.panel.lcd.twoLine s.panel.lcd.addr.toNat = true) :
    (s.emitted (s.byteEvents v s.params.expRs)).Linked ∧
      (s.emitted (s.byteEvents v s.params.expRs)).panel.ddram
        = Memory.write s.panel.ddram s.panel.lcd.addr.toNat v := by
  obtain ⟨a, executed⟩ := Panel.execute_data_ddram (s.sent + 5) v hs hh
  rw [← decide_eq_true (rfl : s.params.expRs = s.params.expRs)] at executed
  obtain ⟨linked, -, ddram, -⟩ := hl.byte hw ha (.inr rfl) executed rfl hl.1
  exact ⟨linked, ddram⟩

/-- A data byte to an address of CGRAM is kept there, and the counter, which stays in CGRAM, goes on to the next address
where the entry mode is increment and there is one (R52, R85). -/
theorem State.Linked.data_cgram (hl : s.Linked) (hw : s.params.wf = true) (ha : s.Arrives 6) (v : Byte)
    (hs : s.panel.lcd.space = .cgram) (hlt : s.panel.lcd.addr.toNat < 64) :
    (s.emitted (s.byteEvents v s.params.expRs)).Linked ∧
      (s.emitted (s.byteEvents v s.params.expRs)).panel.cgram
        = Memory.write s.panel.cgram s.panel.lcd.addr.toNat v ∧
      ∃ a, (s.emitted (s.byteEvents v s.params.expRs)).panel.lcd = { s.panel.lcd with high := none, addr := a } ∧
        (s.panel.lcd.increment = true → s.panel.lcd.addr.toNat + 1 < 64 → a = s.panel.lcd.addr + 1) := by
  obtain ⟨a, executed, next⟩ := Panel.execute_data_cgram (s.sent + 5) v hs hlt
  rw [← decide_eq_true (rfl : s.params.expRs = s.params.expRs)] at executed
  obtain ⟨linked, lcd, -, cgram⟩ := hl.byte hw ha (.inr rfl) executed rfl hl.1
  exact ⟨linked, cgram, a, lcd, next⟩

end

/-! ## O51: a character at the cursor -/

/-- The command of `SETCURSOR` sets the DDRAM address, modulo 128 (R174). -/
theorem decode_ddramCommand (base : Nat) (col : Byte) :
    HdInstr.decode (ddramCommand base col) = some (.setDdram (BitVec.ofNat 7 (base + col.toNat))) := by
  have byte : ddramCommand base col = (HdInstr.setDdram (BitVec.ofNat 7 (base + col.toNat))).byte := by
    unfold ddramCommand HdInstr.byte
    congr 1
    apply BitVec.eq_of_toNat_eq
    simp
  rw [byte, HdInstr.decode_byte]

/-- `PUTC` to an address of DDRAM that holds a byte (R128). -/
theorem exec_putc_ddram {s : State} (hr : s.Ready) (hu : s.Undisturbed 6) (ha : s.Arrives 6) (hl : s.Linked) (v : Byte)
    (hs : s.panel.lcd.space = .ddram) (hh : ddramHolds s.panel.lcd.twoLine s.panel.lcd.addr.toNat = true) :
    ∃ t, exec (.putc v) s = .next t ∧ t.Linked ∧
      t.panel.ddram = Memory.write s.panel.ddram s.panel.lcd.addr.toNat v := by
  obtain ⟨linked, ddram⟩ := hl.data_ddram hr.1 ha v hs hh
  exact ⟨_, exec_events_linked (as := dataActs s.params v) hr rfl rfl hu linked, linked, ddram⟩

/-- Settles O51: `SETCURSOR`'s command puts the counter at the address, which is below 128, and the character's byte is
written there. -/
theorem characterStoredAtCursor : Obligations.CharacterStoredAtCursor := by
  intro col row v base s hr hu ha hl hbase hholds
  obtain ⟨tl, tlcd, tddram, -⟩ := hl.address_command hr.1 (ha.mono (by omega)) (decode_ddramCommand base col)
    (fun _ _ => rfl)
  have cursor : exec (.setCursor col row) s = .next (s.emitted (s.byteEvents (ddramCommand base col) 0)) :=
    exec_events_linked (as := cmdActs s.params (ddramCommand base col)) hr (by simp only [plan, hbase]) rfl
      (hu.mono (n := 12) (Nat.le_add_left 6 6)) tl
  have taddr : (s.emitted (s.byteEvents (ddramCommand base col) 0)).panel.lcd.addr.toNat = base + col.toNat := by
    rw [tlcd]
    exact Nat.mod_eq_of_lt (ddramHolds_lt hholds)
  obtain ⟨u, putc, ul, uddram⟩ := exec_putc_ddram (s := s.emitted (s.byteEvents (ddramCommand base col) 0)) hr
    (hu.after (n := 6) _) (ha.after (n := 6) _) tl v (by rw [tlcd]) (by rw [taddr, tlcd]; exact hholds)
  rw [taddr, tddram] at uddram
  refine ⟨_, u, cursor, putc, ul, ?_, fun a hne => ?_⟩ <;> rw [uddram]
  · exact Memory.read_write_same ..
  · exact Memory.read_write_other _ _ _ _ hne

/-! ## O52: a glyph in its slot -/

/-- The command of `CREATECHAR` sets the CGRAM address of the slot (R176). -/
theorem decode_cgramCommand (loc : Byte) :
    ∃ a, HdInstr.decode (cgramCommand loc) = some (.setCgram a) ∧ a.toNat = loc.toNat % 8 * 8 :=
  ⟨((loc &&& 0x07) <<< 3).setWidth 6, by revert loc; decide, by revert loc; decide⟩

/-- The events of data bytes sent one after the other. -/
def State.dataEvents (s : State) (g : List Byte) : List Event := g.flatMap fun b => s.byteEvents b s.params.expRs

theorem glyphActs_flatMap (s : State) (loc : Byte) (g : List Byte) :
    (glyphActs s.params loc g).flatMap (actEvents s) = s.byteEvents (cgramCommand loc) 0 ++ s.dataEvents g := by
  rw [glyphActs, List.flatMap_append, List.flatMap_assoc]
  rfl

/-- `CREATECHAR` writes six bytes for the command and six for each row (R177). -/
theorem writeCount_glyphActs (p : Params) (loc : Byte) (g : List Byte) :
    writeCount (glyphActs p loc g) = 6 + 6 * g.length := by
  have rows : writeCount (g.flatMap (dataActs p)) = 6 * g.length := by
    induction g with
    | nil => rfl
    | cons b g ih =>
      rw [List.flatMap_cons, writeCount_append, ih, dataActs, writeCount_sendActs, List.length_cons]
      omega
  rw [glyphActs, writeCount_append, cmdActs, writeCount_sendActs, rows]

/-- Of a memory after it took the bytes `g` from address `a` on: the bytes are there, every other address reads as
before. -/
def Memory.Filled (before after : List Host.Cell) (a : Nat) (g : List Byte) : Prop :=
  (∀ j, j < g.length → Memory.read after (a + j) = g[j]?) ∧
    ∀ x, x < a ∨ a + g.length ≤ x → Memory.read after x = Memory.read before x

/-- The first byte written, then the rest behind it. -/
theorem Memory.Filled.cons {before after : List Host.Cell} {a : Nat} {b : Byte} {g : List Byte}
    (h : Memory.Filled (Memory.write before a b) after (a + 1) g) : Memory.Filled before after a (b :: g) := by
  obtain ⟨bytes, frame⟩ := h
  refine ⟨fun j hj => ?_, fun x hx => ?_⟩
  · cases j with
    | zero => exact (frame a (.inl (Nat.lt_succ_self a))).trans (Memory.read_write_same ..)
    | succ j =>
      rw [List.getElem?_cons_succ, ← bytes j (Nat.lt_of_succ_lt_succ hj), Nat.add_right_comm, Nat.add_assoc]
  · rw [List.length_cons] at hx
    rw [frame x (by omega), Memory.read_write_other _ _ _ _ (by omega)]

/-- Data bytes to a counter in CGRAM, entry mode increment, are kept from the counter's address on, one after the other,
where there are addresses enough. -/
theorem State.Linked.data_rows {s : State} (hl : s.Linked) (hw : s.params.wf = true) (g : List Byte) {a : Nat}
    (ha : s.Arrives (6 * g.length)) (hs : s.panel.lcd.space = .cgram) (hi : s.panel.lcd.increment = true)
    (hstart : g ≠ [] → s.panel.lcd.addr.toNat = a) (hroom : a + g.length ≤ 64) :
    (s.emitted (s.dataEvents g)).Linked ∧ (s.emitted (s.dataEvents g)).panel.lcd.space = .cgram ∧
      Memory.Filled s.panel.cgram (s.emitted (s.dataEvents g)).panel.cgram a g := by
  induction g generalizing s a with
  | nil => exact ⟨(State.emitted_nil s).symm ▸ hl, hs, nofun, fun _ _ => rfl⟩
  | cons b g ih =>
    rw [List.length_cons] at ha hroom
    have start := hstart (List.cons_ne_nil b g)
    obtain ⟨tl, tcgram, n, tlcd, next⟩ := hl.data_cgram hw (ha.mono (by omega)) b hs (by omega)
    have split : s.emitted (s.dataEvents (b :: g))
        = (s.emitted (s.byteEvents b s.params.expRs)).emitted (s.dataEvents g) := (State.emitted_append ..).symm
    have tstart : g ≠ [] → (s.emitted (s.byteEvents b s.params.expRs)).panel.lcd.addr.toNat = a + 1 := by
      intro hg
      have more := List.length_pos_iff.2 hg
      rw [tlcd, ← start]
      simp only [next hi (by omega)]
      bv_omega
    obtain ⟨ul, uspace, rows⟩ := ih (s := s.emitted (s.byteEvents b s.params.expRs)) tl hw
      (State.Arrives.after _ (ha.mono (by rw [byteEvents_xfers]; omega))) (by rw [tlcd]; exact hs)
      (by rw [tlcd]; exact hi) tstart (by omega)
    rw [tcgram, start] at rows
    rw [split]
    exact ⟨ul, uspace, rows.cons⟩

/-- Settles O52: the command puts the counter at the slot's first address, and the eight rows follow one another within
CGRAM. -/
theorem glyphStoredInItsSlot : Obligations.GlyphStoredInItsSlot := by
  intro loc g s hg hr hu ha hl hi
  obtain ⟨a, hv, hslot⟩ := decode_cgramCommand loc
  obtain ⟨tl, tlcd, -, tcgram⟩ := hl.address_command hr.1 (ha.mono (by omega)) hv (fun _ _ => rfl)
  obtain ⟨ul, uspace, rows, frame⟩ := tl.data_rows hr.1 g (a := loc.toNat % 8 * 8)
    (State.Arrives.after (s := s) _ (ha.mono (by rw [byteEvents_xfers, hg]))) (by rw [tlcd]) (by rw [tlcd]; exact hi)
    (fun _ => by rw [tlcd, ← hslot]; exact BitVec.toNat_setWidth_of_le (by decide)) (by omega)
  have events : (s.emitted (s.byteEvents (cgramCommand loc) 0)).emitted (s.dataEvents g)
      = s.emitted ((glyphActs s.params loc g).flatMap (actEvents s)) := by
    rw [State.emitted_append, glyphActs_flatMap]
  have same : (s.emitted (s.byteEvents (cgramCommand loc) 0)).dataEvents g = s.dataEvents g := rfl
  rw [same, events] at ul uspace rows frame
  rw [hg] at rows frame
  refine ⟨_, exec_events_linked hr rfl (glyphActs_events ..) ?_ ul, ul, uspace, rows, fun x hx => ?_⟩
  · rw [writeCount_glyphActs, hg]
    exact hu
  · rw [frame x hx, tcgram]

/-! ## O58: Enable held high -/

/-- The receivers of `s` after a write, or several, of the nibble byte `n` with Enable set: Enable has been high for
`us` microseconds, and the controller has latched nothing yet. -/
structure Raised (s : State) (n : Byte) (us : Nat) (pan : Panel) : Prop where
  addr : s.addr = pan.busAddr
  out : pan.out = n ||| s.params.expEn ||| s.backlight
  held : pan.held = us
  busy : pan.busy = 0
  lcd : pan.lcd = s.panel.lcd

/-- The controller of `s` with the nibble of `n` latched as a high one. -/
def State.nibbleLatched (s : State) (n : Byte) : LcdRegs :=
  { s.panel.lcd with high := some (decide (n &&& 0x0F = s.params.expRs), (n >>> 4).setWidth 4) }

section
variable {s : State} {n : Byte} {us : Nat} {r : XferResult} {pan : Panel}

/-- The write that raises Enable. -/
theorem State.Linked.raise_enable (hl : s.Linked) (N : NibbleLines s.params n s.backlight)
    (ha : s.addr = s.panel.busAddr) (hr : r ≠ .fail false) (k : Nat) :
    Raised s n 0 (s.panel.receive s.params r k s.addr (n ||| s.params.expEn ||| s.backlight)) := by
  obtain ⟨-, -, hbusy, hlow, -⟩ := hl
  rw [Panel.receive_low k _ ha hr hlow, N.high_en]
  exact ⟨ha, rfl, rfl, hbusy, rfl⟩

/-- The same byte once more: the pulse goes on (R58). -/
theorem Raised.again (h : Raised s n us pan) (hr : r ≠ .fail false) (k : Nat) :
    Raised s n us (pan.receive s.params r k s.addr (n ||| s.params.expEn ||| s.backlight)) := by
  rw [← h.out, Panel.receive_arrives k _ h.addr hr, Panel.latch_no_fall k id, if_pos rfl]
  exact ⟨h.addr, h.out, h.held, h.busy, h.lcd⟩

theorem Raised.elapse (h : Raised s n us pan) (t : Nat) : Raised s n (us + t) (pan.elapse t) :=
  ⟨h.addr, h.out, congrArg (· + t) h.held, by simp [Panel.elapse, h.busy], h.lcd⟩

theorem Raised.rest (h : Raised s n us pan) : Raised s n us (pan.rest s.params) :=
  ⟨h.addr, h.out, h.held, h.busy, h.lcd⟩

/-- Enable falls after at least 1 us: the nibble is latched (R111). -/
theorem Raised.fall (h : Raised s n us pan) (N : NibbleLines s.params n s.backlight) (hn : Narrow s.panel.lcd)
    (hus : 1 ≤ us) (hr : r ≠ .fail false) (k : Nat) :
    (pan.receive s.params r k s.addr (n ||| s.backlight)).lcd = s.nibbleLatched n := by
  have clean : pan.strobeClean s.params (n ||| s.backlight) = true := by
    simp [Panel.strobeClean, h.busy, h.held, hus, h.out, N.still, N.high_rw]
  rw [Panel.receive_fall k _ h.addr hr (by rw [h.out, N.high_en]) N.low_en clean, h.out, N.high_rs, N.high_data,
    Panel.strobe_high k _ _ (h.lcd ▸ hn), h.lcd]
  rfl

end

/-! ### Three `EXPW`s -/

/-- `t` is a state later than `s` with the same parameters, address and backlight, which may issue requests whose next
`m` transactions arrive and stop nothing. -/
structure Continues (s : State) (m : Nat) (t : State) : Prop where
  ready : t.Ready
  undisturbed : t.Undisturbed m
  arrives : t.Arrives m
  params : t.params = s.params
  addr : t.addr = s.addr
  backlight : t.backlight = s.backlight

section
variable {s t : State} {m : Nat}

theorem Continues.paused (h : Continues s m t) (ms : List HostMove) (us : Nat) : Continues s m (t.paused ms us) :=
  ⟨h.ready, h.undisturbed, h.arrives, h.params, h.addr, h.backlight⟩

/-- `EXPW` is one transport write that arrives, and the end of the operation. -/
theorem Continues.expw (h : Continues s (m + 1) t) (b : Byte) :
    ∃ u r k, exec (.expw b) t = .next u ∧ Continues s m u ∧ r ≠ .fail false ∧
      u.panel = (t.panel.receive s.params r k s.addr (b ||| s.backlight)).rest s.params := by
  have count : m + 1 = (xferBytes [Event.xfer t.addr (b ||| t.blv)]).length + m := Nat.add_comm m 1
  have hu := State.Undisturbed.after (n := m) _ (count ▸ h.undisturbed)
  have ha := State.Arrives.after (n := m) _ (count ▸ h.arrives)
  refine ⟨_, t.drawAt t.sent, t.sent,
    exec_events [.write b] h.ready rfl rfl (h.undisturbed.mono (Nat.le_add_left 1 m)),
    ⟨h.ready, hu, ha, h.params, h.addr, h.backlight⟩, h.arrives.2 0 (Nat.succ_pos m), ?_⟩
  rw [← h.params, ← h.addr, ← h.backlight]
  rfl

end

/-- Two `EXPW`s with Enable set and a pause between them, then one with Enable clear: one pulse. -/
theorem expw_pulse {n : Byte} {us : Nat} {s : State} (hr : s.Ready) (hu : s.Undisturbed 3) (ha : s.Arrives 3)
    (hl : s.Linked) (N : NibbleLines s.params n s.backlight) (hus : 1 ≤ us) :
    ∃ t u v, exec (.expw (n ||| s.params.expEn)) s = .next t ∧ t.panel.lcd = s.panel.lcd ∧
      exec (.expw (n ||| s.params.expEn)) (t.paused t.port us) = .next u ∧ u.panel.lcd = s.panel.lcd ∧
      exec (.expw n) u = .next v ∧ v.panel.lcd = s.nibbleLatched n := by
  have start : Continues s 3 s := ⟨hr, hu, ha, rfl, rfl, rfl⟩
  obtain ⟨t, r₁, k₁, exec₁, ht, arrives₁, panel₁⟩ := start.expw (n ||| s.params.expEn)
  obtain ⟨u, r₂, k₂, exec₂, hu, arrives₂, panel₂⟩ := (ht.paused t.port us).expw (n ||| s.params.expEn)
  obtain ⟨v, r₃, k₃, exec₃, -, arrives₃, panel₃⟩ := hu.expw n
  have rises : Raised s n 0 t.panel := panel₁ ▸ (hl.raise_enable N ha.1 arrives₁ k₁).rest
  have stays : Raised s n (0 + us) u.panel := panel₂ ▸ ((rises.elapse us).again arrives₂ k₂).rest
  refine ⟨t, u, v, exec₁, rises.lcd, exec₂, stays.lcd, exec₃, ?_⟩
  rw [panel₃]
  exact stays.fall N ⟨hl.1, hl.2.1⟩ (by omega) arrives₃ k₃

/-! ### One `W4` -/

/-- The events of a `W4` whose byte has Enable set: the bytes are those of `n`, but the first has Enable set too. -/
theorem nibbleEvents_enable (s : State) {n : Byte} (hn : hasBit n s.params.expEn = false) :
    s.nibbleEvents (n ||| s.params.expEn)
      = [.xfer s.addr (n ||| s.params.expEn ||| s.backlight), .xfer s.addr (n ||| s.params.expEn ||| s.backlight),
          .wait 1, .xfer s.addr (n ||| s.backlight), .wait 50] := by
  have setTwice : n ||| s.params.expEn ||| s.params.expEn = n ||| s.params.expEn := by
    rw [BitVec.or_assoc, BitVec.or_self]
  have cleared : (n ||| s.params.expEn) &&& ~~~s.params.expEn = n := by
    have distrib : (n ||| s.params.expEn) &&& ~~~s.params.expEn = n &&& ~~~s.params.expEn := by
      ext i hi
      simp only [BitVec.getElem_and, BitVec.getElem_or, BitVec.getElem_not]
      cases s.params.expEn[i] <;> simp
    rw [distrib, clear_of_not_hasBit hn]
  rw [State.nibbleEvents, nibbleEvents, setTwice, cleared]

/-- `W4` of a byte with Enable set raises Enable with its first write, keeps it high with its second and lets it fall
with its third (R121). -/
theorem w4_pulse {n : Byte} {s : State} (hr : s.Ready) (hu : s.Undisturbed 3) (ha : s.Arrives 3)
    (hl : s.Linked) (N : NibbleLines s.params n s.backlight) (hn : hasBit n s.params.expEn = false) :
    ∃ t, exec (.w4 (n ||| s.params.expEn)) s = .next t ∧ t.panel.lcd = s.nibbleLatched n := by
  obtain ⟨haddr, hd⟩ := ha
  have rises := hl.raise_enable N haddr (hd 0 (by decide)) s.sent
  have stays := (rises.again (hd 1 (by decide)) (s.sent + 1)).elapse 1
  refine ⟨_, exec_events (write4Acts s.params (n ||| s.params.expEn)) hr rfl rfl hu, ?_⟩
  rw [write4Acts_flatMap, nibbleEvents_enable s hn]
  exact stays.fall N ⟨hl.1, hl.2.1⟩ (by decide) (hd 2 (by decide)) (s.sent + 2)

/-- Settles O58: Enable rises at the first write and falls at the last, both times after at least 1 us of pulse. -/
theorem enableHeldOverWritesIsOnePulse : Obligations.EnableHeldOverWritesIsOnePulse := by
  intro n us s hr hu ha hl hn hus
  have N := nibbleLines hr.1 hn s.backlight_cases
  have clear : hasBit n s.params.expEn = false := (Bool.or_eq_false_iff.1 ((hasBit_or ..).symm.trans N.low_en)).1
  exact ⟨expw_pulse hr hu ha hl N hus, w4_pulse hr hu ha hl N clear⟩

end Sys2Proof.Machine
end

section
/-! PROOFS. The statements of 30_encoding.md: the encoder and the decoder (O1 to O4), the steps without an instruction
(O6), carried bytes (O10, O30), the nibble transaction (O25), the R/W line (O39), what commands store (O55),
what breaks the nibble pairing (O53) and pseudo-operations (O59). -/

namespace Sys2Proof

/-! ## O1: the decoder reads back what the encoder writes -/

/-- A flag's byte touches no more of the data nibble than its line does. -/
theorem flagBit_high (b : Bool) {m : Byte} (hm : m &&& 0xF0 = 0) : flagBit b m &&& 0xF0 = 0 := by
  cases b
  · exact BitVec.zero_and
  · exact hm

/-- The data nibble of an expander byte, whatever its lines. -/
theorem busByte_data {p : Params} (hp : p.wf = true) (d : Nibble) (l e w s : Bool) :
    (busByte p d l e w s >>> 4).setWidth 4 = d := by
  have L := Params.lines hp
  have nibble : ((d.setWidth 8 <<< 4 : Byte) >>> 4).setWidth 4 = d := by revert d; decide
  rw [busByte, data_or_line _ (flagBit_high s L.rs_high), data_or_line _ (flagBit_high w L.rw_high),
    data_or_line _ (flagBit_high e L.en_high), data_or_line _ (flagBit_high l L.bl_high), nibble]

/-- The line with mask `m` in an expander byte: each flag shows on its own line only. -/
theorem hasBit_busByte (p : Params) {m : Byte} (hm : m &&& 0xF0 = 0) (d : Nibble) (l e w s : Bool) :
    hasBit (busByte p d l e w s) m
      = (l && hasBit p.expBl m || e && hasBit p.expEn m || w && hasBit p.expRw m || s && hasBit p.expRs m) := by
  have nibble : (d.setWidth 8 <<< 4 : Byte) &&& 0x0F = 0 := by revert d; decide
  simp [busByte, hasBit_or, hasBit_flagBit, hasBit_high hm nibble]

/-- An expander byte gives its nibble and its four lines back, wherever the parameters put the lines (R72). -/
theorem decode_busByte {p : Params} (hp : p.wf = true) (d : Nibble) (l e w s : Bool) :
    decode p (.bus (busByte p d l e w s)) = .ok (.xferByte d l e w s) := by
  have L := Params.lines hp
  have bl : hasBit (busByte p d l e w s) p.expBl = l := by
    simp [hasBit_busByte p L.bl_high, L.bl_bl, L.en_bl, L.rw_bl, L.rs_bl]
  have en : hasBit (busByte p d l e w s) p.expEn = e := by
    simp [hasBit_busByte p L.en_high, L.bl_en, L.en_en, L.rw_en, L.rs_en]
  have rw : hasBit (busByte p d l e w s) p.expRw = w := by
    simp [hasBit_busByte p L.rw_high, L.bl_rw, L.en_rw, L.rw_rw, L.rs_rw]
  have rs : hasBit (busByte p d l e w s) p.expRs = s := by
    simp [hasBit_busByte p L.rs_high, L.bl_rs, L.en_rs, L.rw_rs, L.rs_rs]
  rw [decode, busByte_data hp, bl, en, rw, rs]

/-- A request reads back: every operand the encoder writes fits its width. -/
theorem decode_request (p : Params) {i : Instr} {m : ReqName} (hi : Laws.instrRow i = .request m) :
    decode p (encode p i) = .ok i := by
  cases i with
  | cfgAddr | cfgGeom | cfgFont | cfgPins | cfgBl | beginInit | expw | pulse | w4 | send | cmd | putc | clear | home
  | setCursor | createChar | setBl | dctl => simp [encode, decode, decodeRequest, withByte, withBytes, withBit]
  | _ => cases hi

/-- An instruction byte reads back (R76). -/
theorem decode_instructionByte (p : Params) {i : Instr} (hi : Laws.instrRow i = .instructionByte) :
    decode p (encode p i) = .ok i := by
  cases i with
  | hdClear | hdHome | hdEntryMode | hdDispCtl | hdShift | hdFuncSet | hdSetCgram | hdSetDdram =>
    exact decode_term p _
  | _ => cases hi

/-- Settles O1: row by row of the table; only the expander byte needs the parameters legal. -/
theorem decodeInvertsEncode : Obligations.DecodeInvertsEncode := by
  intro p i hp
  cases row : Laws.instrRow i with
  | request m => exact decode_request p row
  | instructionByte => exact decode_instructionByte p row
  | _ =>
    cases i with
    | hdFuncSetNibble8 | hdFuncSetNibble4 | hdData => rfl
    | xferByte d l e w s => exact decode_busByte hp d l e w s
    | _ => cases row

/-! ## O2: the leading one -/

/-- The leading one of a number between two powers of two. -/
theorem leadingOne {b : Byte} {i : Nat} (hl : 2 ^ i ≤ b.toNat) (hu : b.toNat < 2 ^ (i + 1)) :
    b.getLsbD i = true ∧ ∀ j, i < j → b.getLsbD j = false :=
  ⟨Nat.testBit_of_two_pow_le_and_two_pow_add_one_gt hl hu, fun _ hj =>
    Nat.testBit_eq_false_of_lt (hu.trans_le (Nat.pow_le_pow_right Nat.two_pos hj))⟩

/-- Decoding an instruction byte loses no bit. -/
theorem HdInstr.byte_of_decode {b : Byte} {h : HdInstr} (e : HdInstr.decode b = some h) : h.byte = b := by
  have all : ∀ b : Byte, (HdInstr.decode b).all (fun h => h.byte == b) = true := by decide
  simpa [e] using all b

/-- Only the byte without a leading one is no instruction. -/
theorem HdInstr.decode_eq_none {b : Byte} : HdInstr.decode b = none ↔ b = 0 := by
  revert b
  decide

/-- The instruction whose leading one is at position `i`, its fields the bits of `b` below that. -/
def HdInstr.ofLeadingOne (b : Byte) : Nat → HdInstr
  | 7 => .setDdram (b.setWidth 7)
  | 6 => .setCgram (b.setWidth 6)
  | 5 => .funcSet (b.getLsbD 4) (b.getLsbD 3) (b.getLsbD 2) (b.setWidth 2)
  | 4 => .shift (b.getLsbD 3) (b.getLsbD 2) (b.setWidth 2)
  | 3 => .dispCtl (b.getLsbD 2) (b.getLsbD 1) (b.getLsbD 0)
  | 2 => .entryMode (b.getLsbD 1) (b.getLsbD 0)
  | 1 => .home (b.getLsbD 0)
  | _ => .clear

/-- R76: the bytes between two powers of two are those of one instruction. -/
theorem HdInstr.decode_of_range {b : Byte} {i : Nat} (hi : i < 8) (hl : 2 ^ i ≤ b.toNat) (hu : b.toNat < 2 ^ (i + 1)) :
    HdInstr.decode b = some (HdInstr.ofLeadingOne b i) := by
  obtain ⟨leading, above⟩ := leadingOne hl hu
  interval_cases i <;>
    simp only [HdInstr.decode, HdInstr.ofLeadingOne, leading, above, Nat.reduceLT, Bool.false_eq_true, if_false,
      if_true]

/-- Settles O2: each range of bytes is that of one leading one. -/
theorem instructionBytesByLeadingOne : Obligations.InstructionBytesByLeadingOne := by
  intro b
  have range : ∀ i, i < 8 → 2 ^ i ≤ b.toNat → b.toNat < 2 ^ (i + 1) →
      HdInstr.decode b = some (HdInstr.ofLeadingOne b i) := fun _ => HdInstr.decode_of_range
  exact ⟨HdInstr.decode_eq_none, fun _ => HdInstr.byte_of_decode,
    fun h => range 7 (by decide) h b.isLt,
    fun h => range 6 (by decide) h.1 h.2,
    fun h => ⟨_, _, _, _, range 5 (by decide) h.1 h.2⟩,
    fun h => ⟨_, _, _, range 4 (by decide) h.1 h.2⟩,
    fun h => ⟨_, _, _, range 3 (by decide) h.1 h.2⟩,
    fun h => ⟨_, _, range 2 (by decide) h.1 h.2⟩,
    fun h => ⟨_, range 1 (by decide) h.1 h.2⟩,
    fun h => h ▸ rfl⟩

/-! ## O3: the transcriber's refusals -/

theorem withByte_wide (m : ReqName) {n : Nat} (h : 256 ≤ n) (k : Byte → Instr) :
    withByte m n k = .error (.operandWidth m n) := by
  rw [withByte, operand_wide m h]

theorem withBytes_wide_first (m : ReqName) {a : Nat} (h : 256 ≤ a) (b : Nat) (k : Byte → Byte → Instr) :
    withBytes m a b k = .error (.operandWidth m a) := by
  rw [withBytes, operand_wide m h]

theorem withBytes_wide_second (m : ReqName) {a b : Nat} (ha : a < 256) (hb : 256 ≤ b) (k : Byte → Byte → Instr) :
    withBytes m a b k = .error (.operandWidth m b) := by
  rw [withBytes, operand_fits m ha]
  exact withByte_wide m hb _

theorem withBit_wide (m : ReqName) {n : Nat} (h : 2 ≤ n) (k : Bool → Instr) :
    withBit m n k = .error (.operandWidth m n) := by
  rw [withBit, bitOperand_wide m h]

/-- The first row of a glyph that does not fit a byte is the one named. -/
theorem byteOperands_wide (m : ReqName) {n : Nat} {before : List Nat} (rest : List Nat)
    (hb : ∀ x ∈ before, x < 256) (hn : 256 ≤ n) :
    byteOperands m (before ++ n :: rest) = .error (.operandWidth m n) := by
  induction before with
  | nil => rw [List.nil_append, byteOperands, operand_wide m hn]
  | cons x before ih =>
    rw [List.forall_mem_cons] at hb
    rw [List.cons_append, byteOperands, operand_fits m hb.1, ih hb.2]

/-- Settles O3: by the operand readers, mnemonic by mnemonic. -/
theorem transcriberRefusesByName : Obligations.TranscriberRefusesByName := by
  intro p
  refine ⟨fun a ha => ?_, fun n hn r hr => ?_, fun n f hn => withBit_wide .dctl hn _, fun n hn r hr => ?_,
    fun a b ha r hr => ?_, fun a b ha hb r hr => ?_, fun l g hl => ?_, fun l n before rest hl hbefore hn => ?_⟩
  · rw [decode, decodeRequest, operand_wide _ ha]
  · fin_cases hr <;> exact withBit_wide _ hn _
  · fin_cases hr <;> exact withByte_wide _ hn _
  · fin_cases hr <;> exact withBytes_wide_first _ ha b _
  · fin_cases hr <;> exact withBytes_wide_second _ ha hb _
  · rw [decode, decodeRequest, operand_wide _ hl]
  · rw [decode, decodeRequest, operand_fits _ hl, byteOperands_wide _ rest hbefore hn]

/-! ## O4: words and requests written out -/

/-- Settles O4: nine words and requests, each read by the decoder. -/
theorem writtenWordsDecode : Obligations.WrittenWordsDecode :=
  ⟨rfl, rfl, rfl, rfl, rfl, rfl, rfl, rfl, rfl⟩

end Sys2Proof

namespace Sys2Proof.Machine

/-! ## O6: the other steps -/

/-- Settles O6: by what stands at the head of the port. -/
theorem stepWithoutAnInstruction : Obligations.StepWithoutAnInstruction := by
  intro s
  refine ⟨fun hp => ?_, fun us ms hp => ?_, fun t cut ms e hp hd => ?_, fun t cut ms i hp hd hi => ?_⟩
  · simp [step, State.nextMove, hp]
  · simp [step, State.nextMove, hp, State.paused]
  · simp [step, State.nextMove, hp, hd]
  · simp [step, State.nextMove, hp, hd, hi]

end Sys2Proof.Machine

namespace Sys2Proof.Machine

/-! ## O10, O30: carried bytes -/

/-- A carried byte's plan is a READY-only list of actions. -/
theorem plan_carried {i : Instr} (h : isCarried i = true) (s : State) :
    ∃ as, plan i s = Plan.ready s (.run as) := by
  cases i with
  | hdClear | hdHome | hdEntryMode | hdDispCtl | hdShift | hdFuncSet | hdFuncSetNibble8 | hdFuncSetNibble4
  | hdSetCgram | hdSetDdram | hdData | xferByte => exact ⟨_, rfl⟩
  | _ => cases h

/-- A READY-only instruction in `CONFIG` (R203). -/
theorem exec_notReady {i : Instr} {s : State} {p : Plan} (hp : plan i s = p.ready s) (h : s.InConfig)
    (hr : s.resetIn = none) : exec i s = .next (s.faultedBy .notReady) :=
  exec_of_fail h.1 h.ne_faulted hr (by rw [hp, Plan.ready, if_neg (by simp [h.2])])

/-- Settles O10: every carried byte's plan is READY-only. -/
theorem carriedBytesNeedReady : Obligations.CarriedBytesNeedReady := by
  intro i s hi hs hr
  obtain ⟨as, hp⟩ := plan_carried hi s
  exact exec_notReady hp hs hr

/-- An instruction whose list is one byte transaction. -/
theorem exec_byte {i : Instr} {s : State} (hs : s.Ready) (hu : s.Undisturbed 6) {v m : Byte}
    (hp : plan i s = Plan.ready s (.run (sendActs s.params v m))) :
    exec i s = .next (s.emitted (s.byteEvents v m)).rest :=
  exec_events (sendActs s.params v m) hs hp rfl hu

/-- An instruction whose list is one nibble transaction. -/
theorem exec_nibble {i : Instr} {s : State} (hs : s.Ready) (hu : s.Undisturbed 3) {n : Byte}
    (hp : plan i s = Plan.ready s (.run (write4Acts s.params n))) :
    exec i s = .next (s.emitted (s.nibbleEvents n)).rest :=
  exec_events (write4Acts s.params n) hs hp rfl hu

/-- Settles O30: each carried byte's list is one byte transaction, one nibble transaction or one write. -/
theorem carriedBytesAreSent : Obligations.CarriedBytesAreSent := by
  intro s hs hu
  have hu₃ : s.Undisturbed 3 := hu.mono (by decide)
  refine ⟨exec_byte hs hu rfl, fun x => ?_, fun i sh => exec_byte hs hu rfl, fun d c b => exec_byte hs hu rfl,
    fun sc rl x => exec_byte hs hu rfl, fun l n f x => exec_byte hs hu rfl, exec_nibble hs hu₃ rfl,
    exec_nibble hs hu₃ rfl, fun a => exec_byte hs hu rfl, fun a => exec_byte hs hu rfl,
    fun d => exec_byte hs hu rfl, fun d l e w r => ?_⟩
  · have byte : HdInstr.byte (.home x) = if x then 0x03 else 0x02 := by cases x <;> rfl
    rw [← byte]
    exact exec_byte hs hu rfl
  · exact exec_events [.write (busByte s.params d l e w r)] hs rfl rfl (hu.mono (n := 6) (Nat.le_add_left 1 5))

/-! ## O25: one nibble transaction -/

/-- Settles O25: a nibble byte has no Enable to clear, so the third byte is the first. -/
theorem nibbleTransactionBytes : Obligations.NibbleTransactionBytes := by
  intro n s hs hu
  exact ⟨exec_nibble hs hu rfl, fun hn => (nibbleLines hs.1 hn s.backlight_cases).end_eq⟩

/-! ## O39: the R/W line

What a list of actions appends to the trace is said once, for any property of events. -/

/-- An action appends its own events or, where a reset stops it, none. -/
theorem act_appends (a : Act) (s : State) :
    (act a s).state.trace = s.trace ∨ (act a s).state.trace = s.trace ++ actEvents s a := by
  by_cases ha : isEvent a = true
  · obtain ⟨-, e⟩ | ⟨x, n, pan, -, hx, -, e | ⟨-, e⟩⟩ := act_event_cases ha s <;> rw [e]
    · exact .inl rfl
    · exact .inr (hx ▸ rfl)
    · exact .inr (hx ▸ rfl)
  · cases a with
    | openBus | write | wait => exact absurd rfl ha
    | _ => exact .inl rfl

/-- Where every action of a list, in every state with `R` that the list goes through, has events with `Q` only, the
list appends events with `Q` only, wherever it ends or stops. -/
theorem runActs_appends {R : State → Prop} {Q : Event → Prop} {as : List Act} {s : State} (hs : R s)
    (keep : ∀ a ∈ as, ∀ t u, R t → act a t = .go u → R u) (own : ∀ a ∈ as, ∀ t, R t → ∀ e ∈ actEvents t a, Q e) :
    ∃ es, (runActs as s).state.trace = s.trace ++ es ∧ ∀ e ∈ es, Q e := by
  induction as generalizing s with
  | nil => exact ⟨[], (List.append_nil _).symm, nofun⟩
  | cons a as ih =>
    rw [List.forall_mem_cons] at keep own
    have first : ∃ es, (act a s).state.trace = s.trace ++ es ∧ ∀ e ∈ es, Q e := by
      obtain h | h := act_appends a s
      · exact ⟨[], by rw [h, List.append_nil], nofun⟩
      · exact ⟨_, h, own.1 s hs⟩
    rw [runActs]
    cases h : act a s with
    | halt u => rwa [h] at first
    | go u =>
      rw [h] at first
      obtain ⟨es, hes, he⟩ := first
      obtain ⟨fs, hfs, hf⟩ := ih (keep.1 s u hs h) keep.2 own.2
      refine ⟨es ++ fs, by rw [← List.append_assoc]; exact hes ▸ hfs, fun e hm => ?_⟩
      exact (List.mem_append.1 hm).elim (he e) (hf e)

/-- What an instruction appends to the trace is what its list of actions does. -/
theorem exec_appends {Q : Event → Prop} {i : Instr} {s t : State} {es : List Event} (h : exec i s = .next t)
    (ht : t.trace = s.trace ++ es)
    (hrun : ∀ as, plan i s = .run as → ∃ es, (runActs as s).state.trace = s.trace ++ es ∧ ∀ e ∈ es, Q e) :
    ∀ e ∈ es, Q e := by
  have flow : ∃ fs, ((plan i s).flow s).state.trace = s.trace ++ fs ∧ ∀ e ∈ fs, Q e := by
    cases hp : plan i s with
    | fail c => exact ⟨[], (List.append_nil _).symm, nofun⟩
    | set u =>
      obtain ⟨-, -, -, -, hu, -⟩ := plan_set hp
      exact ⟨[], by rw [List.append_nil]; exact hu, nofun⟩
    | run as =>
      rw [Plan.flow, runOp_state]
      exact hrun as hp
  obtain ⟨fs, hfs, hf⟩ := flow
  obtain ⟨-, -, rfl⟩ := exec_next h
  rw [State.endOperation_trace, hfs, List.append_cancel_left_eq] at ht
  exact ht ▸ hf

theorem mem_xferBytes {b : Byte} {es : List Event} : b ∈ xferBytes es ↔ ∃ a, Event.xfer a b ∈ es := by
  induction es with
  | nil => simp [xferBytes]
  | cons e es ih => cases e <;> simp [xferBytes, ih, exists_or]

/-- The line with mask `m` is low in the byte of a transport write. -/
def Event.LeavesLow (m : Byte) : Event → Prop
  | .xfer _ b => hasBit b m = false
  | _ => True

/-- The line is low in the byte an action writes, before the backlight is merged into it. -/
def Act.leavesLow (m : Byte) : Act → Bool
  | .write b => !hasBit b m
  | _ => true

/-- The byte that goes out is the one the action writes, with the backlight. -/
theorem actEvents_leavesLow {s : State} {m : Byte} {a : Act} (ha : a.leavesLow m = true) (hbl : hasBit s.blv m = false) :
    ∀ e ∈ actEvents s a, e.LeavesLow m := by
  cases a with
  | write b => simpa [actEvents, Event.LeavesLow, Act.leavesLow, hasBit_or, hbl] using ha
  | _ => simp [actEvents, Event.LeavesLow]

section
variable {p : Params} {m : Byte}

theorem write_leavesLow {b : Byte} (hb : hasBit b m = false) : [Act.write b].all (Act.leavesLow m) = true := by
  simp [Act.leavesLow, hb]

theorem pulseActs_leavesLow (hen : hasBit p.expEn m = false) {b : Byte} (hb : hasBit b m = false) :
    (pulseActs p b).all (Act.leavesLow m) = true := by
  simp [pulseActs, Act.leavesLow, hasBit_or, hasBit_clear_other b hen, hb, hen]

theorem write4Acts_leavesLow (hen : hasBit p.expEn m = false) {n : Byte} (hn : hasBit n m = false) :
    (write4Acts p n).all (Act.leavesLow m) = true := by
  simp [write4Acts, pulseActs_leavesLow hen hn, Act.leavesLow, hn]

/-- A line of the low half shows in a byte transaction only by Enable or by the mode byte. -/
theorem sendActs_leavesLow (hm : m &&& 0xF0 = 0) (hen : hasBit p.expEn m = false) (v : Byte) {k : Byte}
    (hk : hasBit k m = false) : (sendActs p v k).all (Act.leavesLow m) = true := by
  have nibble : ∀ w : Byte, hasBit (highNibbleByte w k) m = false := by
    intro w
    have high : w &&& 0xF0 &&& 0x0F = 0 := by rw [BitVec.and_assoc]; exact BitVec.and_zero
    rw [highNibbleByte, hasBit_or, hasBit_high hm high, hk, Bool.or_false]
  have low : lowNibbleByte v k = highNibbleByte (v <<< 4) k := rfl
  rw [sendActs, low, List.all_append, write4Acts_leavesLow hen (nibble v), write4Acts_leavesLow hen (nibble (v <<< 4)),
    Bool.and_self]

theorem cmdActs_leavesLow (hm : m &&& 0xF0 = 0) (hen : hasBit p.expEn m = false) (v : Byte) :
    (cmdActs p v).all (Act.leavesLow m) = true :=
  sendActs_leavesLow hm hen v (hasBit_zero m)

theorem longCmdActs_leavesLow (hm : m &&& 0xF0 = 0) (hen : hasBit p.expEn m = false) (v : Byte) :
    (longCmdActs p v).all (Act.leavesLow m) = true := by
  simp [longCmdActs, cmdActs_leavesLow hm hen, Act.leavesLow]

theorem glyphActs_leavesLow (hm : m &&& 0xF0 = 0) (hen : hasBit p.expEn m = false) (hrs : hasBit p.expRs m = false)
    (loc : Byte) (g : List Byte) : (glyphActs p loc g).all (Act.leavesLow m) = true := by
  rw [glyphActs, List.all_append, cmdActs_leavesLow hm hen, List.all_flatMap, List.all_eq_true.2, Bool.and_self]
  exact fun v _ => sendActs_leavesLow hm hen v hrs

/-- `BEGIN` writes the backlight's byte at its first contact (R148), else nibbles and commands. -/
theorem beginActs_leavesLow {s : State} (hm : m &&& 0xF0 = 0) (hen : hasBit s.params.expEn m = false)
    (hbl : hasBit s.blv m = false) : (beginActs s).all (Act.leavesLow m) = true := by
  have wide : hasBit wideNibbleByte m = false := hasBit_high hm rfl
  have narrow : hasBit narrowNibbleByte m = false := hasBit_high hm rfl
  simp [beginActs, beginOpen, beginSettle, beginForce, beginFunction, beginFinish, Act.leavesLow, hbl,
    write4Acts_leavesLow hen wide, write4Acts_leavesLow hen narrow, cmdActs_leavesLow hm hen,
    longCmdActs_leavesLow hm hen]

end

/-- The backlight's byte shows on the backlight's line only. -/
theorem backlight_low {s : State} {m : Byte} (h : hasBit s.params.expBl m = false) : hasBit s.backlight m = false := by
  rcases s.backlight_cases with e | e <;> rw [e]
  · exact hasBit_zero m
  · exact h

theorem Plan.ready_run {s : State} {p : Plan} {as : List Act} (h : p.ready s = .run as) : p = .run as := by
  unfold Plan.ready at h
  split at h
  · exact h
  · cases h

/-- No list of an instruction's sets R/W, but for test access that carries it. -/
theorem plan_run_leavesRwLow {i : Instr} {s : State} {as : List Act} (hw : s.params.wf = true)
    (hp : plan i s = .run as) (hi : drivesLine s.params s.params.expRw i = false) :
    as.all (Act.leavesLow s.params.expRw) = true := by
  have L := Params.lines hw
  have command : ∀ v, (cmdActs s.params v).all (Act.leavesLow s.params.expRw) = true :=
    cmdActs_leavesLow L.rw_high L.en_rw
  cases i with
  | cfgAddr | cfgGeom | cfgFont | cfgPins | cfgBl =>
    simp only [plan, Plan.config] at hp
    (repeat' split at hp) <;> cases hp
  | beginInit =>
    simp only [plan] at hp
    split at hp <;> cases hp
    exact beginActs_leavesLow L.rw_high L.en_rw (backlight_low L.bl_rw)
  | expw b => cases Plan.ready_run hp; exact write_leavesLow hi
  | xferByte d l e w r => cases Plan.ready_run hp; exact write_leavesLow hi
  | pulse b => cases Plan.ready_run hp; exact pulseActs_leavesLow L.en_rw hi
  | w4 n => cases Plan.ready_run hp; exact write4Acts_leavesLow L.en_rw hi
  | hdFuncSetNibble8 | hdFuncSetNibble4 =>
    cases Plan.ready_run hp
    exact write4Acts_leavesLow L.en_rw (hasBit_high L.rw_high rfl)
  | send v m =>
    have hp := Plan.ready_run hp
    split at hp <;> cases hp
    rename_i hm
    refine sendActs_leavesLow L.rw_high L.en_rw v ?_
    rcases hm with rfl | rfl
    · exact hasBit_zero _
    · exact L.rs_rw
  | putc v | hdData v => cases Plan.ready_run hp; exact sendActs_leavesLow L.rw_high L.en_rw v L.rs_rw
  | setCursor col row =>
    have hp := Plan.ready_run hp
    split at hp <;> cases hp
    exact command _
  | createChar loc g => cases Plan.ready_run hp; exact glyphActs_leavesLow L.rw_high L.en_rw L.rs_rw loc g
  | clear | home => cases Plan.ready_run hp; exact longCmdActs_leavesLow L.rw_high L.en_rw _
  | setBl on => cases Plan.ready_run hp; exact write_leavesLow (hasBit_zero _)
  | dctl f v =>
    cases Plan.ready_run hp
    rw [List.all_cons, command]
    rfl
  | _ => cases Plan.ready_run hp; exact command _

theorem settle_params (s : State) (a : Act) : (settle s a).params = s.params := by cases a <;> rfl

/-- Settles O39: what the actions write leaves R/W low, and so does the backlight merged into it. -/
theorem readWriteLineStaysLow : Obligations.ReadWriteLineStaysLow := by
  intro i s t es h ht hi b hb
  obtain ⟨hw, -, -⟩ := exec_next h
  obtain ⟨x, hb⟩ := mem_xferBytes.1 hb
  refine exec_appends (Q := Event.LeavesLow s.params.expRw) h ht (fun as hp => ?_) (.xfer x b) hb
  refine runActs_appends (R := fun u => u.params = s.params) rfl (fun a _ u v hu e => ?_) fun a ha u hu => ?_
  · obtain ⟨fs, r, n, pan, -, rfl⟩ := act_go e
    exact (settle_params u a).trans hu
  · refine actEvents_leavesLow (List.all_eq_true.1 (plan_run_leavesRwLow hw hp hi) a ha) ?_
    rw [← hu]
    exact backlight_low (Params.lines (hu ▸ hw)).bl_rw

end Sys2Proof.Machine

namespace Sys2Proof.Machine

/-! ## O55: commands and the controller's memories -/

/-- No instruction byte stores anything in CGRAM, and none but clear touches DDRAM. -/
theorem Panel.obey_memories (k : Nat) (i : HdInstr) (pan : Panel) :
    (pan.obey k i).cgram = pan.cgram ∧ (i ≠ .clear → (pan.obey k i).ddram = pan.ddram) := by
  cases i with
  | clear => exact ⟨rfl, fun h => absurd rfl h⟩
  | _ => exact ⟨rfl, fun _ => rfl⟩

/-- The memories after the byte transaction of a command. -/
theorem State.Linked.command_memories {s : State} (hl : s.Linked) (hw : s.params.wf = true) (ha : s.Arrives 6) {v : Byte}
    {i : HdInstr} (hv : HdInstr.decode v = some i) :
    (s.emitted (s.byteEvents v 0)).panel.cgram = s.panel.cgram ∧
      (i ≠ .clear → (s.emitted (s.byteEvents v 0)).panel.ddram = s.panel.ddram) := by
  rw [State.emitted_byte_panel hw v (.inl rfl) ha hl, modeZero hw, Panel.execute_command _ hv]
  exact Panel.obey_memories (s.sent + 5) i { s.panel with lcd := { s.panel.lcd with high := none }, busy := settleUs }

/-- `DCTL` writes `DISPCTL` and sends the display-control command of the new value (R181). -/
theorem exec_dctl {f : DctlField} {val : Bool} {s : State} (hs : s.Ready) (hu : s.Undisturbed 6) :
    exec (.dctl f val) s = .next (State.rest
      { s.emitted (s.byteEvents (ctlCommand (dctlApply s.dispCtl f val)) 0) with
        dispCtl := dctlApply s.dispCtl f val }) := by
  have run := runActs_mixed (.setCtl (dctlApply s.dispCtl f val)
    :: cmdActs s.params (ctlCommand (dctlApply s.dispCtl f val))) rfl hu
  refine exec_of_flow (f := .go _) hs.1 hs.ne_faulted ?_ hu.1
  rw [plan, Plan.ready, if_pos hs.2, Plan.flow, runOp, run]
  rfl

/-- `CLEAR` and `HOME` send their command and wait (R170, R171). -/
theorem exec_longCmd {i : Instr} {v : Byte} {s : State} (hs : s.Ready) (hu : s.Undisturbed 6)
    (hp : plan i s = Plan.ready s (.run (longCmdActs s.params v))) :
    exec i s = .next ((s.emitted (s.byteEvents v 0)).emitted [.wait 2000]).rest := by
  rw [State.emitted_append]
  exact exec_events (longCmdActs s.params v) hs hp rfl hu

/-- A row below 4 has a base (R53). -/
theorem rowBase_of_le {r : Byte} (h : r ≤ 3) : ∃ base, rowBase r = some base := by
  have rows : ∀ r : Byte, r ≤ 3 → (rowBase r).isSome = true := by decide
  exact Option.isSome_iff_exists.1 (rows r h)

/-- `SETCURSOR` to a row with a base sends the command of its address (R174). -/
theorem exec_setCursor {col row : Byte} {base : Nat} {s : State} (hs : s.Ready) (hu : s.Undisturbed 6)
    (hb : rowBase (effectiveRow s.rows row) = some base) :
    exec (.setCursor col row) s = .next (s.emitted (s.byteEvents (ddramCommand base col) 0)).rest :=
  exec_events (cmdActs s.params (ddramCommand base col)) hs (by simp only [plan, hb]) rfl hu

/-- The display-control command, whatever the cached byte holds, is an instruction byte and not clear's. -/
theorem decode_ctlCommand (ctl : Byte) : ∃ i, HdInstr.decode (ctlCommand ctl) = some i ∧ i ≠ .clear := by
  have all : ∀ c : Byte, (HdInstr.decode (ctlCommand c)).any (· ≠ .clear) = true := by decide
  simpa [Option.any_eq_true] using all ctl

/-- Settles O55: `DCTL`, `HOME` and `SETCURSOR` send an instruction byte that is not clear's, `CLEAR` that one. -/
theorem commandsStoreNothing : Obligations.CommandsStoreNothing := by
  intro s hs hu ha hl
  refine ⟨fun f val => ?_, ?_, fun col row hrow => ?_, ?_⟩
  · obtain ⟨i, hv, hi⟩ := decode_ctlCommand (dctlApply s.dispCtl f val)
    obtain ⟨cgram, ddram⟩ := hl.command_memories hs.1 ha hv
    exact ⟨_, exec_dctl hs hu, fun a => ⟨congrArg (Memory.read · a) (ddram hi), congrArg (Memory.read · a) cgram⟩⟩
  · obtain ⟨cgram, ddram⟩ := hl.command_memories hs.1 ha (HdInstr.decode_byte (.home false))
    exact ⟨_, exec_longCmd hs hu rfl, fun a =>
      ⟨congrArg (Memory.read · a) (ddram nofun), congrArg (Memory.read · a) cgram⟩⟩
  · obtain ⟨base, hb⟩ := rowBase_of_le hrow
    obtain ⟨cgram, ddram⟩ := hl.command_memories hs.1 ha (decode_ddramCommand base col)
    exact ⟨_, exec_setCursor hs hu hb, fun a =>
      ⟨congrArg (Memory.read · a) (ddram nofun), congrArg (Memory.read · a) cgram⟩⟩
  · obtain ⟨cgram, -⟩ := hl.command_memories hs.1 ha (HdInstr.decode_byte .clear)
    exact ⟨_, exec_longCmd hs hu rfl, fun a => congrArg (Memory.read · a) cgram⟩

end Sys2Proof.Machine

namespace Sys2Proof

/-! ## O53: what breaks the nibble pairing

### The width (R83) -/


/-- Is the instruction a function set into 8-bit width? -/
def HdInstr.widens : HdInstr → Bool
  | .funcSet l _ _ _ => l
  | _ => false

theorem HdInstr.widens_eq (i : HdInstr) : i.widens = decide (i.byte &&& 0xF0 = 0x30) := by
  cases i with
  | clear => decide
  | home x => revert x; decide
  | entryMode i s => revert i s; decide
  | dispCtl d c b => revert d c b; decide
  | shift s r x => revert s r x; decide
  | funcSet l n f x => revert l n f x; decide
  | setCgram a => revert a; decide
  | setDdram a => revert a; decide

end Sys2Proof

namespace Sys2Proof.Machine

/-- The controller does not await the high nibble of a whole pair: it holds a nibble, or the pairing is broken. -/
def Panel.Parted (pan : Panel) : Prop := pan.lcd.high ≠ none ∨ pan.pairing = .broken

section
variable {p : Params} {r : XferResult} {k : Nat} {a : BusAddr} {b : Byte} {pan : Panel}

/-- The end of an operation takes parted receivers for broken ones (R243). -/
theorem Panel.Parted.rest (h : pan.Parted) : (pan.rest p).pairing = .broken := by
  refine Panel.rest_broken fun e => ?_
  obtain ⟨whole, awaits⟩ := Panel.rest_whole.1 e
  obtain h | h := h
  · simp [Panel.awaitsPair, h] at awaits
  · simp [whole] at h

/-- So it does where Enable is high. -/
theorem Panel.rest_of_enabled (h : hasBit pan.out p.expEn = true) : (pan.rest p).pairing = .broken :=
  Panel.rest_broken fun e => by simpa [Panel.awaitsPair, h] using (Panel.rest_whole.1 e).2

/-- A transport write that does not let Enable fall tells the controller nothing, whether it arrives or not. -/
theorem Panel.receive_no_fall (h : hasBit pan.out p.expEn = true → hasBit b p.expEn = true) :
    (pan.receive p r k a b).lcd = pan.lcd := by
  unfold Panel.receive
  rw [Panel.latch_no_fall k h]
  split
  · split <;> rfl
  · rfl

theorem Panel.Parted.receive (hp : pan.Parted) (h : hasBit pan.out p.expEn = true → hasBit b p.expEn = true) :
    (pan.receive p r k a b).Parted := by
  obtain hp | hp := hp
  · exact .inl (by rwa [Panel.receive_no_fall h])
  · exact .inr ((Panel.receive_pairing p r k a b pan).elim (·.trans hp) id)

/-- A falling Enable, clean or not, parts receivers that await a high nibble. -/
theorem Panel.latch_fall_parts (hn : Narrow pan.lcd) (hp : pan.pairing ≠ .reviving)
    (he : hasBit pan.out p.expEn = true) (hb : hasBit b p.expEn = false) : (pan.latch p k b).Parted := by
  unfold Panel.latch
  simp only [he, hb, Bool.not_false, Bool.and_self, if_true]
  split
  · rw [Panel.strobe_high _ _ _ hn]
    exact .inl (Option.some_ne_none _)
  · exact .inr (if_neg hp)

variable {draw : Nat → XferResult} {bl : Byte}

/-- One pulse of Enable, its bytes any other than that, parts receivers that await a high nibble. -/
theorem Panel.sees_pulse_parts {x y : Byte} (hn : Narrow pan.lcd) (hp : pan.pairing ≠ .reviving) (ha : a = pan.busAddr)
    (hd : ∀ j, j < 2 → draw (k + j) ≠ .fail false) (hx : hasBit x p.expEn = true) (hy : hasBit y p.expEn = false) :
    (Panel.sees p draw k [.xfer a x, .wait 1, .xfer a y, .wait 50] pan).Parted ∧
      (Panel.sees p draw k [.xfer a x, .wait 1, .xfer a y, .wait 50] pan).out = y := by
  simp only [Panel.sees]
  rw [Panel.receive_arrives (r := draw k) k x ha (hd 0 (by decide)), Panel.latch_no_fall k (fun _ => hx),
    Panel.receive_arrives (r := draw (k + 1)) (k + 1) y (by exact ha) (hd 1 (by decide))]
  exact ⟨Panel.latch_fall_parts (pan := Panel.elapse 1 { pan with out := x, held := _ }) hn hp hx hy, rfl⟩

/-- So does a nibble transaction of any byte. -/
theorem Panel.sees_nibble_parts {n : Byte} (hn : Narrow pan.lcd) (hp : pan.pairing ≠ .reviving) (ha : a = pan.busAddr)
    (hd : ∀ j, j < 3 → draw (k + j) ≠ .fail false) (he : hasBit pan.out p.expEn = false)
    (hx : hasBit (n ||| p.expEn ||| bl) p.expEn = true) (hy : hasBit ((n &&& ~~~p.expEn) ||| bl) p.expEn = false) :
    (Panel.sees p draw k (nibbleEvents a p bl n) pan).Parted ∧
      (Panel.sees p draw k (nibbleEvents a p bl n) pan).out = (n &&& ~~~p.expEn) ||| bl := by
  rw [nibbleEvents, Panel.sees, Panel.receive_low (r := draw k) k _ ha (hd 0 (by decide)) he]
  exact Panel.sees_pulse_parts (by exact hn) (by exact hp) (by exact ha)
    (fun j hj => by rw [Nat.add_assoc, Nat.add_comm 1]; exact hd (j + 1) (by omega)) hx hy

/-- Until its Enable falls a nibble transaction leaves parted receivers parted. -/
theorem Panel.Parted.sees_raise (hp : pan.Parted) (he : hasBit pan.out p.expEn = false) {n : Byte}
    (hx : hasBit (n ||| p.expEn ||| bl) p.expEn = true) {j : Nat} (hj : j ≤ 3) :
    (Panel.sees p draw k ((nibbleEvents a p bl n).take j) pan).Parted := by
  have first : (pan.receive p (draw k) k a (n ||| bl)).Parted := hp.receive (by simp [he])
  have second := first.receive (r := draw (k + 1)) (k := k + 1) (a := a) (fun _ => hx)
  interval_cases j
  · exact hp
  · exact first
  · exact second
  · exact second

end

/-! ### A reset inside an operation (R232) -/

/-- `s`, the host's reset due after `n` more events. -/
def State.due (s : State) (n : Nat) : State := { s with resetIn := some n }

/-- An event of an undisturbed operation before the one the reset is due at. A wait right before the reset may not be
credited to the receivers. -/
theorem act_due {a : Act} (ha : isEvent a = true) {s : State} (hu : s.Undisturbed (writeCount [a])) (n : Nat) :
    ∃ q t, act a (s.due (n + 1)) = .go (State.due { s.emitted (actEvents s a) with panel := q } n) ∧
      (s.emitted (actEvents s a)).panel = q.elapse t ∧ (n ≠ 0 → q = (s.emitted (actEvents s a)).panel) := by
  cases a with
  | openBus => exact ⟨s.panel, 0, rfl, rfl, fun _ => rfl⟩
  | write b =>
    refine ⟨_, 0, ?_, rfl, fun _ => rfl⟩
    obtain ⟨h, -⟩ | ⟨-, hp, hf, -⟩ | ⟨-, -, h⟩ := expWrite_cases b (s.due (n + 1))
    · cases h
    · have ok : drawFailed (s.drawAt s.sent) = false := hu.2 hp 0 Nat.one_pos
      exact absurd (hf.symm.trans ok) nofun
    · exact h
  | wait t =>
    cases n with
    | zero => exact ⟨s.panel, t, rfl, rfl, fun h => absurd rfl h⟩
    | succ n => exact ⟨_, 0, rfl, rfl, fun _ => rfl⟩
  | _ => cases ha

/-- An operation that the reset is due in stops before its next event. -/
theorem runActs_due_now {as : List Act} (he : as.all isEvent = true) (hne : as ≠ []) (s : State) :
    runActs as (s.due 0) = .halt s.hardReset := by
  obtain ⟨a, as, rfl⟩ := List.exists_cons_of_ne_nil hne
  rw [List.all_cons, Bool.and_eq_true] at he
  obtain ⟨-, e⟩ | ⟨-, -, -, h, -⟩ := act_event_cases he.1 (s.due 0)
  · rw [runActs, e]
    rfl
  · exact absurd rfl h

/-- An action that is an event makes one event, and one transport write where it is a write. -/
theorem actEvents_of_isEvent {a : Act} (ha : isEvent a = true) (s : State) :
    ∃ e, actEvents s a = [e] ∧ (xferBytes [e]).length = writeCount [a] := by
  cases a with
  | openBus | write | wait => exact ⟨_, rfl, rfl⟩
  | _ => cases ha

/-- A list of events stops after as many of them as the host lets pass, the receivers as those events leave them but for
a last wait that is not credited. -/
theorem runActs_due {as : List Act} (he : as.all isEvent = true) {s : State} (hu : s.Undisturbed (writeCount as))
    {n : Nat} (hn : n < as.length) :
    ∃ q t, runActs as (s.due n)
        = .halt (State.hardReset { s.emitted ((as.flatMap (actEvents s)).take n) with panel := q }) ∧
      (s.emitted ((as.flatMap (actEvents s)).take n)).panel = q.elapse t := by
  induction as generalizing s n with
  | nil => exact absurd hn (Nat.not_lt_zero n)
  | cons a as ih =>
    cases n with
    | zero => exact ⟨s.panel, 0, by rw [runActs_due_now he nofun, List.take_zero, State.emitted_nil], rfl⟩
    | succ n =>
      rw [List.all_cons, Bool.and_eq_true] at he
      obtain ⟨ha, he⟩ := he
      have count : writeCount (a :: as) = writeCount [a] + writeCount as := writeCount_append [a] as
      obtain ⟨e, events, writes⟩ := actEvents_of_isEvent ha s
      obtain ⟨q, t, go, hq, credited⟩ := act_due ha (hu.mono (by omega)) n
      rw [events] at go hq credited
      rw [runActs, go, List.flatMap_cons, events, List.singleton_append, List.take_succ_cons]
      cases n with
      | zero =>
        have more : as ≠ [] := by rintro rfl; simp at hn
        exact ⟨q, t, runActs_due_now he more _, hq⟩
      | succ n =>
        have same : actEvents (s.emitted [e]) = actEvents s := by funext x; cases x <;> rfl
        obtain ⟨q', t', stop, hq'⟩ := ih he (State.Undisturbed.after [e] (by rwa [writes, ← count]))
          (Nat.lt_of_succ_lt_succ hn)
        rw [same, State.emitted_append] at stop hq'
        rw [credited (Nat.succ_ne_zero n)]
        exact ⟨q', t', stop, hq'⟩

/-- Of all bytes a controller in 4-bit width may be sent only the command of that function set takes it out. -/
theorem Panel.execute_wide (k : Nat) (rs : Bool) (b : Byte) {pan : Panel} (hn : pan.lcd.wide = false) :
    (pan.execute k rs b).lcd.wide = (!rs && decide (b &&& 0xF0 = 0x30)) := by
  cases rs with
  | true =>
    obtain ⟨a, m₁, m₂, h⟩ :=
      Panel.dataWrite_fields k b { pan with lcd := { pan.lcd with high := none }, busy := settleUs }
    rw [Panel.execute_data, h]
    exact hn
  | false =>
    cases h : HdInstr.decode b with
    | none =>
      rw [HdInstr.decode_eq_none.1 h]
      exact hn
    | some i =>
      rw [Panel.execute_command k h, ← HdInstr.byte_of_decode h, ← HdInstr.widens_eq]
      cases i with
      | funcSet => rfl
      | _ => exact hn

/-- Where nothing else parts the receivers, the width decides. -/
theorem Panel.rest_pairing {p : Params} {pan : Panel} (hq : pan.pairing = .whole) (hh : pan.lcd.high = none)
    (he : hasBit pan.out p.expEn = false) : (pan.rest p).pairing = if pan.lcd.wide then .broken else .whole := by
  cases hw : pan.lcd.wide <;> simp [Panel.rest, Panel.awaitsPair, hq, hh, he, hw]

/-! ### The operations -/

section
variable {s : State} {v m : Byte}

theorem hasBit_enable_set (hw : s.params.wf = true) (b : Byte) :
    hasBit (b ||| s.params.expEn ||| s.backlight) s.params.expEn = true := by
  simp [hasBit_or, (Params.lines hw).en_en]

theorem hasBit_enable_clear (hw : s.params.wf = true) (b : Byte) :
    hasBit ((b &&& ~~~s.params.expEn) ||| s.backlight) s.params.expEn = false := by
  rw [hasBit_or, hasBit_clear_same, backlight_low (Params.lines hw).bl_en, Bool.or_false]

/-- `W4`'s nibble transaction parts linked receivers, whatever its byte, and leaves Enable low. -/
theorem State.Linked.nibble_parts (hl : s.Linked) (hw : s.params.wf = true) (ha : s.Arrives 3) (b : Byte) :
    (s.emitted (s.nibbleEvents b)).panel.Parted ∧
      hasBit (s.emitted (s.nibbleEvents b)).panel.out s.params.expEn = false := by
  obtain ⟨hwide, hhigh, -, hlow, hwhole⟩ := hl
  obtain ⟨parted, out⟩ := Panel.sees_nibble_parts (n := b) ⟨hwide, hhigh⟩ (by simp [hwhole]) ha.1 ha.2 hlow
    (hasBit_enable_set hw b) (hasBit_enable_clear hw b)
  exact ⟨parted, (congrArg (hasBit · s.params.expEn) out).trans (hasBit_enable_clear hw b)⟩

theorem exec_w4_parts (hs : s.Ready) (hu : s.Undisturbed 3) (ha : s.Arrives 3) (hl : s.Linked) (b : Byte) :
    ∃ t, exec (.w4 b) s = .next t ∧ t.panel.pairing = .broken :=
  ⟨_, exec_nibble hs hu rfl, (hl.nibble_parts hs.1 ha b).1.rest⟩

theorem exec_pulse_parts (hs : s.Ready) (hu : s.Undisturbed 2) (ha : s.Arrives 2) (hl : s.Linked) (b : Byte) :
    ∃ t, exec (.pulse b) s = .next t ∧ t.panel.pairing = .broken := by
  obtain ⟨hwide, hhigh, -, -, hwhole⟩ := hl
  obtain ⟨parted, -⟩ := Panel.sees_pulse_parts ⟨hwide, hhigh⟩ (by simp [hwhole]) ha.1 ha.2
    (hasBit_enable_set hs.1 b) (hasBit_enable_clear hs.1 b)
  exact ⟨_, exec_events (pulseActs s.params b) hs rfl rfl hu, parted.rest⟩

/-- `EXPW` with Enable set leaves Enable high. -/
theorem exec_expw_enable (hs : s.Ready) (hu : s.Undisturbed 1) (ha : s.Arrives 1) (b : Byte) :
    ∃ t, exec (.expw (b ||| s.params.expEn)) s = .next t ∧ t.panel.pairing = .broken := by
  obtain ⟨t, he, -, hpanel⟩ := exec_expw (b := b ||| s.params.expEn) hs hu
  rw [Panel.receive_arrives (r := s.drawAt s.sent) _ _ ha.1 (ha.2 0 Nat.one_pos)] at hpanel
  exact ⟨t, he, hpanel ▸ Panel.rest_of_enabled (hasBit_enable_set hs.1 b)⟩

theorem plan_send (hm : m = 0 ∨ m = s.params.expRs) (n : Option Nat) :
    plan (.send v m) { s with resetIn := n } = Plan.ready s (.run (sendActs s.params v m)) :=
  congrArg (Plan.ready s) (if_pos hm)

/-- A `SEND` leaves the pairing whole, but for the command of a function set into 8-bit width. -/
theorem exec_send_pairing (hs : s.Ready) (hu : s.Undisturbed 6) (ha : s.Arrives 6) (hl : s.Linked)
    (hm : m = 0 ∨ m = s.params.expRs) :
    ∃ t, exec (.send v m) s = .next t ∧
      t.panel.pairing = if m = 0 ∧ v &&& 0xF0 = 0x30 then .broken else .whole := by
  have panel := State.emitted_byte_panel hs.1 v hm ha hl
  obtain ⟨hwide, -, -, -, hwhole⟩ := hl
  have mode : NibbleByte s.params (lowNibbleByte v m) := by rw [NibbleByte, (nibbleBytes_low hs.1 v hm).2]; exact hm
  have low : hasBit (s.emitted (s.byteEvents v m)).panel.out s.params.expEn = false := by
    rw [panel]
    exact (nibbleLines hs.1 mode s.backlight_cases).low_en
  have high : (s.emitted (s.byteEvents v m)).panel.lcd.high = none := by rw [panel]; exact Panel.execute_awaits ..
  have whole : (s.emitted (s.byteEvents v m)).panel.pairing = .whole := by
    rw [panel]
    exact (Panel.execute_pairing ..).trans hwhole
  have rs : (!decide (m = s.params.expRs)) = decide (m = 0) := by
    rcases hm with rfl | rfl
    · rw [modeZero hs.1]; rfl
    · rw [decide_eq_true rfl, decide_eq_false (Params.lines hs.1).rs_ne]; rfl
  have wide : (s.emitted (s.byteEvents v m)).panel.lcd.wide = decide (m = 0 ∧ v &&& 0xF0 = 0x30) := by
    rw [panel, Bool.decide_and, ← rs]
    exact Panel.execute_wide _ _ _ hwide
  refine ⟨_, exec_byte hs hu (plan_send hm s.resetIn), ?_⟩
  rw [State.rest_panel, State.emitted_params, Panel.rest_pairing whole high low, wide]
  simp only [decide_eq_true_eq]

/-- The events of a `SEND` up to anywhere between its two strobes part linked receivers. -/
theorem State.Linked.half_byte_parts (hl : s.Linked) (hw : s.params.wf = true) (ha : s.Arrives 3) {n : Nat}
    (h₁ : 4 ≤ n) (h₂ : n ≤ 8) : (s.emitted ((s.byteEvents v m).take n)).panel.Parted := by
  obtain ⟨parted, low⟩ := hl.nibble_parts hw ha (highNibbleByte v m)
  obtain rfl | ⟨j, hj, rfl⟩ : n = 4 ∨ ∃ j, j ≤ 3 ∧ n = 5 + j := by
    rcases Nat.eq_or_lt_of_le h₁ with h | h
    · exact .inl h.symm
    · exact .inr ⟨n - 5, by omega, by omega⟩
  · exact parted
  · have split : (s.byteEvents v m).take (5 + j)
        = s.nibbleEvents (highNibbleByte v m) ++ (s.nibbleEvents (lowNibbleByte v m)).take j :=
      List.take_length_add_append (l₁ := s.nibbleEvents (highNibbleByte v m)) j
    rw [split, ← State.emitted_append]
    exact parted.sees_raise low (hasBit_enable_set hw _) hj

/-- A reset between the two strobes of a `SEND` breaks the pairing. -/
theorem exec_send_cut (hs : s.Ready) (hu : s.Undisturbed 6) (ha : s.Arrives 6) (hl : s.Linked)
    (hm : m = 0 ∨ m = s.params.expRs) {n : Nat} (h₁ : 4 ≤ n) (h₂ : n ≤ 8) :
    ∃ t, exec (.send v m) { s with resetIn := some n } = .next t ∧ t.panel.pairing = .broken := by
  obtain ⟨q, t, stop, hq⟩ := runActs_due (sendActs_events s.params v m) hu
    (n := n) (h₂.trans_lt (by decide : 8 < 10))
  rw [sendActs_flatMap] at stop hq
  have parted : q.Parted := (congrArg Panel.Parted hq).mp (hl.half_byte_parts hs.1 (ha.mono (by decide)) h₁ h₂)
  have flow : (plan (.send v m) (s.due n)).flow (s.due n) = (runActs (sendActs s.params v m) (s.due n)).rest := by
    rw [State.due, plan_send hm, Plan.ready, if_pos hs.2]
    rfl
  rw [stop] at flow
  exact ⟨_, exec_of_flow hs.1 hs.ne_faulted flow rfl, parted.rest⟩

/-- The `W4` of a nibble byte: the controller holds the nibble as a high one (R121). -/
theorem exec_w4_latches (hs : s.Ready) (hu : s.Undisturbed 3) (ha : s.Arrives 3) (hl : s.Linked) {n : Byte}
    (hn : NibbleByte s.params n) : ∃ t, exec (.w4 n) s = .next t ∧ t.panel.lcd = s.nibbleLatched n := by
  obtain ⟨hwide, hhigh, hbusy, hlow, -⟩ := hl
  refine ⟨_, exec_nibble hs hu rfl, ?_⟩
  have sees := Panel.sees_nibble hs.1 s.drawAt s.sent s.addr hn s.backlight_cases ha.1 ha.2 hbusy hlow
  rw [Panel.strobe_high _ _ _ ⟨hwide, hhigh⟩] at sees
  exact congrArg Panel.lcd sees

end

/-! ### What makes the pairing whole -/

/-- Only `BEGIN`'s list ends the recovery of the pairing. -/
theorem repair_not_mem_plan {i : Instr} {s : State} {as : List Act} (hi : i ≠ .beginInit) (hp : plan i s = .run as) :
    Act.repair ∉ as := by
  have noEvent : ∀ {as : List Act}, as.all isEvent = true → Act.repair ∉ as :=
    fun he hm => Bool.false_ne_true (List.all_eq_true.1 he _ hm)
  obtain ⟨e, -⟩ | ⟨-, he | ⟨on, -, rfl⟩ | ⟨f, v, -, rfl⟩⟩ := plan_run hp
  · exact absurd e hi
  · exact noEvent he
  · simp
  · rw [List.mem_cons, not_or]
    exact ⟨nofun, noEvent (sendActs_events _ _ _)⟩

/-- No other instruction makes a pairing whole that is not. -/
theorem exec_pairing {i : Instr} {s t : State} (hi : i ≠ .beginInit) (h : exec i s = .next t)
    (hp : s.panel.pairing ≠ .whole) : t.panel.pairing ≠ .whole := by
  obtain ⟨-, -, rfl⟩ := exec_next h
  rw [State.endOperation_panel]
  cases hplan : plan i s with
  | fail c => exact hp
  | set u =>
    obtain ⟨-, -, -, -, -, -, hpanel, -⟩ := plan_set hplan
    rw [Plan.flow, Flow.state, hpanel]
    exact hp
  | run as => exact runOp_pairing as (repair_not_mem_plan hi hplan) hp

/-- What a step does to the receivers: nothing, a pause, or what the instruction that was asked for does. -/
theorem step_panel {s t : State} (h : step s = .next t) :
    t.panel = s.panel ∨ (∃ us, t.panel = s.panel.elapse us) ∨
      ∃ r cut ms i, s.port = .request r cut :: ms ∧ decode s.params r = .ok i ∧ exec i (s.taken ms cut) = .next t := by
  unfold step at h
  cases hport : s.port with
  | nil =>
    simp only [State.nextMove, hport, Host.Outcome.next.injEq] at h
    exact .inl (h ▸ rfl)
  | cons move ms =>
    simp only [State.nextMove, hport] at h
    cases move with
    | reset => exact .inl (Host.Outcome.next.inj h ▸ rfl)
    | pause us => exact .inr (.inl ⟨us, Host.Outcome.next.inj h ▸ rfl⟩)
    | request r cut =>
      simp only at h
      split at h
      · cases h
      · rename_i i hdecode
        split at h
        · exact .inr (.inr ⟨r, cut, ms, i, rfl, hdecode, h⟩)
        · cases h

/-- Settles O53: what parts a pair is a strobe too many, Enable left high, or a reset between two strobes; and of all
lists of actions only `BEGIN`'s repairs. -/
theorem pairingBrokenUntilBegin : Obligations.PairingBrokenUntilBegin := by
  refine ⟨fun b v m s hs hu ha hl hm => ?_, fun n s hs hu ha hl hn => ?_, fun s t hp h hreq => ?_⟩
  · have quiet : ({ s with resetIn := none } : State) = s := by rw [← hu.1]
    simp only [quiet]
    have u {k : Nat} (hk : k ≤ 6) := hu.mono hk
    have a {k : Nat} (hk : k ≤ 6) := ha.mono hk
    exact ⟨exec_send_pairing hs hu ha hl hm, exec_w4_parts hs (u (by decide)) (a (by decide)) hl b,
      exec_pulse_parts hs (u (by decide)) (a (by decide)) hl b,
      exec_expw_enable hs (u (by decide)) (a (by decide)) b, fun n h₁ h₂ => exec_send_cut hs hu ha hl hm h₁ h₂⟩
  · obtain ⟨t, he, hlcd⟩ := exec_w4_latches hs hu ha hl hn
    refine ⟨t, he, fun linked => ?_, hlcd⟩
    exact Option.some_ne_none _ ((congrArg LcdRegs.high hlcd).symm.trans linked.2.1)
  · obtain e | ⟨us, e⟩ | ⟨r, cut, ms, i, hport, hdecode, he⟩ := step_panel h
    · rwa [e]
    · rwa [e]
    · have notBegin : i ≠ .beginInit := by rintro rfl; exact hreq r cut ms hport hdecode
      exact exec_pairing (s := s.taken ms cut) notBegin he hp

end Sys2Proof.Machine

namespace Sys2Proof

/-! ## O59: pseudo-operations of the assembly text -/

/-- Inside a quoted text a character that is no quote is taken; the closing quote, at the end of the line, ends it. -/
theorem lexLine_text (cs : List Char) (h : ∀ c ∈ cs, c ≠ '"') (acc : List Char) :
    lexLine (cs ++ ['"']) true acc = .ok [.text (acc.reverse ++ cs)] := by
  induction cs generalizing acc with
  | nil => simp [lexLine, Token.flush]
  | cons c cs ih =>
    rw [List.forall_mem_cons] at h
    rw [List.cons_append, lexLine, if_neg h.1, ih h.2]
    simp

/-- The characters that stand for more than themselves outside a quoted text. -/
def lexMarks : List Char := [';', '"', ',', '[', ']', ' ', '\t', '\r']

/-- A word, and the blank that ends it. -/
theorem lexLine_word (w : List Char) (hw : ∀ c ∈ w, c ∉ lexMarks) (cs acc : List Char) :
    lexLine (w ++ ' ' :: cs) false acc = (lexLine cs false []).map (Token.flush (w.reverse ++ acc)) := by
  induction w generalizing acc with
  | nil => simp only [List.nil_append, lexLine]; cases lexLine cs false [] <;> rfl
  | cons c w ih =>
    rw [List.forall_mem_cons] at hw
    obtain ⟨hc, hw⟩ := hw
    simp only [lexMarks, List.mem_cons, List.not_mem_nil, or_false, not_or] at hc
    simp [lexLine, hc, ih hw]

/-- Characters that are bytes become one `PUTC` each. -/
theorem expandPuts_bytes (cs : List Char) (h : ∀ c ∈ cs, c.toNat < 256) :
    expandPuts cs = .ok (cs.map fun c => .request .putc [.num c.toNat]) := by
  induction cs with
  | nil => rfl
  | cons c cs ih =>
    rw [List.forall_mem_cons] at h
    rw [expandPuts, if_pos h.1, ih h.2, List.map_cons]

/-- A line that is a quoted text. -/
theorem lexLine_quoted (cs : List Char) (h : ∀ c ∈ cs, c ≠ '"') :
    lexLine ('"' :: (cs ++ ['"'])) false [] = .ok [.text cs] := by
  simp [lexLine, lexLine_text cs h, Token.flush]

/-- `PUTS` of a quoted text is what the text expands to. -/
theorem assembleLine_puts (cs : List Char) (h : ∀ c ∈ cs, c ≠ '"') :
    assembleLine (['P', 'U', 'T', 'S', ' ', '"'] ++ cs ++ ['"']) = expandPuts cs := by
  have lexed := lexLine_word ['P', 'U', 'T', 'S'] (by simp [lexMarks]) ('"' :: (cs ++ ['"'])) []
  rw [lexLine_quoted cs h] at lexed
  change assembleLine (['P', 'U', 'T', 'S'] ++ ' ' :: '"' :: (cs ++ ['"'])) = _
  rw [assembleLine, lexed]
  rfl

/-- `DATA` and `PUTC` name the same request. -/
theorem assembleLine_data (cs : List Char) :
    assembleLine (['D', 'A', 'T', 'A', ' '] ++ cs) = assembleLine (['P', 'U', 'T', 'C', ' '] ++ cs) := by
  have data := lexLine_word ['D', 'A', 'T', 'A'] (by simp [lexMarks]) cs []
  have putc := lexLine_word ['P', 'U', 'T', 'C'] (by simp [lexMarks]) cs []
  change assembleLine (['D', 'A', 'T', 'A'] ++ ' ' :: cs) = assembleLine (['P', 'U', 'T', 'C'] ++ ' ' :: cs)
  rw [assembleLine, assembleLine, data, putc]
  cases lexLine cs false [] <;> rfl

end Sys2Proof

namespace Sys2Proof.Machine

/-- `CMD v` and `SEND v, 0` have the same list (R126). -/
theorem exec_cmd_eq_send (v : Byte) (s : State) : exec (.cmd v) s = exec (.send v 0) s := by
  have same : plan (.send v 0) s = plan (.cmd v) s := by rw [plan, if_pos (.inl rfl)]; rfl
  rw [exec_eq_plan, exec_eq_plan, same]

/-- Settles O59: the line is one word and one quoted text, whose characters are bytes; `DATA` names the request
that `PUTC` does; and RS = 0 is one of the mode bytes `SEND` takes. -/
theorem putsExpandsToCharacters : Obligations.PutsExpandsToCharacters := by
  refine ⟨fun cs h => ?_, assembleLine_data, exec_cmd_eq_send⟩
  rw [assembleLine_puts cs fun c hc => (h c hc).1, expandPuts_bytes cs fun c hc => (h c hc).2]

end Sys2Proof.Machine
end

section
/-! PROOFS. The statements of 40_expander_writer.md: `EXPW` is one transport write (O23), and the backlight line of
every expander byte is `BL`, but for test access (O40). -/

namespace Sys2Proof.Machine

/-! ## O23: one transport write -/

/-- Settles O23: `EXPW`'s list is the one write, and the byte writer merges the backlight into it. -/
theorem expwWritesOnce : Obligations.ExpwWritesOnce :=
  fun b _ hs hu => exec_events [.write b] hs rfl rfl hu

/-! ## O40: the backlight line

With `BL` 1 the merge sets the line in every byte; with `BL` 0 the line is what the action writes, so the question is
which lists leave it low. But for `BEGIN`'s and the expander byte's own, no list is built from the backlight line or
from R/W, so what is known of R/W (`plan_run_leavesRwLow`) is read off the state with the two lines exchanged. -/

/-- The same machine with the R/W line and the backlight line exchanged. -/
def State.rwForBl (s : State) : State :=
  { s with params := { s.params with expRw := s.params.expBl, expBl := s.params.expRw } }

/-- The rule of R8 does not tell the lines apart. -/
theorem State.rwForBl_wf {s : State} (h : s.params.wf = true) : s.rwForBl.params.wf = true := by
  simp only [Params.wf, State.rwForBl, Bool.and_eq_true, bne_iff_ne, beq_iff_eq] at h ⊢
  have all : s.params.expRs ||| s.params.expBl ||| s.params.expEn ||| s.params.expRw
      = s.params.expRs ||| s.params.expRw ||| s.params.expEn ||| s.params.expBl := by ac_rfl
  rw [all]
  tauto

/-- While the backlight is off no list of an instruction's sets its line, but for test access that carries it. -/
theorem plan_run_leavesBlLow {i : Instr} {s : State} {as : List Act} (hw : s.params.wf = true) (hbl : s.bl = false)
    (hp : plan i s = .run as) (hi : drivesLine s.params s.params.expBl i = false) :
    as.all (Act.leavesLow s.params.expBl) = true := by
  have L := Params.lines hw
  have exchanged : plan i s.rwForBl = .run as → drivesLine s.rwForBl.params s.params.expBl i = false →
      as.all (Act.leavesLow s.params.expBl) = true := plan_run_leavesRwLow (State.rwForBl_wf hw)
  cases i with
  | cfgAddr | cfgGeom | cfgFont | cfgPins | cfgBl =>
    obtain ⟨h, -⟩ | ⟨hm, -⟩ := plan_run hp
    · cases h
    · simp [plan, Plan.config, hm] at hp
  | beginInit =>
    simp only [plan] at hp
    split at hp <;> cases hp
    have off : s.blv = 0 := by simp [State.blv, backlightByte, hbl]
    exact beginActs_leavesLow L.bl_high L.en_bl (off ▸ hasBit_zero _)
  | xferByte d l e w r => cases Plan.ready_run hp; exact write_leavesLow hi
  | _ => exact exchanged hp hi

/-- The backlight line of a transport write's byte is `bl`. -/
def Event.CarriesBl (p : Params) (bl : Bool) : Event → Prop
  | .xfer _ b => hasBit b p.expBl = bl
  | _ => True

/-- The merge of R101: an OR, so with the backlight off the action's own byte must leave the line low. -/
theorem actEvents_carriesBl {s : State} {a : Act} (hw : s.params.wf = true)
    (ha : s.bl = false → a.leavesLow s.params.expBl = true) : ∀ e ∈ actEvents s a, e.CarriesBl s.params s.bl := by
  cases a with
  | write b =>
    cases hbl : s.bl with
    | true => simp [actEvents, Event.CarriesBl, State.blv, backlightByte, hbl, hasBit_or, (Params.lines hw).bl_bl]
    | false => simpa [actEvents, Event.CarriesBl, Act.leavesLow, State.blv, backlightByte, hbl, hasBit_or] using ha hbl
  | _ => simp [actEvents, Event.CarriesBl]

theorem settle_bl {a : Act} (ha : ∀ b, a ≠ .setBl b) (s : State) : (settle s a).bl = s.bl := by
  cases a with
  | setBl b => exact absurd rfl (ha b)
  | _ => rfl

/-- A list without `SETBL`'s write keeps `BL`: `BEGIN` may write every other register. -/
theorem runActs_bl {as : List Act} {s : State} (hr : s.resetIn = none) (hk : ∀ a ∈ as, ∀ b, a ≠ .setBl b) :
    (runActs as s).state.bl = s.bl := by
  have kept {u : State} (k : Kept .beginInit s u) : u.bl = s.bl := by
    obtain e | ⟨-, b, e⟩ | ⟨-, b, e⟩ := k.bl
    · exact e
    · cases e
    · cases e
  have written : ∀ a ∈ as, a.WrittenBy .beginInit s := by
    intro a ha
    cases a with
    | setBl b => exact absurd rfl (hk _ ha b)
    | setCtl => exact .inl rfl
    | setFn | setMode | ready => rfl
    | _ => trivial
  have k := runActs_kept hr written
  cases e : runActs as s with
  | go u => exact kept (k.1 u e)
  | halt u =>
    obtain ⟨v, hv, rfl⟩ := k.2 u e
    exact kept (u := v) hv

/-- Such a list carries `BL` on the backlight line of all its bytes, and leaves `BL` as it is. -/
theorem runActs_carriesBl {as : List Act} {s : State} (hw : s.params.wf = true) (hr : s.resetIn = none)
    (hk : ∀ a ∈ as, ∀ b, a ≠ .setBl b) (hlow : s.bl = false → as.all (Act.leavesLow s.params.expBl) = true) :
    ∃ es, (runActs as s).state.trace = s.trace ++ es ∧
      ∀ e ∈ es, e.CarriesBl s.params (runActs as s).state.bl := by
  rw [runActs_bl hr hk]
  refine runActs_appends (R := fun u => u.params = s.params ∧ u.bl = s.bl) ⟨rfl, rfl⟩ ?_ ?_
  · rintro a ha u v ⟨hp, hbl⟩ e
    obtain ⟨fs, r, n, pan, -, rfl⟩ := act_go e
    exact ⟨(settle_params u a).trans hp, (settle_bl (hk a ha) u).trans hbl⟩
  · rintro a ha u ⟨hp, hbl⟩
    rw [← hp, ← hbl]
    exact actEvents_carriesBl (hp ▸ hw) fun off => hp ▸ List.all_eq_true.1 (hlow (hbl ▸ off)) a ha

/-- An instruction that no reset cuts ends with the `BL` its list has reached. -/
theorem exec_run_bl {i : Instr} {s t : State} {as : List Act} (hr : s.resetIn = none) (h : exec i s = .next t)
    (hp : plan i s = .run as) : t.bl = (runActs as s).state.bl := by
  obtain ⟨c, hc, -⟩ | hc | ⟨as', u, hc, e, rfl⟩ | ⟨as', u, hc, e, rfl⟩ := exec_quiet hr h <;>
    cases hp.symm.trans hc
  · rw [e]; rfl
  · rw [e]; rfl

/-- Settles O40: `SETBL` writes `BL` and then its byte (R178); no other list with a transport write changes `BL`. -/
theorem backlightLineFollowsBl : Obligations.BacklightLineFollowsBl := by
  intro i s t es hr h ht hi b hb
  obtain ⟨hw, -, -⟩ := exec_next h
  obtain ⟨x, hb⟩ := mem_xferBytes.1 hb
  refine exec_appends (Q := Event.CarriesBl s.params t.bl) h ht (fun as hp => ?_) (.xfer x b) hb
  rw [exec_run_bl hr h hp]
  by_cases hs : ∃ on, i = .setBl on
  · obtain ⟨on, rfl⟩ := hs
    cases Plan.ready_run hp
    exact runActs_carriesBl (as := [.write 0x00]) (s := { s with bl := on }) hw hr (by simp)
      fun _ => write_leavesLow (hasBit_zero _)
  · refine runActs_carriesBl hw hr ?_ fun off => plan_run_leavesBlLow hw off hp hi
    rintro _ ha on rfl
    obtain ⟨-, written⟩ := plan_run_writtenBy hp _ ha
    exact hs written

end Sys2Proof.Machine
end

section
/-! PROOFS. The statement of 41_enable_pulse.md: `PULSE` is two transport writes, Enable high and then low, each with
its delay (O24). -/

namespace Sys2Proof.Machine

/-- The pulse's events (R110, R111): the byte writer merges the backlight into both bytes, with Enable set in the one
and clear in the other before the merge. -/
theorem pulseActs_flatMap (s : State) (b : Byte) :
    (pulseActs s.params b).flatMap (actEvents s)
      = [.xfer s.addr ((b ||| s.params.expEn) ||| s.backlight), .wait 1,
         .xfer s.addr ((b &&& ~~~s.params.expEn) ||| s.backlight), .wait 50] := rfl

/-- Settles O24: `PULSE`'s list is nothing but events, two of them transport writes, so undisturbed it emits them all
and writes no register. -/
theorem pulseHighThenLow : Obligations.PulseHighThenLow := by
  intro b s hs hu
  rw [← pulseActs_flatMap]
  exact exec_events (pulseActs s.params b) hs rfl rfl hu

end Sys2Proof.Machine
end

section
/-! PROOFS. The statements of 42_nibble_engine.md: `SEND` is two nibble transactions (O26), its six bytes agree on the
register-select, R/W and backlight lines (O28), and `CMD` and `PUTC` are its two modes (O29). -/

namespace Sys2Proof

/-- What a one-bit mask leaves of a byte: the line's bit or nothing. -/
theorem and_legalLine {k : Byte} (hk : Params.legalLine k = true) (b : Byte) : b &&& k = flagBit (hasBit b k) k := by
  have each : ∀ k ∈ lineBytes, ∀ b : Byte, b &&& k = flagBit (hasBit b k) k := by decide
  exact each k (mem_lineBytes hk) b

theorem Params.legalLine_of_wf {p : Params} (h : p.wf = true) :
    legalLine p.expRs = true ∧ legalLine p.expRw = true ∧ legalLine p.expBl = true := by
  simp only [Params.wf, Bool.and_eq_true] at h
  tauto

end Sys2Proof

namespace Sys2Proof.Machine

section
variable {s : State} {v m : Byte}

/-! ## O26, O29: the byte transaction -/

/-- An undisturbed `SEND` with a mode byte it takes is its byte transaction (R122). -/
theorem exec_send (hs : s.Ready) (hu : s.Undisturbed 6) (hm : m = 0 ∨ m = s.params.expRs) :
    exec (.send v m) s = .next (s.emitted (s.byteEvents v m)).rest :=
  exec_byte hs hu (plan_send hm s.resetIn)

/-! ## O28: the lines in the six bytes

Enable is the one line a nibble transaction moves: any other shows in each byte what the nibble byte and the backlight
byte give it. -/

/-- A line that is not Enable, in the three bytes of one nibble transaction. -/
theorem hasBit_of_mem_nibbleEvents {k n b : Byte} (hen : hasBit s.params.expEn k = false)
    (hb : b ∈ xferBytes (s.nibbleEvents n)) : hasBit b k = (hasBit n k || hasBit s.backlight k) := by
  have three : b = n ||| s.backlight ∨ b = n ||| s.params.expEn ||| s.backlight ∨
      b = (n &&& ~~~s.params.expEn) ||| s.backlight := by
    simpa [State.nibbleEvents, nibbleEvents, xferBytes] using hb
  obtain rfl | rfl | rfl := three
  · exact hasBit_or ..
  · rw [hasBit_or, hasBit_or, hen, Bool.or_false]
  · rw [hasBit_or, hasBit_clear_other n hen]

/-- A line that is not Enable, in the six bytes of one byte transaction: both nibble bytes carry the mode byte below
their data. -/
theorem hasBit_of_mem_byteEvents {k b : Byte} (hk : k &&& 0xF0 = 0) (hen : hasBit s.params.expEn k = false)
    (hb : b ∈ xferBytes (s.byteEvents v m)) : hasBit b k = (hasBit m k || hasBit s.backlight k) := by
  have data (w : Byte) : hasBit (w &&& 0xF0) k = false := hasBit_high hk (by rw [BitVec.and_assoc]; simp)
  have split : xferBytes (s.byteEvents v m)
      = xferBytes (s.nibbleEvents ((v &&& 0xF0) ||| m)) ++ xferBytes (s.nibbleEvents (((v <<< 4) &&& 0xF0) ||| m)) :=
    xferBytes_append ..
  rw [split, List.mem_append] at hb
  obtain hb | hb := hb <;> rw [hasBit_of_mem_nibbleEvents hen hb, hasBit_or, data, Bool.false_or]

/-- R124, for each byte of a byte transaction with a legal mode byte. -/
theorem lines_of_mem_byteEvents {b : Byte} (hw : s.params.wf = true) (hm : m = 0 ∨ m = s.params.expRs)
    (hb : b ∈ xferBytes (s.byteEvents v m)) :
    b &&& s.params.expRs = m ∧ b &&& s.params.expRw = 0 ∧ b &&& s.params.expBl = s.backlight := by
  have L := Params.lines hw
  obtain ⟨legalRs, legalRw, legalBl⟩ := Params.legalLine_of_wf hw
  have mode {k : Byte} (hk : hasBit s.params.expRs k = false) : hasBit m k = false := by
    obtain rfl | rfl := hm
    · exact hasBit_zero k
    · exact hk
  refine ⟨?_, ?_, ?_⟩
  · rw [and_legalLine legalRs, hasBit_of_mem_byteEvents L.rs_high L.en_rs hb, backlight_low L.bl_rs, Bool.or_false]
    obtain rfl | rfl := hm
    · rw [hasBit_zero]; rfl
    · rw [L.rs_rs]; rfl
  · rw [and_legalLine legalRw, hasBit_of_mem_byteEvents L.rw_high L.en_rw hb, mode L.rs_rw, backlight_low L.bl_rw]
    rfl
  · rw [and_legalLine legalBl, hasBit_of_mem_byteEvents L.bl_high L.en_bl hb, mode L.rs_bl, Bool.false_or,
      ← and_legalLine legalBl]
    obtain h | h := s.backlight_cases <;> rw [h]
    · exact BitVec.zero_and
    · exact BitVec.and_self

end

/-- Settles O26: a byte transaction is the nibble transaction of the high nibble and then that of the low one. -/
theorem sendHighNibbleFirst : Obligations.SendHighNibbleFirst :=
  fun _ _ _ hs hu hm => exec_send hs hu hm

/-- Settles O28: the mode byte stands below the data in both nibble bytes, and a nibble transaction moves Enable
only. -/
theorem modeBitConstantInSend : Obligations.ModeBitConstantInSend :=
  fun v m s hs hu hm => ⟨s.byteEvents v m, exec_send hs hu hm, byteEvents_xfers s v m,
    fun _ => lines_of_mem_byteEvents hs.1 hm⟩

/-- Settles O29: both lists are one byte transaction, which writes no register. -/
theorem cmdAndPutcSendOneByte : Obligations.CmdAndPutcSendOneByte :=
  fun _ _ hs hu => ⟨exec_byte hs hu rfl, exec_byte hs hu rfl⟩

end Sys2Proof.Machine
end

section
/-! PROOFS. The statements of 43_init_fsm.md: the configuration setters write their registers (O16, O17, O18), `BEGIN`
is its twelve steps (O20, O21, O22), and an operation stops at its first failing transport write (O14). -/

namespace Sys2Proof.Machine

/-! ## O16, O17, O18: the setters -/

/-- A configuration setter in `CONFIG` (R204): the state it sets is the next one. -/
theorem exec_setter {i : Instr} {s t : State} (hs : s.InConfig) (ht : t.resetIn = none)
    (hp : plan i s = Plan.config s (.set t)) : exec i s = .next t :=
  exec_of_flow (f := .go t) hs.1 hs.ne_faulted (by rw [hp, Plan.config, if_pos hs.2]; rfl) ht

/-- Settles O16: `CFG.ADDR`'s plan sets the two registers. -/
theorem cfgAddrWritesAddress : Obligations.CfgAddrWritesAddress :=
  fun _ _ hs hr => exec_setter hs hr rfl

/-- Settles O17: `CFG.GEOM`'s plan is a fault for no rows, and else sets the three registers. -/
theorem cfgGeomWritesOrFaults : Obligations.CfgGeomWritesOrFaults := by
  intro c r s hs hr
  split
  case isTrue h =>
    exact exec_of_fail hs.1 hs.ne_faulted hr (by simp [plan, Plan.config, hs.2, h])
  case isFalse h =>
    exact exec_setter hs hr (congrArg (Plan.config s) (if_neg h))

/-- Settles O18: each of the three plans sets its own register. -/
theorem cfgFontPinsBacklightWrite : Obligations.CfgFontPinsBacklightWrite :=
  fun _ _ _ _ hs hr => ⟨exec_setter hs hr rfl, exec_setter hs hr rfl, exec_setter hs hr rfl⟩

/-! ## O20, O21, O22: a `BEGIN` that nothing stops -/

/-- Settles O20: the flags step 2 computes are the ones stated, where there is a row. -/
theorem beginRunsTheTwelveSteps : Obligations.BeginRunsTheTwelveSteps := by
  intro s hm hu
  obtain ⟨-, -, -, -, hrows⟩ := id hm
  rw [exec_begin hm hu, State.completed, fnFlags_eq hrows]

/-- Settles O21: a completed `BEGIN` holds the flags of its step 2, in each of the three cases of R145. -/
theorem beginFunctionSetFlags : Obligations.BeginFunctionSetFlags := by
  intro s hm hu
  obtain ⟨-, -, -, -, hrows⟩ := id hm
  have flags : s.completed.rest.dispFn = if s.rows = 1 then (if s.charSize then 0x04 else 0x00) else 0x08 :=
    fnFlags_eq hrows s.charSize
  refine ⟨s.completed.rest, exec_begin hm hu, fun hr hc => ?_, fun hr hc => ?_, fun hr => ?_⟩ <;> rw [flags]
  · rw [if_pos hr, hc]; rfl
  · rw [if_pos hr, hc]; rfl
  · exact if_neg (by bv_omega)

/-- The events of `BEGIN` (R154): 1 open and 34 waits beside its 43 transport writes. -/
theorem beginEvents_length (s : State) : s.beginEvents.length = 78 := by
  have nibble (n : Byte) : (s.nibbleEvents n).length = 5 := rfl
  have byte (v m : Byte) : (s.byteEvents v m).length = 10 := rfl
  simp only [State.beginEvents, List.length_append, nibble, byte, List.length_cons, List.length_nil]

theorem beginEvents_busAddrs (s : State) : (busAddrs s.beginEvents).length = 44 := by
  have nibble (n : Byte) : (busAddrs (s.nibbleEvents n)).length = 3 := rfl
  have byte (v m : Byte) : (busAddrs (s.byteEvents v m)).length = 6 := rfl
  simp only [State.beginEvents, busAddrs_append, List.length_append, nibble, byte, busAddrs, List.length_cons,
    List.length_nil]

/-- The delays of `BEGIN`: two in each nibble transaction, and its own. -/
theorem beginEvents_waitTimes (s : State) :
    waitTimes s.beginEvents = [50000, 1000000, 1, 50, 4500, 1, 50, 4500, 1, 50, 150, 1, 50]
      ++ [1, 50, 1, 50] ++ [1, 50, 1, 50] ++ [1, 50, 1, 50, 2000] ++ [1, 50, 1, 50] ++ [1, 50, 1, 50] := by
  have nibble (n : Byte) : waitTimes (s.nibbleEvents n) = [1, 50] := rfl
  have byte (v m : Byte) : waitTimes (s.byteEvents v m) = [1, 50, 1, 50] := rfl
  simp only [State.beginEvents, waitTimes_append, nibble, byte, waitTimes]
  rfl

/-- Settles O22: the events of R153, counted. -/
theorem beginTraceShape : Obligations.BeginTraceShape := by
  intro s hm hu
  refine ⟨s.completed.rest, s.beginEvents, exec_begin hm hu, rfl, beginEvents_length s, beginEvents_busAddrs s,
    beginEvents_xfers s, ?_, ?_⟩
  · rw [beginEvents_waitTimes]; rfl
  · rw [beginEvents_waitTimes]; rfl

/-! ## O14: the first failing write

An operation whose transport write number `k` is the first to fail goes on undisturbed through the actions before that
write (`beforeWrite k`), and stops there. Which events those actions are, and which registers they write, is read off
the list. -/

/-- The events of a list of actions, each action's made from the registers as the actions before it have written
them. -/
def listEvents : List Act → State → List Event
  | [], _ => []
  | a :: as, s => actEvents s a ++ listEvents as (settle s a)

/-- The actions before transport write number `k`, counted from 0. -/
def beforeWrite : Nat → List Act → List Act
  | _, [] => []
  | k, a :: as => if k < writeCount [a] then [] else a :: beforeWrite (k - writeCount [a]) as

theorem writeCount_cons (a : Act) (as : List Act) : writeCount (a :: as) = writeCount [a] + writeCount as :=
  writeCount_append [a] as

/-! ### Register writes beside events -/

theorem foldl_settle_params (as : List Act) (s : State) : (as.foldl settle s).params = s.params := by
  induction as generalizing s with
  | nil => rfl
  | cons a as ih => exact (ih _).trans (settle_params s a)

theorem settle_drawAt (s : State) (a : Act) : (settle s a).drawAt = s.drawAt := by cases a <;> rfl

theorem foldl_settle_drawAt (as : List Act) (s : State) : (as.foldl settle s).drawAt = s.drawAt := by
  induction as generalizing s with
  | nil => rfl
  | cons a as ih => exact (ih _).trans (settle_drawAt s a)

/-- Events write no register. -/
theorem settle_of_isEvent {a : Act} (ha : isEvent a = true) (s : State) : settle s a = s := by
  cases a with
  | openBus | write | wait => rfl
  | _ => cases ha

/-- The events of a list are made from registers alone. -/
theorem listEvents_outside (as : List Act) (s : State) (tr : List Event) (r : Option Nat) (n : Nat) (pan : Panel) :
    listEvents as (s.outside tr r n pan) = listEvents as s := by
  induction as generalizing s with
  | nil => rfl
  | cons a as ih =>
    have own : actEvents (s.outside tr r n pan) a = actEvents s a := by cases a <;> rfl
    have next : settle (s.outside tr r n pan) a = (settle s a).outside tr r n pan := by cases a <;> rfl
    rw [listEvents, listEvents, own, next, ih]

/-- Whether a failed transaction counts makes no event another. -/
theorem listEvents_tolerant (as : List Act) (s : State) : listEvents as s.tolerant = listEvents as s := by
  induction as generalizing s with
  | nil => rfl
  | cons a as ih =>
    have own : actEvents s.tolerant a = actEvents s a := by cases a <;> rfl
    have next : settle s.tolerant a = (settle s a).tolerant := by cases a <;> rfl
    rw [listEvents, listEvents, own, next, ih]

theorem listEvents_append (as bs : List Act) (s : State) :
    listEvents (as ++ bs) s = listEvents as s ++ listEvents bs (as.foldl settle s) := by
  induction as generalizing s with
  | nil => rfl
  | cons a as ih => rw [List.cons_append, listEvents, listEvents, ih, List.append_assoc, List.foldl_cons]

/-- A list of actions makes its transport writes. -/
theorem listEvents_xfers (as : List Act) (s : State) : (xferBytes (listEvents as s)).length = writeCount as := by
  induction as generalizing s with
  | nil => rfl
  | cons a as ih =>
    have own : (xferBytes (actEvents s a)).length = writeCount [a] := by cases a <;> rfl
    rw [listEvents, xferBytes_append, List.length_append, own, ih, writeCount_cons a as]

/-! ### Up to the write that fails -/

theorem throughXfer_append {k : Nat} {es : List Event} (h : (xferBytes es).length = k) (a : BusAddr) (b : Byte)
    (fs : List Event) : throughXfer k (es ++ .xfer a b :: fs) = es ++ [.xfer a b] := by
  induction es generalizing k with
  | nil => subst h; rfl
  | cons e es ih =>
    subst h
    cases e <;> simp [throughXfer, xferBytes, ih]

theorem throughXfer_xfers {k : Nat} {es : List Event} (h : k < (xferBytes es).length) :
    (xferBytes (throughXfer k es)).length = k + 1 := by
  induction es generalizing k with
  | nil => simp [xferBytes] at h
  | cons e es ih =>
    cases e with
    | xfer a b =>
      cases k with
      | zero => rfl
      | succ k =>
        have rest : k < (xferBytes es).length := Nat.lt_of_succ_lt_succ h
        simp [throughXfer, xferBytes, ih rest]
    | openBus | wait => simpa [throughXfer, xferBytes] using ih h

/-- Where a list has a transport write number `k`, it comes right after the actions before it. -/
theorem beforeWrite_split {k : Nat} {as : List Act} (h : k < writeCount as) :
    ∃ b bs, as = beforeWrite k as ++ .write b :: bs ∧ writeCount (beforeWrite k as) = k := by
  induction as generalizing k with
  | nil => exact absurd h (Nat.not_lt_zero k)
  | cons a as ih =>
    rw [beforeWrite]
    split
    case isTrue here =>
      cases a with
      | write b => exact ⟨b, as, rfl, (Nat.lt_one_iff.1 here).symm⟩
      | _ => exact absurd here (Nat.not_lt_zero k)
    case isFalse later =>
      rw [writeCount_cons a as] at h
      obtain ⟨b, bs, split, count⟩ := ih (k := k - writeCount [a]) (by omega)
      refine ⟨b, bs, congrArg (a :: ·) split, ?_⟩
      rw [writeCount_cons, count]
      omega

/-- An action that nothing stops: its register write, and its event. -/
theorem act_undisturbed {a : Act} {s : State} (h : s.Undisturbed (writeCount [a])) :
    ∃ pan, act a s
      = .go ((settle s a).outside (s.trace ++ actEvents s a) s.resetIn (s.sent + writeCount [a]) pan) := by
  cases a with
  | openBus => exact ⟨_, openTransport_undisturbed h.1⟩
  | write b => exact ⟨_, expWrite_undisturbed b h⟩
  | wait t => exact ⟨_, wait_undisturbed t h.1⟩
  | _ => exact ⟨_, by rw [actEvents, List.append_nil]; rfl⟩

/-- A list of actions that nothing stops: its register writes, and its events. -/
theorem runActs_undisturbed {as : List Act} {s : State} (h : s.Undisturbed (writeCount as)) :
    ∃ pan, runActs as s
      = .go ((as.foldl settle s).outside (s.trace ++ listEvents as s) s.resetIn (s.sent + writeCount as) pan) := by
  induction as generalizing s with
  | nil => exact ⟨s.panel, by rw [listEvents, List.append_nil]; rfl⟩
  | cons a as ih =>
    rw [writeCount_cons a as] at h
    obtain ⟨pan, first⟩ := act_undisturbed (h.mono (Nat.le_add_right _ _))
    have later : ((settle s a).outside (s.trace ++ actEvents s a) s.resetIn (s.sent + writeCount [a]) pan).Undisturbed
        (writeCount as) := by
      refine ⟨h.1, fun hp k hk => ?_⟩
      have ok := h.2 (settle_params s a ▸ hp) (writeCount [a] + k) (by omega)
      rw [← settle_drawAt s a, ← Nat.add_assoc] at ok
      exact ok
    obtain ⟨pan', others⟩ := ih later
    rw [foldl_settle_outside, listEvents_outside] at others
    refine ⟨pan', ?_⟩
    rw [runActs, first, listEvents, writeCount_cons a as, ← List.append_assoc, ← Nat.add_assoc]
    exact others

/-- A transport write whose failure counts is the operation's last event (R210). -/
theorem expWrite_failed (b : Byte) {s : State} (hr : s.resetIn = none) (hp : s.params.propagateBusErr = true)
    (hf : drawFailed (s.drawAt s.sent) = true) :
    ∃ pan, expWrite b s = .halt (s.busFailed [.xfer s.addr (b ||| s.blv)] pan) := by
  obtain ⟨due, -⟩ | ⟨-, -, -, stop⟩ | ⟨-, ok, -⟩ := expWrite_cases b s
  · cases hr.symm.trans due
  · refine ⟨(s.transact (b ||| s.blv)).panel, stop.trans (congrArg Flow.halt ?_)⟩
    simp only [State.raise, State.transact, State.push, State.busFailed, hr, Option.map_none]
    rfl
  · rw [hp, hf] at ok
    cases ok

/-- After events `es` of an operation that has made its register writes `as`, a failing end is that of the operation. -/
theorem foldl_settle_busFailed (as : List Act) (s : State) {es fs : List Event} {p pan : Panel} :
    ((as.foldl settle s).outside (s.trace ++ es) s.resetIn (s.sent + (xferBytes es).length) p).busFailed fs pan
      = (as.foldl settle s).busFailed (es ++ fs) pan := by
  have kept : as.foldl settle s = (as.foldl settle s).outside s.trace s.resetIn s.sent s.panel :=
    foldl_settle_outside as s s.trace s.resetIn s.sent s.panel
  rw [kept]
  simp [State.busFailed, State.outside, xferBytes_append, Nat.add_assoc]

/-- A list of actions whose write number `k` fails first: the register writes before it, and the events up to it. -/
theorem runActs_failsAt {as : List Act} {s : State} {k : Nat} (hf : s.FailsAt k) (hk : k < writeCount as) :
    ∃ pan, runActs as s
      = .halt (((beforeWrite k as).foldl settle s).busFailed (throughXfer k (listEvents as s)) pan) := by
  obtain ⟨hr, hp, before, fails⟩ := hf
  obtain ⟨b, bs, split, count⟩ := beforeWrite_split hk
  generalize beforeWrite k as = earlier at split count ⊢
  subst split count
  obtain ⟨pan, go⟩ := runActs_undisturbed (as := earlier) (s := s) ⟨hr, fun _ => before⟩
  rw [← listEvents_xfers earlier s] at go fails
  have counts : (earlier.foldl settle s).params.propagateBusErr = true := by rw [foldl_settle_params, hp]
  have drawn : drawFailed ((earlier.foldl settle s).drawAt (s.sent + (xferBytes (listEvents earlier s)).length))
      = true := by rw [foldl_settle_drawAt, fails]
  obtain ⟨pan', stop⟩ := expWrite_failed b (s := (earlier.foldl settle s).outside (s.trace ++ listEvents earlier s)
    s.resetIn (s.sent + (xferBytes (listEvents earlier s)).length) pan) hr counts drawn
  rw [foldl_settle_busFailed] at stop
  refine ⟨pan', ?_⟩
  rw [runActs_append, go, listEvents_append, listEvents, actEvents, List.singleton_append,
    throughXfer_append (listEvents_xfers earlier s), Flow.andThen, runActs, act, stop]
  rfl

/-! ### The register writes of each instruction before the write that fails -/

/-- An action that is no transport write comes before all that follow it. -/
theorem beforeWrite_cons {a : Act} (ha : writeCount [a] = 0) (k : Nat) (as : List Act) :
    beforeWrite k (a :: as) = a :: beforeWrite k as := by
  rw [beforeWrite, ha, if_neg (Nat.not_lt_zero k), Nat.sub_zero]

/-- Events before register writes: those writes are made where the failing write is none of the events. -/
theorem foldl_settle_beforeWrite_append {as : List Act} (he : as.all isEvent = true) (k : Nat) (bs : List Act)
    (s : State) :
    (beforeWrite k (as ++ bs)).foldl settle s
      = if k < writeCount as then s else (beforeWrite (k - writeCount as) bs).foldl settle s := by
  induction as generalizing k with
  | nil => rfl
  | cons a as ih =>
    rw [List.all_cons, Bool.and_eq_true] at he
    obtain ⟨ha, he⟩ := he
    rw [List.cons_append, beforeWrite, writeCount_cons a as]
    by_cases here : k < writeCount [a]
    · rw [if_pos here, if_pos (Nat.lt_add_right _ here), List.foldl_nil]
    · have within : k - writeCount [a] < writeCount as ↔ k < writeCount [a] + writeCount as := by omega
      rw [if_neg here, List.foldl_cons, settle_of_isEvent ha, ih he, Nat.sub_sub]
      simp only [within]

/-- A list of nothing but events writes no register before any of its writes. -/
theorem foldl_settle_beforeWrite {as : List Act} (he : as.all isEvent = true) (k : Nat) (s : State) :
    (beforeWrite k as).foldl settle s = s := by
  rw [← List.append_nil as, foldl_settle_beforeWrite_append he]
  split <;> rfl

/-- `BEGIN`'s list by its register writes (R153): `DISPFN` before any transport write, `DISPCTL` after 19 of them,
`DISPMODE` after 12 more. -/
theorem beginActs_eq_writes (s : State) :
    ∃ as bs cs : List Act, beginActs s
        = .openBus :: .setFn (fnFlags s.rows s.charSize) :: .wait 50000 :: .revive ::
          (as ++ .setCtl dispCtlInit :: (bs ++ .setMode dispModeInit :: cs)) ∧
      (as.all isEvent = true ∧ writeCount as = 19) ∧ (bs.all isEvent = true ∧ writeCount bs = 12) ∧
      ∀ k, k < 12 → ∀ t, (beforeWrite k cs).foldl settle t = t := by
  refine ⟨[.write s.blv, .wait 1000000] ++ beginForce s.params
      ++ cmdActs s.params (fnCommand (fnFlags s.rows s.charSize)),
    cmdActs s.params (ctlCommand dispCtlInit) ++ longCmdActs s.params (HdInstr.byte .clear),
    (cmdActs s.params (modeCommand dispModeInit) ++ cmdActs s.params (ddramCommand 0x00 0)) ++ [.repair, .ready],
    rfl, ⟨rfl, rfl⟩, ⟨rfl, rfl⟩, fun k hk t => ?_⟩
  rw [foldl_settle_beforeWrite_append rfl]
  exact if_pos hk

/-- What `BEGIN` has written by its transport write number `k` (R153, D33). -/
theorem beginActs_writtenBefore {k : Nat} {s : State} (hk : k < 43) :
    (beforeWrite k (beginActs s)).foldl settle s = s.writtenBefore .beginInit k := by
  obtain ⟨as, bs, cs, split, ⟨ha, has⟩, ⟨hb, hbs⟩, hc⟩ := beginActs_eq_writes s
  rw [split, beforeWrite_cons rfl, beforeWrite_cons rfl, beforeWrite_cons rfl, beforeWrite_cons rfl]
  simp only [List.foldl_cons]
  rw [foldl_settle_beforeWrite_append ha, has, State.writtenBefore]
  by_cases early : k < 19
  · rw [if_pos early, if_neg (by omega), if_neg (by omega)]
    rfl
  rw [if_neg early, if_pos (by omega), beforeWrite_cons rfl, List.foldl_cons, foldl_settle_beforeWrite_append hb, hbs]
  by_cases middle : k < 31
  · rw [if_pos (by omega), if_neg (by omega)]
    rfl
  rw [if_neg (by omega), if_pos (by omega), beforeWrite_cons rfl, List.foldl_cons, hc _ (by omega)]
  rfl

/-- What an instruction has written by its transport write number `k`. -/
theorem plan_run_writtenBefore {i : Instr} {s : State} {as : List Act} {k : Nat} (hp : plan i s = .run as)
    (hk : k < writeCount as) : (beforeWrite k as).foldl settle s = s.writtenBefore i k := by
  cases i with
  | beginInit =>
    simp only [plan] at hp
    split at hp <;> cases hp
    exact beginActs_writtenBefore hk
  | setBl on =>
    cases Plan.ready_run hp
    cases Nat.lt_one_iff.1 hk
    rfl
  | dctl f v =>
    cases Plan.ready_run hp
    rw [beforeWrite_cons rfl, List.foldl_cons]
    exact foldl_settle_beforeWrite (sendActs_events ..) k _
  | _ =>
    obtain ⟨h, -⟩ | ⟨-, he | ⟨_, h, -⟩ | ⟨_, _, h, -⟩⟩ := plan_run hp
    · cases h
    · exact foldl_settle_beforeWrite he k s
    · cases h
    · cases h

theorem State.writtenBefore_resetIn (i : Instr) (k : Nat) (s : State) : (s.writtenBefore i k).resetIn = s.resetIn := by
  cases i <;> rfl

/-- Whether a failed transaction counts makes no operation another list. -/
theorem plan_run_of_tolerant {i : Instr} {s : State} {as : List Act} (hp : plan i s.tolerant = .run as) :
    plan i s = .run as := by
  cases i with
  | cfgAddr | cfgGeom | cfgFont | cfgPins | cfgBl =>
    obtain ⟨h, -⟩ | ⟨hm, -⟩ := plan_run hp
    · cases h
    · simp [plan, Plan.config, show s.mode = .ready from hm] at hp
  | _ => exact hp

/-- An instruction's list of actions is behind all its events: a fault before any event and a setter have none. -/
theorem exec_tolerant_run {i : Instr} {s t : State} {es : List Event} (hr : s.resetIn = none)
    (h : exec i s.tolerant = .next t) (ht : t.trace = s.trace ++ es) (hne : xferBytes es ≠ []) :
    ∃ as, plan i s = .run as ∧ es = listEvents as s := by
  have nothing {es : List Event} (hes : s.trace = s.trace ++ es) : xferBytes es = [] := by
    rw [List.self_eq_append_right.1 hes]; rfl
  obtain ⟨-, -, rfl⟩ := exec_next h
  rw [State.endOperation_trace] at ht
  cases hp : plan i s.tolerant with
  | fail c => rw [hp] at ht; exact absurd (nothing ht) hne
  | set u =>
    obtain ⟨-, -, -, -, same, -⟩ := plan_set hp
    rw [hp] at ht
    exact absurd (nothing (same.symm.trans ht)) hne
  | run as =>
    obtain ⟨pan, run⟩ := runActs_undisturbed (as := as) (s := s.tolerant) ⟨hr, nofun⟩
    rw [hp, Plan.flow, runOp_state, run, listEvents_tolerant] at ht
    exact ⟨as, plan_run_of_tolerant hp, (List.append_cancel_left ht).symm⟩

theorem State.busFailed_eq {s : State} {es : List Event} {k : Nat} (hk : k < (xferBytes es).length) (pan : Panel) :
    s.busFailed (throughXfer k es) pan
      = { s with
          trace := s.trace ++ throughXfer k es, sent := s.sent + k + 1, panel := pan
          fault := some .busFail, mode := .faulted } := by
  rw [State.busFailed, throughXfer_xfers hk]
  rfl

/-- An instruction whose transport write number `k` fails first. -/
theorem exec_failsAt {i : Instr} {k : Nat} {s t : State} {es : List Event} (hf : s.FailsAt k)
    (h : exec i s.tolerant = .next t) (ht : t.trace = s.trace ++ es) (hk : k < (xferBytes es).length) :
    ∃ pan, exec i s = .next ((s.writtenBefore i k).busFailed (throughXfer k es) pan) := by
  obtain ⟨hw, hm, -⟩ := exec_next h
  obtain ⟨as, hp, rfl⟩ := exec_tolerant_run hf.1 h ht (List.ne_nil_of_length_pos (Nat.zero_lt_of_lt hk))
  rw [listEvents_xfers] at hk
  obtain ⟨pan, stop⟩ := runActs_failsAt hf hk
  rw [plan_run_writtenBefore hp hk] at stop
  have flow : (plan i s).flow s = (runActs as s).rest := by rw [hp]; rfl
  rw [stop] at flow
  exact ⟨pan.rest (s.writtenBefore i k).params,
    exec_of_flow (s := s) hw hm flow ((State.writtenBefore_resetIn i k s).trans hf.1)⟩

/-! ### The four operations written out -/

/-- `SETBL` writes `BL` and sends one byte that carries it (R178). -/
theorem exec_setBl {on : Bool} {s : State} (hs : s.Ready) (hu : s.Undisturbed 1) :
    exec (.setBl on) s = .next (State.rest (State.emitted { s with bl := on }
      [.xfer s.addr (if on then s.params.expBl else 0x00)])) := by
  have write := runActs_events [.write 0x00] (s := { s with bl := on }) rfl hu
  have byte : (0x00 : Byte) ||| State.blv { s with bl := on } = if on then s.params.expBl else 0x00 := BitVec.zero_or
  rw [List.flatMap_cons, actEvents, byte] at write
  refine exec_of_flow (f := .go _) hs.1 hs.ne_faulted ?_ hu.1
  rw [plan, Plan.ready, if_pos hs.2, Plan.flow, runOp]
  exact congrArg Flow.rest write

/-- Where a failed transaction does not count, none stops an operation. -/
theorem State.FailsAt.tolerant {s : State} {k : Nat} (h : s.FailsAt k) (n : Nat) : s.tolerant.Undisturbed n :=
  ⟨h.1, nofun⟩

/-- Settles O14: an operation goes on undisturbed up to the write that fails, so what it has emitted and written by then
is what its list of actions says; the operations written out emit what they do where nothing stops them. -/
theorem busFailStopsAnOperation : Obligations.BusFailStopsAnOperation := by
  refine ⟨fun i k s t es => exec_failsAt, fun v m k s hs hf hm hk => ?_, fun on s hs hf => ?_,
    fun f val k s hs hf hk => ?_, fun k s hm hf hk => ?_⟩
  · obtain ⟨pan, h⟩ := exec_failsAt hf (exec_send (v := v) hs (hf.tolerant 6) hm) rfl hk
    exact ⟨pan, h.trans (congrArg _ (State.busFailed_eq hk pan))⟩
  · obtain ⟨pan, h⟩ := exec_failsAt hf (exec_setBl (on := on) hs (hf.tolerant 1)) rfl Nat.one_pos
    exact ⟨pan, h⟩
  · obtain ⟨pan, h⟩ := exec_failsAt hf (exec_dctl (f := f) (val := val) hs (hf.tolerant 6)) rfl hk
    exact ⟨pan, h.trans (congrArg _ (State.busFailed_eq hk pan))⟩
  · obtain ⟨-, -, -, -, hrows⟩ := id hm
    have writes : k < (xferBytes s.beginEvents).length := by rwa [beginEvents_xfers]
    obtain ⟨pan, h⟩ := exec_failsAt hf (exec_begin hm (hf.tolerant 43)) rfl writes
    rw [State.writtenBefore, fnFlags_eq hrows] at h
    exact ⟨pan, h.trans (congrArg _ (State.busFailed_eq writes pan))⟩

end Sys2Proof.Machine
end

section
/-! PROOFS. The statements of 44_command_surface.md: what each request of the surface sends (O31 to O36), that faults
are precise (O12), which command the controller still owes a delay after (O54), and that `SETBL` latches nothing
(O56). -/

namespace Sys2Proof.Machine

/-! ## O12: precise faults -/

/-- An operation that stops where no reset is due stops at the first of its transport writes to fail, and a failure
counts. -/
theorem runActs_halt_failsAt {as : List Act} {s u : State} (hr : s.resetIn = none) (h : runActs as s = .halt u) :
    ∃ k, k < writeCount as ∧ s.FailsAt k := by
  obtain ⟨counts, -⟩ := (runActs_quiet as hr).2 u h
  have fails : ∃ k, k < writeCount as ∧ drawFailed (s.drawAt (s.sent + k)) = true := by
    by_contra never
    have undisturbed : s.Undisturbed (writeCount as) :=
      ⟨hr, fun _ k hk => Bool.eq_false_iff.2 fun e => never ⟨k, hk, e⟩⟩
    obtain ⟨pan, go⟩ := runActs_undisturbed undisturbed
    cases go.symm.trans h
  obtain ⟨hk, fail⟩ := Nat.find_spec fails
  exact ⟨Nat.find fails, hk, hr, counts, fun j hj => Bool.eq_false_iff.2 fun e =>
    Nat.find_min fails hj ⟨hj.trans hk, e⟩, fail⟩

/-- An instruction whose list stops where no reset is due: the last event is the transport write that failed first, and
the registers are as written by then. -/
theorem plan_run_halt {i : Instr} {s u : State} {as : List Act} (hr : s.resetIn = none) (hp : plan i s = .run as)
    (h : runActs as s = .halt u) :
    ∃ es b pan, u = (s.writtenBefore i (xferBytes es).length).busFailed (es ++ [.xfer s.addr b]) pan ∧
      s.FailsAt (xferBytes es).length := by
  obtain ⟨k, hk, fails⟩ := runActs_halt_failsAt hr h
  obtain ⟨pan, stop⟩ := runActs_failsAt fails hk
  rw [plan_run_writtenBefore hp hk] at stop
  cases h.symm.trans stop
  obtain ⟨-, -, -, -, es, b, trace⟩ := (runActs_quiet as hr).2 _ h
  have same : (s.writtenBefore i k).trace = s.trace := by cases i <;> rfl
  have last : throughXfer k (listEvents as s) = es ++ [.xfer s.addr b] := by
    rw [State.busFailed_trace, same, List.append_assoc] at trace
    exact List.append_cancel_left trace
  have count : (xferBytes es).length = k := by
    have writes := throughXfer_xfers (k := k) (es := listEvents as s) (by rwa [listEvents_xfers])
    rw [last, xferBytes_append, List.length_append] at writes
    exact Nat.succ.inj writes
  rw [last, ← count]
  exact ⟨es, b, pan, rfl, count ▸ fails⟩

/-- Settles O12: a fault is raised before any event, or by a transport write; setters and completed lists raise none. -/
theorem faultsArePrecise : Obligations.FaultsArePrecise := by
  intro i s t c hr hs h ht
  obtain ⟨d, -, hd, rfl⟩ | hp | ⟨as, u, hp, run, rfl⟩ | ⟨as, u, hp, run, rfl⟩ := exec_quiet hr h
  · cases ht
    exact ⟨fun _ => rfl, fun e => absurd e hd⟩
  · obtain ⟨-, -, fault, -⟩ := plan_set hp
    cases (fault.trans hs).symm.trans ht
  · obtain ⟨-, -, -, fault, -⟩ := (runActs_quiet as hr).1 u run
    cases (fault.trans hs).symm.trans ht
  · obtain ⟨es, b, pan, rfl, fails⟩ := plan_run_halt hr hp run
    cases ht
    exact ⟨fun e => absurd rfl e, fun _ => ⟨es, b, _, rfl, fails⟩⟩

/-! ## O31 to O36: what each request sends -/

/-- Settles O31: both lists are a command and the wait, which write no register. -/
theorem clearAndHomeWaitTwoMilliseconds : Obligations.ClearAndHomeWaitTwoMilliseconds :=
  fun s hs hu => ⟨exec_events (longCmdActs s.params 0x01) hs rfl rfl hu,
    exec_events (longCmdActs s.params 0x02) hs rfl rfl hu⟩

/-- A row above 3 has no base (R53). -/
theorem rowBase_eq_none {r : Byte} (h : 3 < r) : rowBase r = none := by
  have rows : ∀ r : Byte, 3 < r → rowBase r = none := by decide
  exact rows r h

/-- The clamped row is a row of the display, so one above 3 needs five rows (R172, R173). -/
theorem five_le_of_effectiveRow {rows row : Byte} (hrows : rows ≠ 0) (h : 3 < effectiveRow rows row) : 5 ≤ rows := by
  have within : effectiveRow rows row < rows := by
    unfold effectiveRow
    split <;> bv_omega
  bv_omega

/-- `SETCURSOR` to a row without a base is a fault before any event (R173, R209). -/
theorem exec_setCursor_unsupported {col row : Byte} {s : State} (hs : s.Ready) (hr : s.resetIn = none)
    (hb : rowBase (effectiveRow s.rows row) = none) :
    exec (.setCursor col row) s = .next (s.faultedBy .rowUnsupported) :=
  exec_of_fail hs.1 hs.ne_faulted hr (by simp only [plan, Plan.ready, hs.2, if_true, hb])

/-- Settles O32: the four rows of the base table, and the rows beyond it. -/
theorem setCursorClampsAndAddresses : Obligations.SetCursorClampsAndAddresses := by
  intro col row s hs hu hrows
  have sends {r : Byte} {base : Nat} (hb : rowBase r = some base) (e : effectiveRow s.rows row = r) :
      exec (.setCursor col row) s = .next (s.emitted (s.byteEvents (ddramCommand base col) 0)).rest :=
    exec_setCursor hs hu (e ▸ hb)
  exact ⟨sends rfl, sends rfl, sends rfl, sends rfl, fun h =>
    ⟨five_le_of_effectiveRow hrows h, exec_setCursor_unsupported hs hu.1 (rowBase_eq_none h)⟩⟩

/-- `CREATECHAR` sends the command of its slot, then its rows as data (R177). -/
theorem exec_createChar {loc : Byte} {g : List Byte} {s : State} (hs : s.Ready)
    (hu : s.Undisturbed (6 + 6 * g.length)) :
    exec (.createChar loc g) s = .next (s.emitted (s.byteEvents (cgramCommand loc) 0 ++ s.dataEvents g)).rest := by
  rw [← glyphActs_flatMap]
  exact exec_events (glyphActs s.params loc g) hs rfl (glyphActs_events ..) (by rwa [writeCount_glyphActs])

/-- Settles O33: the eight rows written out. -/
theorem createCharSendsCommandAndRows : Obligations.CreateCharSendsCommandAndRows := by
  intro loc g₀ g₁ g₂ g₃ g₄ g₅ g₆ g₇ s hs hu
  rw [exec_createChar (g := [g₀, g₁, g₂, g₃, g₄, g₅, g₆, g₇]) hs hu]
  simp only [State.dataEvents, List.flatMap_cons, List.flatMap_nil, List.append_nil, List.append_assoc, cgramCommand]

/-- The slot's command is the same for locations with the same low three bits (R176). -/
theorem exec_createChar_congr {loc loc' : Byte} (h : cgramCommand loc = cgramCommand loc') (g : List Byte) (s : State) :
    exec (.createChar loc g) s = exec (.createChar loc' g) s := by
  have lists : glyphActs s.params loc g = glyphActs s.params loc' g := by rw [glyphActs, h, glyphActs]
  exact congrArg (actsInReady s) lists

/-- Settles O34: the mask of the slot's command takes the location's low three bits, once or twice. -/
theorem glyphLocationMasked : Obligations.GlyphLocationMasked := by
  refine ⟨fun loc g s => exec_createChar_congr ?_ g s, fun g s => exec_createChar_congr rfl g s⟩
  rw [cgramCommand, cgramCommand, BitVec.and_assoc, BitVec.and_self]

/-- Settles O35: `SETBL` once, and once more from the state it leaves. -/
theorem setBacklightWritesOnce : Obligations.SetBacklightWritesOnce := by
  intro on s hs hu e t
  have again : t.Undisturbed 1 := State.Undisturbed.after (n := 1) [e] hu
  refine ⟨exec_setBl hs (hu.mono (Nat.le_succ 1)), exec_setBl (s := t) hs again, ?_, rfl⟩
  exact List.append_assoc s.trace [e] [e]

/-- Settles O36: `DCTL` sends the byte with the field's bit set or cleared. -/
theorem displayControlReissued : Obligations.DisplayControlReissued := by
  intro val s hs hu sends
  have dctl (f : DctlField) : sends f (dctlApply s.dispCtl f val) := exec_dctl hs hu
  exact ⟨dctl .D, dctl .C, dctl .B⟩

/-! ## O54: the delay owed after a clear -/

/-- The receivers are linked but for a delay of `us` microseconds that the controller owes. -/
def State.LinkedOwing (s : State) (us : Nat) : Prop :=
  s.panel.busy = us ∧ State.Linked { s with panel := { s.panel with busy := 0 } }

section
variable {s : State} {owed : Nat}

theorem State.LinkedOwing.linked_iff (h : s.LinkedOwing owed) : s.Linked ↔ owed = 0 := by
  obtain ⟨hbusy, hwide, hhigh, -, hlow, hpair⟩ := h
  exact ⟨fun hl => hbusy.symm.trans hl.2.2.1, fun e => ⟨hwide, hhigh, hbusy.trans e, hlow, hpair⟩⟩

/-- A pause of the host's takes from what is owed. -/
theorem State.LinkedOwing.paused (h : s.LinkedOwing owed) (ms : List HostMove) (us : Nat) :
    (s.paused ms us).LinkedOwing (owed - us) :=
  ⟨congrArg (· - us) h.1, h.2⟩

/-- So does a wait of the operation's. -/
theorem State.LinkedOwing.wait (h : s.LinkedOwing owed) (us : Nat) :
    (s.emitted [.wait us]).LinkedOwing (owed - us) :=
  ⟨congrArg (· - us) h.1, h.2⟩

/-- Owed delay does not part a pair. -/
theorem State.LinkedOwing.rest (h : s.LinkedOwing owed) : s.rest = s := by
  obtain ⟨-, hwide, hhigh, -, hlow, hpair⟩ := h
  exact State.rest_of_whole hpair (by simp_all [Panel.awaitsPair])

/-- The clear command (R77) takes 2 ms, of which its last strobe's wait covers 50 microseconds (R244), and leaves the
address counter in DDRAM (R247). -/
theorem State.Linked.clear_command (hl : s.Linked) (hw : s.params.wf = true) (ha : s.Arrives 6) :
    (s.emitted (s.byteEvents 0x01 0)).LinkedOwing 2000 ∧
      (s.emitted (s.byteEvents 0x01 0)).panel.lcd.space = .ddram := by
  have low : NibbleByte s.params (lowNibbleByte 0x01 0) := .inl (nibbleBytes_low hw 0x01 (.inl rfl)).2
  have panel := State.emitted_byte_panel hw 0x01 (.inl rfl) ha hl
  rw [modeZero hw, Panel.execute_command _ (i := .clear) (by decide)] at panel
  rw [State.LinkedOwing, panel]
  obtain ⟨hwide, -, -, -, hpair⟩ := hl
  exact ⟨⟨rfl, hwide, rfl, rfl, (nibbleLines hw low s.backlight_cases).low_en, hpair⟩, rfl⟩

end

/-- Settles O54: the clear command leaves 2000 microseconds owed, which `CLEAR` waits for and `CMD` leaves to the
host. -/
theorem clearSettlesButCommandOneDoesNot : Obligations.ClearSettlesButCommandOneDoesNot := by
  intro s hs hu ha hl
  obtain ⟨owing, space⟩ := hl.clear_command hs.1 ha
  have clear : exec .clear s = .next ((s.emitted (s.byteEvents 0x01 0)).emitted [.wait 2000]).rest :=
    exec_longCmd hs hu rfl
  have cmd : exec (.cmd 0x01) s = .next (s.emitted (s.byteEvents 0x01 0)).rest := exec_byte hs hu rfl
  rw [(owing.wait 2000).rest] at clear
  rw [owing.rest] at cmd
  refine ⟨⟨_, clear, (owing.wait 2000).linked_iff.2 rfl, space⟩, _, cmd, ?_, fun us ms => ⟨_, rfl, rfl, ?_⟩⟩
  · rw [owing.linked_iff]
    decide
  · exact (owing.paused ms us).linked_iff.trans Nat.sub_eq_zero_iff_le

/-! ## O56: the backlight write -/

/-- A transport write with Enable low before it, whether it arrives or not and wherever it goes, is nothing to the
controller. -/
theorem Panel.receive_latches_nothing {p : Params} (r : XferResult) (k : Nat) (a : BusAddr) (b : Byte) {pan : Panel}
    (h : hasBit pan.out p.expEn = false) :
    (pan.receive p r k a b).lcd = pan.lcd ∧ (pan.receive p r k a b).ddram = pan.ddram ∧
      (pan.receive p r k a b).cgram = pan.cgram ∧ (pan.receive p r k a b).busy = pan.busy := by
  by_cases ha : a = pan.busAddr
  · by_cases hr : r = .fail false
    · subst hr
      rw [Panel.receive_lost]
      exact ⟨rfl, rfl, rfl, rfl⟩
    · rw [Panel.receive_low k b ha hr h]
      exact ⟨rfl, rfl, rfl, rfl⟩
  · rw [Panel.receive_elsewhere _ _ _ _ ha]
    exact ⟨rfl, rfl, rfl, rfl⟩

/-- Settles O56: `SETBL` is one transport write. -/
theorem backlightWriteLatchesNothing : Obligations.BacklightWriteLatchesNothing :=
  fun _ s hs hu hlow => ⟨_, exec_setBl hs hu,
    Panel.receive_latches_nothing (s.drawAt s.sent) s.sent s.addr _ hlow⟩

end Sys2Proof.Machine
end

section
/-! PROOFS. The statements of 60_exceptions.md: the faults before any event (O8, O9, O19, O27), the bus fault (O13),
mode `FAULTED` (O11), and resets, between operations (O45) and inside one (O46). Where a fault can come from is said
once (`exec_fault`), and so is how the run of an operation that a reset cuts goes beside the one without
(`plan_flow_dueAt`). -/

namespace Sys2Proof.Machine

/-! ## O8, O9: admission by mode -/

/-- The plan of a READY-only request needs mode `READY`. -/
theorem plan_readyRequest {i : Instr} (h : isReadyRequest i = true) (s : State) :
    ∃ p : Plan, plan i s = p.ready s := by
  cases i with
  | expw | pulse | w4 | send | cmd | putc | clear | home | setCursor | createChar | setBl | dctl => exact ⟨_, rfl⟩
  | _ => cases h

/-- Settles O8: the plan of each of the twelve is READY-only. -/
theorem notReadyBeforeBegin : Obligations.NotReadyBeforeBegin := by
  intro i s hi hs hr
  obtain ⟨p, hp⟩ := plan_readyRequest hi s
  exact exec_notReady hp hs hr

/-- The plan of a configuration setter needs mode `CONFIG`. -/
theorem plan_setter {i : Instr} (h : isSetter i = true) (s : State) : ∃ p : Plan, plan i s = p.config s := by
  cases i with
  | cfgAddr | cfgGeom | cfgFont | cfgPins | cfgBl => exact ⟨_, rfl⟩
  | _ => cases h

/-- Settles O9: the plan of each of the five is CONFIG-only. -/
theorem settersLockedWhenReady : Obligations.SettersLockedWhenReady := by
  intro i s hi hs hr
  obtain ⟨p, hp⟩ := plan_setter hi s
  exact exec_of_fail hs.1 hs.ne_faulted hr (by rw [hp, Plan.config, if_neg (by simp [hs.2])])

/-! ## O11: mode `FAULTED` -/

/-- In mode `FAULTED` no instruction is admitted. -/
theorem exec_faulted {s : State} (hm : s.mode = .faulted) (hw : s.params.wf = true) (i : Instr) :
    exec i s = .fault (.halted s.fault) := by
  rw [exec_eq_plan, accept, if_pos hw, hm]

/-- Settles O11: of the four things a step can be an instruction needs another mode, and a reset keeps the fault. -/
theorem faultedModeIsTerminal : Obligations.FaultedModeIsTerminal := by
  intro s hm
  refine ⟨fun i hw => exec_faulted hm hw i, fun t h => ?_⟩
  obtain rfl | ⟨ms, rfl⟩ | ⟨ms, us, rfl⟩ | ⟨i, ms, cut, h⟩ := step_next h
  · exact ⟨hm, rfl⟩
  · exact ⟨if_pos hm, if_pos hm⟩
  · exact ⟨hm, rfl⟩
  · obtain ⟨-, hne, -⟩ := exec_next h
    exact absurd hm hne

/-! ## Where a fault comes from -/

/-- Every fault that `t` holds is one of `s`, or `BUS_FAIL` where a failed transaction counts. -/
def State.FaultsOf (s t : State) : Prop :=
  t.params = s.params ∧ ∀ c, t.fault = some c → c = .busFail ∧ s.params.propagateBusErr = true ∨ s.fault = some c

theorem State.FaultsOf.hardReset {s t : State} (h : s.FaultsOf t) : s.FaultsOf t.hardReset := by
  refine ⟨h.1, fun c hc => ?_⟩
  rw [State.hardReset_fault] at hc
  split at hc
  · exact h.2 c hc
  · cases hc

theorem State.FaultsOf.endOperation {s t : State} (h : s.FaultsOf t) : s.FaultsOf t.endOperation := by
  unfold State.endOperation
  split
  · exact h.hardReset
  · exact h

/-- Of the actions only a transport write raises a fault (R210). -/
theorem State.FaultsOf.act {s t : State} (h : s.FaultsOf t) (a : Act) : s.FaultsOf (act a t).state := by
  by_cases ha : isEvent a = true
  · obtain ⟨-, e⟩ | ⟨e, n, pan, -, -, -, e' | ⟨hp, e'⟩⟩ := act_event_cases ha t
    · rw [e]
      exact h.hardReset
    · rw [e']
      exact h
    · rw [e']
      exact ⟨h.1, fun c hc => .inl ⟨(Option.some.inj hc).symm, h.1 ▸ hp⟩⟩
  · cases a with
    | openBus | write | wait => exact absurd rfl ha
    | _ => exact h

/-- A fault after an instruction is its plan's, or a transport write's, or was there before. -/
theorem exec_fault {i : Instr} {s t : State} {c : FaultCode} (h : exec i s = .next t) (ht : t.fault = some c) :
    plan i s = .fail c ∨ (c = .busFail ∧ s.params.propagateBusErr = true) ∨ s.fault = some c := by
  obtain ⟨-, -, rfl⟩ := exec_next h
  cases hp : plan i s with
  | fail d =>
    have raised : (s.raise d).FaultsOf (s.raise d).endOperation :=
      State.FaultsOf.endOperation ⟨rfl, fun _ => .inr⟩
    rw [hp] at ht
    obtain own | own := raised.2 c ht
    · exact .inr (.inl own)
    · cases own
      exact .inl rfl
  | set u =>
    obtain ⟨-, -, fault, -, -, params, -⟩ := plan_set hp
    have kept : s.FaultsOf u.endOperation := State.FaultsOf.endOperation ⟨params, fun _ e => .inr (fault ▸ e)⟩
    rw [hp] at ht
    exact .inr (kept.2 c ht)
  | run as =>
    have walk : s.FaultsOf (runActs as s).state :=
      runActs_keeps s.FaultsOf as (fun a _ u hu => hu.act a) ⟨rfl, fun _ => .inr⟩
    have rested : s.FaultsOf (runActs as s).state.rest := walk
    rw [hp, Plan.flow, runOp_state] at ht
    exact .inr (rested.endOperation.2 c ht)

/-! ## O13: `BUS_FAIL` -/

/-- A transport write where no reset is due: its event, and then what its result makes of it. -/
theorem xfer_quiet (b : Byte) {s : State} (hr : s.resetIn = none) :
    xfer b s =
      if s.params.propagateBusErr && drawFailed (s.drawAt s.sent) then
        .halt (((s.push (.xfer s.addr b)).transact b).raise .busFail)
      else .go ((s.push (.xfer s.addr b)).transact b) := by
  rw [xfer, emit, if_neg (by simp [hr])]
  rfl

/-- Such a write, but for a fault, is its event emitted. -/
theorem push_transact {s : State} (hr : s.resetIn = none) (b : Byte) :
    (s.push (.xfer s.addr b)).transact b = s.emitted [.xfer s.addr b] := by
  simp only [State.transact, State.push, State.emitted, hr, Option.map_none]
  rw [← hr]
  rfl

/-- Settles O13: a transport write by what its result makes of it, and an instruction by where its fault comes from. -/
theorem busFailAfterItsEvent : Obligations.BusFailAfterItsEvent := by
  refine ⟨fun b s hr hp hf => ?_, fun b s hr hp => ?_, fun i s t hp hs h ht => ?_⟩
  · rw [xfer_quiet b hr, if_pos (by rw [hp, hf]; rfl), push_transact hr]
    exact ⟨_, (s.emitted [.xfer s.addr b]).panel, rfl, rfl⟩
  · rw [xfer_quiet b hr, if_neg (by simp [hp]), push_transact hr]
  · obtain e | ⟨-, e⟩ | e := exec_fault h ht
    · exact plan_fail e rfl
    · cases hp.symm.trans e
    · exact hs e

/-! ## O19: what `BEGIN` needs -/

/-- Settles O19: `BEGIN`'s plan is the fault without an address or a geometry, and its twelve steps with both. -/
theorem beginNeedsAddressAndGeometry : Obligations.BeginNeedsAddressAndGeometry := by
  refine fun s hw hm hr => ⟨fun missing => exec_of_fail hw hm hr (if_neg ?_), fun t ha hg hs h ht => ?_⟩
  · rw [Bool.and_eq_true]
    rintro ⟨ha, hg⟩
    obtain e | e := missing
    · cases ha.symm.trans e
    · cases hg.symm.trans e
  · have steps : plan .beginInit s = .run (beginActs s) := by simp [plan, ha, hg]
    obtain e | ⟨e, -⟩ | e := exec_fault h ht
    · cases steps.symm.trans e
    · cases e
    · cases hs.symm.trans e

/-! ## O27: the mode byte of `SEND` -/

/-- Only a `SEND` with a mode byte that is neither 0 nor `EXP_RS` has `BAD_MODE` as its plan. -/
theorem plan_badMode {i : Instr} {s : State} (h : plan i s = .fail .badMode) :
    ∃ v m, i = .send v m ∧ m ≠ 0 ∧ m ≠ s.params.expRs := by
  cases i with
  | send v m =>
    refine ⟨v, m, rfl, not_or.1 fun hm => ?_⟩
    rw [plan, if_pos hm, Plan.ready] at h
    split at h <;> cases h
  | _ =>
    simp only [plan, Plan.ready, Plan.config] at h
    (repeat' split at h) <;> cases h

/-- Settles O27: the plan of such a `SEND` is the fault, and no other plan is. -/
theorem sendRefusesBadMode : Obligations.SendRefusesBadMode := by
  refine ⟨fun v m s hs hr h₀ h₁ => ?_, fun i s t hs h ht => ?_⟩
  · have refused : ¬(m = 0 ∨ m = s.params.expRs) := not_or.2 ⟨h₀, h₁⟩
    exact exec_of_fail hs.1 hs.ne_faulted hr (by rw [plan, if_neg refused, Plan.ready, if_pos hs.2])
  · obtain e | ⟨e, -⟩ | e := exec_fault h ht
    · exact plan_badMode e
    · cases e
    · cases hs.symm.trans e

/-! ## O45: a reset between operations -/

/-- Settles O45: the step is the reset, which takes its registers from power-on, and a fault from the state in mode
`FAULTED`. -/
theorem resetClearsRegisters : Obligations.ResetClearsRegisters := by
  intro s ms hport
  have move : step s = .next (State.hardReset { s with port := ms }) := by
    rw [step, State.nextMove, hport]
  exact ⟨_, move, rfl, rfl, rfl, rfl, rfl, rfl, rfl, rfl, rfl, fun hm => ⟨if_neg hm, if_neg hm⟩,
    fun hm => ⟨if_pos hm, if_pos hm⟩⟩

/-! ## O46: a reset inside an operation

An operation is run twice, the second time with the host's reset due after `n` events. Up to the event that the reset
comes before, the two runs are in states that differ in what is due alone (`DueAt`); of the state reached a reset then
keeps what the run without one has passed (`Passed`). -/

/-- `t` is `s` further on in an operation that no reset cuts, after events `es`: what a reset would keep of it. -/
structure State.Passed (s : State) (es : List Event) (t : State) : Prop where
  params : t.params = s.params
  port : t.port = s.port
  busScript : t.busScript = s.busScript
  resetIn : t.resetIn = s.resetIn
  trace : t.trace = s.trace ++ es
  sent : t.sent = s.sent + (xferBytes es).length

namespace State.Passed

variable {s t u : State} {es fs : List Event}

theorem of_nothing (s : State) : s.Passed [] s := ⟨rfl, rfl, rfl, rfl, (List.append_nil _).symm, rfl⟩

theorem trans (h : s.Passed es t) (g : t.Passed fs u) : s.Passed (es ++ fs) u :=
  ⟨g.params.trans h.params, g.port.trans h.port, g.busScript.trans h.busScript, g.resetIn.trans h.resetIn,
    by rw [g.trace, h.trace, List.append_assoc],
    by rw [g.sent, h.sent, xferBytes_append, List.length_append, Nat.add_assoc]⟩

/-- The end of an operation passes no event. -/
theorem rest (h : s.Passed es t) : s.Passed es t.rest := { h with }

/-- A state after more events, and then a reset. -/
theorem resetAfter (h : s.Passed es t) (fs : List Event) (f : Option FaultCode) (pan : Panel) :
    t.resetAfter fs f pan = s.resetAfter (es ++ fs) f pan := by
  simp only [State.resetAfter, h.params, h.port, h.busScript, h.trace, h.sent, xferBytes_append, List.length_append,
    List.append_assoc, Nat.add_assoc]

/-- A reset here keeps the fault of mode `FAULTED`. -/
theorem hardReset (h : s.Passed es t) (hf : t.mode = .faulted → t.fault ≠ none) (pan : Panel) :
    State.hardReset { t with panel := pan }
      = s.resetAfter es (if t.mode = .faulted then t.fault else none) pan := by
  simp only [State.hardReset, State.resetAfter, h.params, h.port, h.busScript, h.trace, h.sent]
  by_cases hm : t.mode = .faulted
  · simp only [hm, if_true, if_neg (hf hm)]
  · simp only [hm, if_false, if_true]
    rfl

end State.Passed

/-- An action passes its events, whether the operation goes on or stops there. -/
theorem act_passed (a : Act) {s : State} (hr : s.resetIn = none) : s.Passed (actEvents s a) (act a s).state := by
  cases a with
  | openBus =>
    rw [act, openTransport_undisturbed hr]
    exact ⟨rfl, rfl, rfl, rfl, rfl, rfl⟩
  | wait t =>
    rw [act, wait_undisturbed t hr]
    exact ⟨rfl, rfl, rfl, rfl, rfl, rfl⟩
  | write b =>
    have after : s.Passed [.xfer s.addr (b ||| s.blv)] (s.emitted [.xfer s.addr (b ||| s.blv)]) :=
      ⟨rfl, rfl, rfl, rfl, rfl, rfl⟩
    rw [act, expWrite, xfer_quiet _ hr, push_transact hr]
    split
    · exact { after with }
    · exact after
  | _ => exact { State.Passed.of_nothing s with }

/-- A list of actions passes the events it has emitted. -/
theorem runActs_passed (as : List Act) {s : State} (hr : s.resetIn = none) :
    ∃ es, s.Passed es (runActs as s).state :=
  runActs_keeps (fun t => ∃ es, s.Passed es t) as
    (fun a _ _ ⟨_, h⟩ => ⟨_, h.trans (act_passed a (h.resetIn.trans hr))⟩) ⟨[], .of_nothing s⟩

/-- No action that goes on enters mode `FAULTED`. -/
theorem act_go_mode {a : Act} {s u : State} (hm : s.mode ≠ .faulted) (h : act a s = .go u) : u.mode ≠ .faulted := by
  obtain ⟨es, r, n, pan, -, rfl⟩ := act_go h
  cases a with
  | ready => exact nofun
  | _ => exact hm

/-! ### The two runs -/

/-- `v` is `s`, the host's reset due after `n` more events; where it is due at once, a wait just before it may not be
credited to the receivers (R232). -/
def State.DueAt (n : Nat) (s v : State) : Prop :=
  ∃ pan, (n ≠ 0 → pan = s.panel) ∧ v = State.due { s with panel := pan } n

theorem State.due_dueAt (s : State) (n : Nat) : State.DueAt n s (s.due n) := ⟨s.panel, fun _ => rfl, rfl⟩

theorem State.DueAt.rest {n : Nat} {s v : State} (h : State.DueAt n s v) : State.DueAt n s.rest v.rest := by
  obtain ⟨pan, hpan, rfl⟩ := h
  exact ⟨pan.rest s.params, fun hn => congrArg (Panel.rest s.params) (hpan hn), rfl⟩

/-- A transport write that the reset does not come before is as without one, and one event fewer is to come. -/
theorem xfer_due (b : Byte) (s : State) (n : Nat) :
    xfer b (s.due (n + 1)) =
      if s.params.propagateBusErr && drawFailed (s.drawAt s.sent) then
        .halt (State.due (((s.push (.xfer s.addr b)).transact b).raise .busFail) n)
      else .go (State.due ((s.push (.xfer s.addr b)).transact b) n) := rfl

/-- An action whose events all come before the reset does the same in both runs. -/
theorem act_dueAt (a : Act) {s v : State} {n : Nat} (hr : s.resetIn = none)
    (hv : State.DueAt (n + (actEvents s a).length) s v) :
    Flow.Related (State.DueAt n) (State.DueAt n) (act a s) (act a v) := by
  obtain ⟨pan, hpan, rfl⟩ := hv
  cases a with
  | openBus =>
    cases hpan nofun
    rw [act, openTransport_undisturbed hr]
    exact State.due_dueAt _ n
  | wait t =>
    cases hpan nofun
    rw [act, wait_undisturbed t hr]
    exact ⟨if some n = some 0 then s.panel else s.panel.elapse t, fun hn => if_neg (by simp [hn]), rfl⟩
  | write b =>
    cases hpan nofun
    have both := xfer_due (b ||| s.blv) s n
    rw [act, expWrite, xfer_quiet _ hr]
    change Flow.Related _ _ _ (xfer (b ||| s.blv) (s.due (n + 1)))
    rw [both]
    split <;> exact State.due_dueAt _ n
  | setFn | setCtl | setMode | setBl | ready => exact ⟨pan, hpan, rfl⟩
  | revive => exact ⟨pan.revive, fun hn => congrArg Panel.revive (hpan hn), rfl⟩
  | repair => exact ⟨pan.repair, fun hn => congrArg Panel.repair (hpan hn), rfl⟩

theorem Flow.Related.of_go {R Q : State → State → Prop} {s : State} :
    ∀ {f : Flow}, Flow.Related R Q (.go s) f → ∃ t, f = .go t ∧ R s t
  | .go t, h => ⟨t, rfl, h⟩
  | .halt _, h => h.elim

theorem Flow.Related.of_halt {R Q : State → State → Prop} {s : State} :
    ∀ {f : Flow}, Flow.Related R Q (.halt s) f → ∃ t, f = .halt t ∧ Q s t
  | .halt t, h => ⟨t, rfl, h⟩
  | .go _, h => h.elim

/-- An event that the reset comes before does not happen. -/
theorem act_due_now {a : Act} (ha : isEvent a = true) (s : State) : act a (s.due 0) = .halt s.hardReset := by
  obtain ⟨-, e⟩ | ⟨-, -, -, h, -⟩ := act_event_cases ha (s.due 0)
  · exact e
  · exact absurd rfl h

/-- An action makes one event or none. -/
theorem eq_zero_of_lt_actEvents {s : State} {a : Act} {n : Nat} (h : n < (actEvents s a).length) :
    isEvent a = true ∧ n = 0 := by
  cases a with
  | openBus | write | wait => exact ⟨rfl, Nat.lt_one_iff.1 h⟩
  | _ => exact absurd h (Nat.not_lt_zero n)

/-- A list whose first action is the event that the reset comes before. -/
theorem runActs_due_first {a : Act} (ha : isEvent a = true) (as : List Act) {s v : State} (hm : s.mode ≠ .faulted)
    (hv : State.DueAt 0 s v) : ∃ pan, runActs (a :: as) v = .halt (s.resetAfter [] none pan) := by
  obtain ⟨pan, -, rfl⟩ := hv
  have reset := (State.Passed.of_nothing s).hardReset (fun e => absurd e hm) pan
  rw [if_neg hm] at reset
  exact ⟨pan, by rw [runActs, act_due_now ha, reset]⟩

/-- What an action makes comes first in what its list makes. -/
theorem runActs_cons_passed (a : Act) (as : List Act) {s : State} (hr : s.resetIn = none) :
    ∃ es, (runActs (a :: as) s).state.trace = s.trace ++ (actEvents s a ++ es) := by
  have first := act_passed a hr
  rw [runActs]
  cases e : act a s with
  | go u =>
    rw [e] at first
    obtain ⟨es, others⟩ := runActs_passed as (first.resetIn.trans hr)
    exact ⟨es, (first.trans others).trace⟩
  | halt u =>
    rw [e] at first
    exact ⟨[], by rw [List.append_nil]; exact first.trace⟩

/-- A list of actions with all its events before the reset does the same in both runs; else the second run ends before
event number `n`. -/
theorem runActs_dueAt {as : List Act} {s v : State} {n : Nat} {es : List Event} (hr : s.resetIn = none)
    (hm : s.mode ≠ .faulted) (hv : State.DueAt n s v) (ht : (runActs as s).state.trace = s.trace ++ es) :
    (∀ m, n = m + es.length → Flow.Related (State.DueAt m) (State.DueAt m) (runActs as s) (runActs as v)) ∧
      (n < es.length → ∃ pan, runActs as v = .halt (s.resetAfter (es.take n) none pan)) := by
  induction as generalizing s v n es with
  | nil =>
    cases List.self_eq_append_right.1 ht
    exact ⟨fun m h => (show n = m from h) ▸ hv, fun h => absurd h (Nat.not_lt_zero n)⟩
  | cons a as ih =>
    obtain ⟨fs, split⟩ := runActs_cons_passed a as hr
    cases List.append_cancel_left (ht.symm.trans split)
    have first := act_passed a hr
    rw [List.length_append]
    by_cases hn : (actEvents s a).length ≤ n
    · obtain ⟨k, rfl⟩ := Nat.exists_eq_add_of_le' hn
      have both := act_dueAt a hr hv
      rw [runActs] at ht ⊢
      rw [runActs]
      cases e : act a s with
      | go u =>
        rw [e] at ht both first
        obtain ⟨w, e', hw⟩ := both.of_go
        have others : (runActs as u).state.trace = u.trace ++ fs := by
          rw [show u.trace = _ from first.trace, List.append_assoc]
          exact ht
        obtain ⟨beyond, within⟩ := ih (first.resetIn.trans hr) (act_go_mode hm e) hw others
        simp only [e']
        refine ⟨fun m h => beyond m (by omega), fun h => ?_⟩
        obtain ⟨pan, stop⟩ := within (by omega)
        rw [State.Passed.resetAfter first] at stop
        rw [Nat.add_comm k, List.take_length_add_append]
        exact ⟨pan, stop⟩
      | halt u =>
        rw [e] at ht both first
        obtain ⟨w, e', hw⟩ := both.of_halt
        have last : fs = [] := List.append_right_eq_self.1 (List.append_cancel_left (ht.symm.trans first.trace))
        subst last
        simp only [e']
        refine ⟨fun m h => ?_, fun h => absurd h (by simp)⟩
        cases Nat.add_right_cancel h
        exact hw
    · obtain ⟨ha, rfl⟩ := eq_zero_of_lt_actEvents (Nat.lt_of_not_le hn)
      exact ⟨fun m h => by omega, fun _ => runActs_due_first ha as hm hv⟩

/-! ### The two runs of an instruction -/

/-- A plan, the state it sets with a reset due. -/
def Plan.due (n : Nat) : Plan → Plan
  | .set t => .set (t.due n)
  | p => p

/-- No plan looks at when a reset is due. -/
theorem plan_due (i : Instr) (s : State) (n : Nat) : plan i (s.due n) = (plan i s).due n := by
  cases i with
  | setCursor col row =>
    have sameRow : effectiveRow (s.due n).rows row = effectiveRow s.rows row := rfl
    simp only [plan, Plan.ready, apply_ite (Plan.due n), sameRow]
    cases rowBase (effectiveRow s.rows row) <;> rfl
  | _ =>
    simp only [plan, Plan.ready, Plan.config, apply_ite (Plan.due n)]
    rfl

/-- A setter passes no event. -/
theorem plan_set_passed {i : Instr} {s t : State} (h : plan i s = .set t) : s.Passed [] t := by
  obtain ⟨-, -, -, resetIn, trace, params, -, sent, busScript, port, -⟩ := plan_set h
  exact ⟨params, port, busScript, resetIn, by rw [trace, List.append_nil], sent⟩

/-- What the plan of an instruction reaches has passed the events it has emitted. -/
theorem plan_flow_passed {i : Instr} {s : State} {es : List Event} (hr : s.resetIn = none)
    (ht : ((plan i s).flow s).state.trace = s.trace ++ es) : s.Passed es ((plan i s).flow s).state := by
  have passed : ∃ fs, s.Passed fs ((plan i s).flow s).state := by
    cases hp : plan i s with
    | fail c => exact ⟨[], { State.Passed.of_nothing s with }⟩
    | set u => exact ⟨[], plan_set_passed hp⟩
    | run as =>
      rw [Plan.flow, runOp_state]
      obtain ⟨fs, h⟩ := runActs_passed as hr
      exact ⟨fs, h.rest⟩
  obtain ⟨fs, h⟩ := passed
  cases List.append_cancel_left (h.trace.symm.trans ht)
  exact h

/-- Where no reset is due, `MODE` is `FAULTED` only with a fault. -/
theorem plan_flow_faulted {i : Instr} {s : State} (hr : s.resetIn = none) (hm : s.mode ≠ .faulted)
    (h : ((plan i s).flow s).state.mode = .faulted) : ((plan i s).flow s).state.fault ≠ none := by
  cases hp : plan i s with
  | fail c => exact Option.some_ne_none c
  | set u =>
    obtain ⟨-, mode, -⟩ := plan_set hp
    rw [hp] at h
    exact absurd (mode.symm.trans h) hm
  | run as =>
    have walk := runActs_walk (fun t => t.mode ≠ .faulted) (fun _ => True) as (s := s)
      (fun a _ t u ht e => act_go_mode ht e) (fun _ _ _ _ _ _ => trivial) hm
    rw [hp, Plan.flow, runOp_state] at h
    rw [Plan.flow, runOp_state]
    cases e : runActs as s with
    | go u =>
      rw [e] at h
      exact absurd h (walk.1 u e)
    | halt u =>
      obtain ⟨-, -, fault, -⟩ := (runActs_quiet as hr).2 u e
      exact fault ▸ Option.some_ne_none _

/-- The plan of an instruction, the reset due after its last event or later, and before. -/
theorem plan_flow_dueAt {i : Instr} {s : State} {n : Nat} {es : List Event} (hr : s.resetIn = none)
    (hm : s.mode ≠ .faulted) (ht : ((plan i s).flow s).state.trace = s.trace ++ es) :
    (∀ m, n = m + es.length →
        State.DueAt m ((plan i s).flow s).state ((plan i (s.due n)).flow (s.due n)).state) ∧
      (n < es.length → ∃ pan, ((plan i (s.due n)).flow (s.due n)).state = s.resetAfter (es.take n) none pan) := by
  rw [plan_due]
  cases hp : plan i s with
  | fail c =>
    rw [hp] at ht
    cases List.self_eq_append_right.1 ht
    exact ⟨fun m h => (show n = m from h) ▸ State.due_dueAt _ n, fun h => absurd h (Nat.not_lt_zero n)⟩
  | set u =>
    rw [hp] at ht
    cases List.append_cancel_left ((plan_set_passed hp).trace.symm.trans ht)
    exact ⟨fun m h => (show n = m from h) ▸ State.due_dueAt u n, fun h => absurd h (Nat.not_lt_zero n)⟩
  | run as =>
    rw [hp, Plan.flow, runOp_state] at ht
    obtain ⟨beyond, within⟩ := runActs_dueAt hr hm (s.due_dueAt n) ht
    simp only [Plan.due, Plan.flow, runOp_state]
    refine ⟨fun m h => (beyond m h).state.rest, fun h => ?_⟩
    obtain ⟨pan, stop⟩ := within h
    exact ⟨pan.rest s.params, by rw [stop]; rfl⟩

/-- A reset that is still to come at the end of an operation is dropped. -/
theorem State.endOperation_due {t : State} {m : Nat} (hm : m ≠ 0) (hr : t.resetIn = none) :
    (t.due m).endOperation = t := by
  unfold State.endOperation
  rw [if_neg (by simp [State.due, hm])]
  cases t
  cases hr
  rfl

/-- What an admitted instruction answers. -/
theorem exec_admitted {i : Instr} {s : State} (hw : s.params.wf = true) (hm : s.mode ≠ .faulted) :
    exec i s = .next ((plan i s).flow s).state.endOperation := by
  rw [exec_eq_plan, accept, if_pos hw]
  split
  · rename_i e; exact absurd e hm
  · rfl

section
variable {i : Instr} {n : Nat} {s t : State} {es : List Event}

/-- An instruction without a reset, in the terms of its plan. -/
theorem exec_passed (hr : s.resetIn = none) (h : exec i s = .next t) (ht : t.trace = s.trace ++ es) :
    t = ((plan i s).flow s).state ∧ s.Passed es t := by
  obtain ⟨-, -, e⟩ := exec_next h
  have trace : ((plan i s).flow s).state.trace = s.trace ++ es := by
    rw [← ht, e, State.endOperation_trace]
  have passed := plan_flow_passed hr trace
  have quiet : t = ((plan i s).flow s).state := e.trans (State.endOperation_quiet (passed.resetIn.trans hr))
  exact ⟨quiet, quiet ▸ passed⟩

/-- A reset before an event of the operation's (R232). -/
theorem exec_reset_within (hr : s.resetIn = none) (h : exec i s = .next t) (ht : t.trace = s.trace ++ es)
    (hn : n < es.length) : ∃ pan, exec i (s.due n) = .next (s.resetAfter (es.take n) none pan) := by
  obtain ⟨hw, hm, -⟩ := exec_next h
  obtain ⟨rfl, -⟩ := exec_passed hr h ht
  obtain ⟨pan, stop⟩ := (plan_flow_dueAt hr hm ht).2 hn
  refine ⟨pan, ?_⟩
  rw [exec_admitted (s := s.due n) hw hm, stop]
  exact congrArg _ (State.endOperation_quiet rfl)

/-- A reset after the operation's last event: it keeps a fault that was raised there (R206). -/
theorem exec_reset_at_end (hr : s.resetIn = none) (h : exec i s = .next t) (ht : t.trace = s.trace ++ es) :
    ∃ pan, exec i (s.due es.length)
      = .next (s.resetAfter es (if t.mode = .faulted then t.fault else none) pan) := by
  obtain ⟨hw, hm, -⟩ := exec_next h
  obtain ⟨rfl, passed⟩ := exec_passed hr h ht
  obtain ⟨pan, -, last⟩ := (plan_flow_dueAt hr hm ht).1 0 (Nat.zero_add _).symm
  refine ⟨pan, ?_⟩
  rw [exec_admitted (s := s.due es.length) hw hm, last, ← passed.hardReset (plan_flow_faulted hr hm) pan]
  rfl

/-- A reset that is due after more events than the operation has is dropped. -/
theorem exec_reset_beyond (hr : s.resetIn = none) (h : exec i s = .next t) (ht : t.trace = s.trace ++ es)
    (hn : es.length < n) : exec i (s.due n) = .next t := by
  obtain ⟨hw, hm, -⟩ := exec_next h
  obtain ⟨rfl, passed⟩ := exec_passed hr h ht
  obtain ⟨m, hm', rfl⟩ : ∃ m, m ≠ 0 ∧ n = m + es.length := ⟨n - es.length, by omega, by omega⟩
  obtain ⟨pan, hpan, last⟩ := (plan_flow_dueAt hr hm ht).1 m rfl
  cases hpan hm'
  rw [exec_admitted (s := s.due (m + es.length)) hw hm, last]
  exact congrArg _ (State.endOperation_due hm' (passed.resetIn.trans hr))

end

/-- Settles O46: the run that the reset cuts goes as the one without a reset up to the event the reset comes before. -/
theorem resetInsideAnOperation : Obligations.ResetInsideAnOperation := by
  refine ⟨fun i n s t es hr h ht => ⟨exec_reset_within hr h ht, ?_, exec_reset_beyond hr h ht⟩,
    fun n s hn hm hu => ?_⟩
  · rintro rfl
    exact exec_reset_at_end hr h ht
  · have full := exec_begin hm hu
    obtain hn | rfl := Nat.lt_or_eq_of_le hn
    · exact exec_reset_within hu.1 full rfl (by rwa [beginEvents_length])
    · have all : s.beginEvents.take 78 = s.beginEvents := List.take_of_length_le (beginEvents_length s).le
      obtain ⟨pan, h⟩ := exec_reset_at_end hu.1 full rfl
      rw [beginEvents_length] at h
      exact ⟨pan, all.symm ▸ h⟩

end Sys2Proof.Machine
end

section
/-! PROOFS. The statement of 70_reset_and_hazards.md: what each operation that completes costs in transport writes, waits
and minimum delay (O60). -/

namespace Sys2Proof.Machine

/-! ## O60: the costs of an operation -/

/-- What a list of events costs: its transport writes, its waits, and the minimum delay in microseconds (R250). -/
def EventCosts (es : List Event) (writes waits us : Nat) : Prop :=
  (xferBytes es).length = writes ∧ (waitTimes es).length = waits ∧ (waitTimes es).sum = us

/-- Costs add up along a trace. -/
theorem EventCosts.append {es fs : List Event} {w n us w' n' us' : Nat} (he : EventCosts es w n us)
    (hf : EventCosts fs w' n' us') : EventCosts (es ++ fs) (w + w') (n + n') (us + us') := by
  obtain ⟨rfl, rfl, rfl⟩ := he
  obtain ⟨rfl, rfl, rfl⟩ := hf
  rw [EventCosts, xferBytes_append, waitTimes_append, List.length_append, List.length_append, List.sum_append]
  exact ⟨rfl, rfl, rfl⟩

/-- A nibble transaction (R120): present, Enable high, Enable low. -/
theorem nibbleEvents_costs (s : State) (n : Byte) : EventCosts (s.nibbleEvents n) 3 2 51 := ⟨rfl, rfl, rfl⟩

/-- A byte transaction is two nibble transactions (R122). -/
theorem byteEvents_costs (s : State) (v m : Byte) : EventCosts (s.byteEvents v m) 6 4 102 :=
  (nibbleEvents_costs s _).append (nibbleEvents_costs s _)

/-- A command and the wait of R170 and R171. -/
theorem longCmdEvents_costs (s : State) (v : Byte) : EventCosts (s.byteEvents v 0 ++ [.wait 2000]) 6 5 2102 :=
  (byteEvents_costs s v 0).append (w' := 0) (n' := 1) (us' := 2000) ⟨rfl, rfl, rfl⟩

/-- Data bytes cost a byte transaction each. -/
theorem dataEvents_costs (s : State) (g : List Byte) :
    EventCosts (s.dataEvents g) (6 * g.length) (4 * g.length) (102 * g.length) := by
  induction g with
  | nil => exact ⟨rfl, rfl, rfl⟩
  | cons b g ih =>
    have all : EventCosts (s.dataEvents (b :: g)) _ _ _ := (byteEvents_costs s b s.params.expRs).append ih
    simpa only [List.length_cons, Nat.mul_add, Nat.mul_one, Nat.add_comm] using all

/-- The command and the rows of a glyph (R177). -/
theorem glyphEvents_costs (s : State) (loc : Byte) {g : List Byte} (hg : g.length = 8) :
    EventCosts (s.byteEvents (cgramCommand loc) 0 ++ s.dataEvents g) 54 36 918 := by
  have rows := dataEvents_costs s g
  rw [hg] at rows
  exact (byteEvents_costs s (cgramCommand loc) 0).append rows

/-- The operation of `i` completes from `s` with events of these costs. -/
def State.Costs (s : State) (i : Instr) (writes waits us : Nat) : Prop :=
  ∃ t es, exec i s = .next t ∧ t.trace = s.trace ++ es ∧ EventCosts es writes waits us

section
variable {s t : State} {i : Instr}

/-- An operation that appends `es` to the trace costs what `es` does. -/
theorem costs_of_emits {es : List Event} {w n us : Nat} (h : exec i s = .next t) (ht : t.trace = s.trace ++ es)
    (hc : EventCosts es w n us) : s.Costs i w n us :=
  ⟨t, es, h, ht, hc⟩

/-- An operation that emits nothing costs nothing. -/
theorem costs_of_silent (h : exec i s = .next t) (ht : t.trace = s.trace) : s.Costs i 0 0 0 :=
  costs_of_emits h (ht.trans (List.append_nil _).symm) ⟨rfl, rfl, rfl⟩

/-- The setters write registers only (R140 to R144); `CFG.GEOM` with a row. -/
theorem setters_cost (hs : s.InConfig) (hr : s.resetIn = none) (a : BusAddr) (c r : Byte) (f : Bool) (p : PinSel)
    (hrow : r ≠ 0) :
    s.Costs (.cfgAddr a) 0 0 0 ∧ s.Costs (.cfgGeom c r) 0 0 0 ∧ s.Costs (.cfgFont f) 0 0 0 ∧
      s.Costs (.cfgPins p) 0 0 0 ∧ s.Costs (.cfgBl f) 0 0 0 := by
  obtain ⟨font, pins, bl⟩ := cfgFontPinsBacklightWrite f f p s hs hr
  have geom := cfgGeomWritesOrFaults c r s hs hr
  rw [if_neg hrow] at geom
  exact ⟨costs_of_silent (cfgAddrWritesAddress a s hs hr) rfl, costs_of_silent geom rfl, costs_of_silent font rfl,
    costs_of_silent pins rfl, costs_of_silent bl rfl⟩

/-- The requests of `READY` that are single writes, nibble and byte transactions, with `CLEAR`'s and `HOME`'s wait. -/
theorem readyRequests_cost {m : Byte} (hs : s.Ready) (hu : s.Undisturbed 6) (hm : m = 0 ∨ m = s.params.expRs)
    (b v : Byte) (on : Bool) (f : DctlField) :
    s.Costs (.expw b) 1 0 0 ∧ s.Costs (.setBl on) 1 0 0 ∧ s.Costs (.pulse b) 2 2 51 ∧ s.Costs (.w4 b) 3 2 51 ∧
      s.Costs (.send v m) 6 4 102 ∧ s.Costs (.cmd v) 6 4 102 ∧ s.Costs (.putc v) 6 4 102 ∧
      s.Costs (.dctl f on) 6 4 102 ∧ s.Costs .clear 6 5 2102 ∧ s.Costs .home 6 5 2102 := by
  obtain ⟨cmd, putc⟩ := cmdAndPutcSendOneByte v s hs hu
  obtain ⟨clear, home⟩ := clearAndHomeWaitTwoMilliseconds s hs hu
  exact ⟨costs_of_emits (expwWritesOnce b s hs (hu.mono (by decide))) rfl ⟨rfl, rfl, rfl⟩,
    costs_of_emits (exec_setBl hs (hu.mono (by decide))) rfl ⟨rfl, rfl, rfl⟩,
    costs_of_emits (pulseHighThenLow b s hs (hu.mono (by decide))) rfl ⟨rfl, rfl, rfl⟩,
    costs_of_emits (exec_nibble hs (hu.mono (by decide)) rfl) rfl (nibbleEvents_costs s b),
    costs_of_emits (exec_send hs hu hm) rfl (byteEvents_costs s v m),
    costs_of_emits cmd rfl (byteEvents_costs s v 0),
    costs_of_emits putc rfl (byteEvents_costs s v s.params.expRs),
    costs_of_emits (exec_dctl hs hu) rfl (byteEvents_costs ..),
    costs_of_emits clear rfl (longCmdEvents_costs s 0x01),
    costs_of_emits home rfl (longCmdEvents_costs s 0x02)⟩

/-- A cursor address is one command (R174), where the row has a base. -/
theorem setCursor_costs {col row : Byte} (hs : s.Ready) (hu : s.Undisturbed 6)
    (hrow : effectiveRow s.rows row ≤ 3) : s.Costs (.setCursor col row) 6 4 102 := by
  obtain ⟨base, hb⟩ := rowBase_of_le hrow
  exact costs_of_emits (exec_setCursor hs hu hb) rfl (byteEvents_costs ..)

/-- A glyph of eight rows (R177). -/
theorem createChar_costs {loc : Byte} {g : List Byte} (hs : s.Ready) (hu : s.Undisturbed 54) (hg : g.length = 8) :
    s.Costs (.createChar loc g) 54 36 918 :=
  costs_of_emits (exec_createChar hs (by rwa [hg])) rfl (glyphEvents_costs s loc hg)

/-- `BEGIN`'s figures are those of its trace (R154). -/
theorem begin_costs (hm : s.MayBegin) (hu : s.Undisturbed 43) : s.Costs .beginInit 43 34 1061864 := by
  obtain ⟨t, es, h, ht, -, -, costs⟩ := beginTraceShape s hm hu
  exact costs_of_emits h ht costs

end

/-- Settles O60: every operation's events are nibble transactions, waits and single writes, whose costs add up. -/
theorem operationCosts : Obligations.OperationCosts := by
  intro s hu
  have hu₆ : s.Undisturbed 6 := hu.mono (by decide)
  exact ⟨fun hs a c r f p hr => setters_cost hs hu.1 a c r f p hr,
    fun hs b v _ on f hm => readyRequests_cost hs hu₆ hm b v on f,
    fun hs _ _ hrow => setCursor_costs hs hu₆ hrow,
    fun hs _ _ hg => createChar_costs hs hu hg,
    fun hm => begin_costs hm (hu.mono (by decide))⟩

end Sys2Proof.Machine
end
